-- ==== Sys2Proof/Word.lean ====
section
/-! DEFINITION. The widths of the bakaxbaka CORE unit: bytes, word tokens, host addresses, hash words. -/

namespace Sys2Proof

/-- A byte; bit 7 is the most significant (R6). Every quantity at the host port is one. -/
abbrev Byte := BitVec 8

/-- A word token: an opaque string of `WORD_BYTES` bytes, byte 0 first (R140). `WORD_BYTES` is an argument; the default
is 8 (R5). -/
abbrev Token (wordBytes : Nat := 8) := Vector Byte wordBytes

/-- A buffer of sixteen bytes: `ENT`, `SA`, `SB`, `SEC` (R30 to R33). -/
abbrev Block := Vector Byte 16

/-- A host address, 15 bits (R60): an address above 0x7FFF cannot be presented (R63). The width is an argument, since it
grows with `WORD_BYTES` (`93_implementation_defined.md` P2); the default is 15. -/
abbrev HostAddr (addrBits : Nat := 15) := BitVec addrBits

/-- A word of the hash, 32 bits (R212). -/
abbrev Word32 := BitVec 32

end Sys2Proof
end

