-- ==== Sys2Proof/Config.lean ====
section
/-! DEFINITION. The constants and parameters of R5 and R37, and the free values the spec leaves open. -/

namespace Sys2Proof.Config

/-- `POLY` = x⁸+x⁴+x³+x+1, the reduction polynomial of GF(256) (R5, R110). -/
def poly : Nat := 0x11B

/-- `POLY` without its bit 8: what the bit shifted out of a field element is replaced by (R112). -/
def polyLow : Byte := 0x1B

/-- `X1`: the x-coordinate of share A (R5, R171). -/
def x1 : Byte := 0x01

/-- `X2`: the x-coordinate of share B (R5, R171). -/
def x2 : Byte := 0x02

/-- `INV3` = `gf_inv(X1 xor X2)` (R115). -/
def inv3 : Byte := 0xF6

/-- `MN_WORDS`: words of a mnemonic (R5). -/
def mnWords : Byte := 12

/-- `ENT_BYTES`: bytes of entropy (R5). -/
def entBytes : Byte := 16

/-- `SHARE_CAP`: capacity of a share buffer (R5, D14). -/
def shareCap : Nat := 16

/-- The default of the parameter `WORD_BYTES`, the size of a token (R5). The model takes the parameter as an argument
(log 6). -/
def wordBytes : Nat := 8

/-- Base host addresses of the register map (R35). -/
def entBase : Nat := 0x0020
/-- See `entBase`. -/
def saBase : Nat := 0x0030
/-- See `entBase`. -/
def sbBase : Nat := 0x0040
/-- See `entBase`. -/
def secBase : Nat := 0x0050
/-- See `entBase`. -/
def mnBase : Nat := 0x0080
/-- First address of the wordlist region (R60). -/
def wlBase : Nat := 0x4000
/-- One past the last byte of the wordlist region, for tokens of `wordBytes` bytes (R60, P2): 0x8000 for 8. -/
def wlTop (wordBytes : Nat := 8) : Nat := wlBase + 2048 * wordBytes

/-- FREE VALUE (DESIGN CHOICE, log 2): the byte that reset number `reset` leaves in the data byte at
host address `addr`. R39 and U1 call it unspecified: some value of 0 to 255 that no rule constrains,
one for each byte, stable until written. It has no body, so nothing can be proved of it. -/
opaque unspecifiedByte (reset addr : Nat) : Byte

end Sys2Proof.Config
end

