-- ==== Sys2Proof/Syntax.lean ====
section
/-! DEFINITION. The command set: one constructor for each row of spec/opcode_table.json (R92). A command
names no operand: every operand is a fixed register or buffer (R95). -/

namespace Sys2Proof

/-- The twelve commands of the unit (R92). -/
inductive Instr where
  /-- `NOP`, opcode 0x00 (R190). -/
  | nop
  /-- `GF_ADD`, opcode 0x01 (R116). -/
  | gfAdd
  /-- `GF_SUB`, opcode 0x02 (R117). -/
  | gfSub
  /-- `GF_MUL`, opcode 0x03 (R118). -/
  | gfMul
  /-- `GF_INV`, opcode 0x04 (R119). -/
  | gfInv
  /-- `MN_DECODE`, opcode 0x10 (R144). -/
  | mnDecode
  /-- `MN_ENCODE`, opcode 0x11 (R145). -/
  | mnEncode
  /-- `SS_RECON`, opcode 0x20 (R172). -/
  | ssRecon
  /-- `MV_ENT_SA`, opcode 0x30 (R192). -/
  | mvEntSa
  /-- `MV_ENT_SB`, opcode 0x31 (R193). -/
  | mvEntSb
  /-- `MV_SEC_ENT`, opcode 0x32 (R194). -/
  | mvSecEnt
  /-- `SRESET`, opcode 0xFF (R191). -/
  | sreset
deriving DecidableEq, Repr

end Sys2Proof
end

