-- ==== Sys2Proof/WellFormed.lean ====
section
/-! DEFINITION. What is well formed: a command always (it has no operand field, R90, R95); a command byte
when it is one of the twelve (R92, R93); a transaction word when it has 24 bits and, in a read, no data
(R97). -/

namespace Sys2Proof

/-- Format C8 has no field but the opcode (R90), so no command can carry an ill-formed operand. -/
def Instr.wellFormed : Instr → Bool
  | .nop => true
  | .gfAdd => true
  | .gfSub => true
  | .gfMul => true
  | .gfInv => true
  | .mnDecode => true
  | .mnEncode => true
  | .ssRecon => true
  | .mvEntSa => true
  | .mvEntSb => true
  | .mvSecEnt => true
  | .sreset => true

/-- The byte is none of the 244 illegal ones: it lies outside the ranges 0x05–0x0F, 0x12–0x1F,
0x21–0x2F and 0x33–0xFE that R93 lists. -/
def commandByteWellFormed (c : Byte) : Bool :=
  let n := c.toNat
  !((0x05 ≤ n && n ≤ 0x0F) || (0x12 ≤ n && n ≤ 0x1F) || (0x21 ≤ n && n ≤ 0x2F) || (0x33 ≤ n && n ≤ 0xFE))

/-- A transaction word has 24 bits, and its `DATA` is 0x00 when its `W` is 0 (R97). -/
def transactionWellFormed (t : Nat) : Bool :=
  t < 2 ^ 24 && (t.testBit 23 || t % 256 == 0)

end Sys2Proof
end

