-- ==== Sys2Proof/Decode.lean ====
section
/-! DEFINITION. The command byte: decoding (total; an undefined byte is rejected by name), then encoding.
Both follow the opcode map of R92. -/

namespace Sys2Proof

/-- Why the decoder gives no command. -/
inductive DecodeRejection where
  /-- The byte is none of the twelve opcodes (R93); the unit then raises `IllegalCommand(c)`. -/
  | illegalCommand (c : Byte)
deriving DecidableEq, Repr

/-- A row of the opcode map: the byte `c` is the command when `c` under `mask` is `pattern` (R92). -/
structure OpcodeRow where
  pattern : Byte
  mask : Byte
  instr : Instr
deriving DecidableEq, Repr

/-- The opcode map of R92, row by row; the opcode is the whole byte, so every mask is 0xFF. -/
def opcodeMap : List OpcodeRow :=
  [ ⟨0x00, 0xFF, .nop⟩,
    ⟨0x01, 0xFF, .gfAdd⟩,
    ⟨0x02, 0xFF, .gfSub⟩,
    ⟨0x03, 0xFF, .gfMul⟩,
    ⟨0x04, 0xFF, .gfInv⟩,
    ⟨0x10, 0xFF, .mnDecode⟩,
    ⟨0x11, 0xFF, .mnEncode⟩,
    ⟨0x20, 0xFF, .ssRecon⟩,
    ⟨0x30, 0xFF, .mvEntSa⟩,
    ⟨0x31, 0xFF, .mvEntSb⟩,
    ⟨0x32, 0xFF, .mvSecEnt⟩,
    ⟨0xFF, 0xFF, .sreset⟩ ]

/-- The command that a byte written to `CMD` stands for (R91, R92), or the rejection of R93. -/
def decode (c : Byte) : Except DecodeRejection Instr :=
  match opcodeMap.find? (fun row => c &&& row.mask == row.pattern) with
  | some row => .ok row.instr
  | none => .error (.illegalCommand c)

/-- The command byte of a command: the opcode column of R92. -/
def encode : Instr → Byte
  | .nop => 0x00
  | .gfAdd => 0x01
  | .gfSub => 0x02
  | .gfMul => 0x03
  | .gfInv => 0x04
  | .mnDecode => 0x10
  | .mnEncode => 0x11
  | .ssRecon => 0x20
  | .mvEntSa => 0x30
  | .mvEntSb => 0x31
  | .mvSecEnt => 0x32
  | .sreset => 0xFF

/-- The command byte of an instruction whose bits are `w`, with the bits from `nbits` on zero: a command is
one byte (R90), so it is the low byte of what is left. -/
def commandByteOfBits (nbits w : Nat) : Byte := BitVec.ofNat 8 (w % 2 ^ nbits)

/-- What the decoder reads from an instruction whose bits are `w`. -/
def decodeTableWord (nbits w : Nat) : Option Instr :=
  match decode (commandByteOfBits nbits w) with
  | .ok i => some i
  | .error _ => none

end Sys2Proof
end

