-- ==== Sys2Proof/Machine/State.lean ====
section
/-! DEFINITION. The state of one unit (R20), the host's side of the port, the reasons a step could stop,
and the state after reset (R39). -/

namespace Sys2Proof.Machine

/-- Why the machine would stop with a fault: nothing does. An error is a result of a command, recorded in
`ERR`, `EINFO` and `FAULTS` (R231), and "the unit has no undefined behaviour at all" (R266), so this type has
no constructor and no step can answer `.fault` (log 8; safe). -/
inductive Fault
deriving DecidableEq, Repr

/-- Why a command would have no meaning. -/
inductive Refusal where
  /-- A command that the model has no meaning for. Raised by no arm of `exec`: every command of R92 has its
  meaning (safe). -/
  | notModelled (mnemonic : String)
deriving DecidableEq, Repr

/-- What comes to the unit from outside, one at a time and in this order (R72, R260). -/
inductive HostEvent.Of (addrBits : Nat) where
  /-- `HostRead(addr)` (R60). -/
  | read (addr : HostAddr addrBits)
  /-- `HostWrite(addr, v)` (R60); at `CMD` it runs the command `v` (R91). -/
  | write (addr : HostAddr addrBits) (v : Byte)
  /-- The hardware reset, an event outside the host port (R260). -/
  | hardReset
deriving DecidableEq, Repr

/-- The events at the port of the default width (R60). -/
abbrev HostEvent := HostEvent.Of 15

/-- The host's side of the port. It is the model's own, no state of the unit (log 3, log 4): what will come,
oldest first, and what the reads made so far returned, oldest first. -/
structure HostPort.Of (addrBits : Nat) where
  pending : List (HostEvent.Of addrBits)
  reads : List Byte
deriving DecidableEq, Repr

/-- The host's side of the port of the default width (R60). -/
abbrev HostPort := HostPort.Of 15

/-- The stored bytes of the wordlist memory: (host address, byte), addresses strictly rising, none equal to
what an unlisted address reads as. -/
abbrev Memory := List Host.Cell

/-- The whole state: the registers, buffers and wordlist memory of R20, then the model's own fields. `WORD_BYTES` and the
width of the port's addresses, which follows it, are arguments (R5, P2; log 6). -/
structure State.Of (wordBytes addrBits : Nat) where
  /-- `ERR`: the error code of the most recent command, 0 for none (R24). -/
  err : Byte
  /-- `EINFO`: the detail of that error (R25). -/
  einfo : Byte
  /-- `FAULTS`: bit n says that error n was raised since reset (R26). -/
  faults : BitVec 16
  /-- `CTRL.STRICT` (R27). -/
  strict : Bool
  /-- `CTRL.WL_LOCK` (R27). -/
  wlLock : Bool
  /-- `GFA` (R28). -/
  gfa : Byte
  /-- `GFB` (R28). -/
  gfb : Byte
  /-- `GFR` (R28). -/
  gfr : Byte
  /-- `MN_COUNT` (R29). -/
  mnCount : Byte
  /-- `MN[0..11]` (R29). -/
  mn : Vector (Token wordBytes) 12
  /-- `ENT_LEN` (R30). -/
  entLen : Byte
  /-- `ENT[0..15]` (R30). -/
  ent : Block
  /-- `SA_IDX` (R31). -/
  saIdx : Byte
  /-- `SA_LEN` (R31). -/
  saLen : Byte
  /-- `SA[0..15]` (R31). -/
  sa : Block
  /-- `SB_IDX` (R32). -/
  sbIdx : Byte
  /-- `SB_LEN` (R32). -/
  sbLen : Byte
  /-- `SB[0..15]` (R32). -/
  sb : Block
  /-- `SEC_LEN` (R33). -/
  secLen : Byte
  /-- `SEC[0..15]` (R33). -/
  sec : Block
  /-- `WL[0..2047]`, by host address (R34). -/
  wl : Memory
  /-- The model's own (log 2): how many resets there were since the model's start. -/
  resets : Nat
  /-- The model's own (log 3, log 4): the host's side of the port. -/
  host : HostPort.Of addrBits
deriving DecidableEq, Repr

/-- The state of the unit: `WORD_BYTES` = 8 and addresses of 15 bits, the defaults (R5). -/
abbrev State := State.Of 8 15

variable {w p : Nat}

/-- The byte that reset number `reset` leaves in the data byte at host address `addr`, where R39 says
"unspecified": 0 at the model's start (DESIGN CHOICE, log 1), a free value after every later reset (log 2). It is
also what a wordlist address reads as that nothing has been written to since that reset. -/
def unspecified (reset addr : Nat) : Byte :=
  if reset = 0 then 0 else Config.unspecifiedByte reset addr

/-- Sixteen unspecified bytes, of the buffer at host address `base`. -/
def unspecifiedBlock (reset base : Nat) : Block :=
  Vector.ofFn fun i => unspecified reset (base + i.val)

/-- The state that reset number `reset` leaves, the host's side aside: the table of R39, line by line. -/
def State.Of.afterReset (reset : Nat) (host : HostPort.Of p) (w : Nat) : State.Of w p where
  err := 0
  einfo := 0
  faults := 0
  strict := false
  wlLock := false
  mnCount := 0
  entLen := 0
  secLen := 0
  saIdx := 0
  saLen := 0
  sbIdx := 0
  sbLen := 0
  gfa := unspecified reset 0x0008
  gfb := unspecified reset 0x0009
  gfr := unspecified reset 0x000A
  ent := unspecifiedBlock reset Config.entBase
  sa := unspecifiedBlock reset Config.saBase
  sb := unspecifiedBlock reset Config.sbBase
  sec := unspecifiedBlock reset Config.secBase
  mn := Vector.ofFn fun s => Vector.ofFn fun j =>
    unspecified reset (Config.mnBase + w * s.val + j.val)
  wl := []
  resets := reset
  host := host

/-- The state of the unit that reset number `reset` leaves. -/
abbrev State.afterReset (reset : Nat) (host : HostPort) : State := State.Of.afterReset reset host 8

/-- The machine right after reset (R39, R261), with an idle host. -/
def State.reset : State := State.afterReset 0 { pending := [], reads := [] }

end Sys2Proof.Machine
end

