-- ==== Sys2Proof/Machine/Flags.lean ====
section
/-! DEFINITION. The unit's only condition flags: the error codes and the values that `ERR`, `EINFO` and `FAULTS`
take from them (R24 to R26, R230), and the two bits of `CTRL` as a byte (R27). -/

namespace Sys2Proof.Machine

/-- The ten errors of R230. -/
inductive ErrorCode where
  /-- Code 1: `MN_COUNT` is not 12. -/
  | invalidMnemonicLength
  /-- Code 2: a slot of `MN` equals no wordlist entry. -/
  | unknownWord
  /-- Code 3: `ENT_LEN` is not 16. -/
  | invalidEntropyLength
  /-- Code 4: the embedded checksum is not the computed one. -/
  | checksumMismatch
  /-- Code 5: `SA_LEN` is not `SB_LEN`. -/
  | shareLengthMismatch
  /-- Code 6: the indices are not 1 and 2, in this order. -/
  | unsupportedShareIndices
  /-- Code 7: the inverse of zero. -/
  | undefinedInverse
  /-- Code 8: an undefined command byte. -/
  | illegalCommand
  /-- Code 9: a common share length of 0 or above 16. -/
  | invalidShareLength
  /-- Code 10: a codec command while `WL_LOCK` is 0. -/
  | wordlistNotLoaded
deriving DecidableEq, Repr

/-- The number of an error: the code column of R230. -/
def ErrorCode.code : ErrorCode → Nat
  | .invalidMnemonicLength => 1
  | .unknownWord => 2
  | .invalidEntropyLength => 3
  | .checksumMismatch => 4
  | .shareLengthMismatch => 5
  | .unsupportedShareIndices => 6
  | .undefinedInverse => 7
  | .illegalCommand => 8
  | .invalidShareLength => 9
  | .wordlistNotLoaded => 10

/-- What `ERR` holds after the error (R24). -/
def ErrorCode.errByte (e : ErrorCode) : Byte := BitVec.ofNat 8 e.code

/-- The bit of `FAULTS` that the error sets (R26): bit n for code n. -/
def ErrorCode.faultBit (e : ErrorCode) : BitVec 16 := 1#16 <<< e.code

/-- `EINFO` for `UnknownWord`: the slot number (R25). -/
def slotDetail (slot : Fin 12) : Byte := BitVec.ofNat 8 slot.val

/-- `EINFO` for `ChecksumMismatch`: `(embedded << 4) or computed` (R25). -/
def checksumDetail (embedded computed : BitVec 4) : Byte :=
  (embedded.setWidth 8 <<< 4) ||| computed.setWidth 8

/-- `EINFO` for `IllegalCommand`: the command byte (R25). -/
def commandDetail (c : Byte) : Byte := c

/-- `EINFO` for every other error, and on success (R25). -/
def noDetail : Byte := 0

/-- `FAULTS_LO` = `FAULTS[7:0]` (R26). -/
def faultsLow (faults : BitVec 16) : Byte := faults.extractLsb' 0 8

/-- `FAULTS_HI` = `FAULTS[15:8]` (R26). -/
def faultsHigh (faults : BitVec 16) : Byte := faults.extractLsb' 8 8

/-- What a host read of `CTRL` returns: `(WL_LOCK << 1) or STRICT`; bits 7:2 read as 0 (R27). -/
def ctrlByte (strict wlLock : Bool) : Byte :=
  ((BitVec.ofBool wlLock).setWidth 8 <<< 1) ||| (BitVec.ofBool strict).setWidth 8

/-- `STRICT` after a host write of `v` to `CTRL`: bit 0 of `v` (R27). -/
def strictOfWrite (v : Byte) : Bool := v.getLsbD 0

/-- `WL_LOCK` after a host write of `v` to `CTRL`: it is set by bit 1 of `v` and never cleared (R27). -/
def wlLockOfWrite (wlLock : Bool) (v : Byte) : Bool := wlLock || v.getLsbD 1

end Sys2Proof.Machine
end

