-- ==== Sys2Proof/Machine/Ops.lean ====
section
/-! DEFINITION. The named operations over memory and registers that the commands share: the wordlist memory in
its canonical form, one update for each result a command writes, the error delivery (R231), the success delivery
(R232) and reset (R261). There is no return from an error to model: its delivery transfers no control and saves
nothing to restore (R236). -/

namespace Sys2Proof.Machine

variable {w p : Nat}

/-! ### The wordlist memory -/

/-- One byte of the wordlist memory, at a host address (R34): the listed byte, else the unspecified one of the
latest reset. -/
def Memory.read (reset : Nat) : Memory → Nat → Byte
  | [], a => unspecified reset a
  | (b, w) :: rest, a => if a = b then w else Memory.read reset rest a

/-- A memory with the cell for `a` in front of `rest`, or without one where `v` is what `a` reads as unlisted. -/
def Memory.put (reset : Nat) (a : Nat) (v : Byte) (rest : Memory) : Memory :=
  if v = unspecified reset a then rest else (a, v) :: rest

/-- Store the byte `v` at host address `a`, keeping the canonical form. -/
def Memory.write (reset : Nat) : Memory → Nat → Byte → Memory
  | [], a, v => Memory.put reset a v []
  | (b, w) :: rest, a, v =>
    if a < b then Memory.put reset a v ((b, w) :: rest)
    else if a = b then Memory.put reset a v rest
    else (b, w) :: Memory.write reset rest a v

/-- The cells' addresses rise strictly from `low` on and lie below `top`, and no cell holds what its address reads as
unlisted. -/
def Memory.wfFrom (top reset : Nat) : Nat → Memory → Bool
  | _, [] => true
  | low, (a, v) :: rest =>
    decide (low ≤ a) && decide (a < top) && decide (v ≠ unspecified reset a) && Memory.wfFrom top reset (a + 1) rest

/-- The canonical form: strictly rising addresses of the wordlist region (R60), no cell that could be left out. -/
def Memory.wf (reset : Nat) (m : Memory) (wordBytes : Nat := 8) : Bool :=
  Memory.wfFrom (Config.wlTop wordBytes) reset Config.wlBase m

/-! ### What commands write -/

/-- The result of a field command: `GFR` (R71). -/
def State.Of.withGfr (s : State.Of w p) (v : Byte) : State.Of w p := { s with gfr := v }

/-- The result of `MN_ENCODE`: `MN[0..11]` and `MN_COUNT` (R71). -/
def State.Of.withMnemonic (s : State.Of w p) (words : Vector (Token w) 12) (count : Byte) : State.Of w p :=
  { s with mn := words, mnCount := count }

/-- The result of `MN_DECODE` and `MV_SEC_ENT`: `ENT[0..15]` and `ENT_LEN` (R71). -/
def State.Of.withEntropy (s : State.Of w p) (bytes : Block) (len : Byte) : State.Of w p :=
  { s with ent := bytes, entLen := len }

/-- The result of `MV_ENT_SA`: `SA[0..15]` and `SA_LEN` (R71); `SA_IDX` is the host's. -/
def State.Of.withShareA (s : State.Of w p) (bytes : Block) (len : Byte) : State.Of w p :=
  { s with sa := bytes, saLen := len }

/-- The result of `MV_ENT_SB`: `SB[0..15]` and `SB_LEN` (R71); `SB_IDX` is the host's. -/
def State.Of.withShareB (s : State.Of w p) (bytes : Block) (len : Byte) : State.Of w p :=
  { s with sb := bytes, sbLen := len }

/-- The result of `SS_RECON`: `SEC` and `SEC_LEN` (R71). -/
def State.Of.withSecret (s : State.Of w p) (bytes : Block) (len : Byte) : State.Of w p :=
  { s with sec := bytes, secLen := len }

/-! ### How a command ends -/

/-- Success delivery: `ERR <- 0`, `EINFO <- 0`, and `FAULTS` is not changed (R232). -/
def State.Of.succeed (s : State.Of w p) : State.Of w p := { s with err := 0, einfo := noDetail }

/-- Error delivery, the unit's "trap entry": `ERR <- n`, `EINFO <- d`, `FAULTS[n] <- 1`, and every other piece of
state keeps its value (R231, R10). -/
def State.Of.raise (s : State.Of w p) (e : ErrorCode) (detail : Byte) : State.Of w p :=
  { s with err := e.errByte, einfo := detail, faults := s.faults ||| e.faultBit }

/-- Reset of the unit, by `SRESET` or by the hardware reset (R260, R261): every piece of its state takes the value
of R39. The host's side is no state of the unit and stays (log 3). -/
def State.Of.resetUnit (s : State.Of w p) : State.Of w p := State.Of.afterReset (s.resets + 1) s.host w

end Sys2Proof.Machine
end

