-- ==== Sys2Proof/Machine/Operands.lean ====
section
/-! DEFINITION. The operands of the commands. They are fixed registers and buffers, read by name; the one computed
index is that of a wordlist entry (R71, R95). -/

namespace Sys2Proof.Machine

variable {w p : Nat}

/-- The host address of byte `j` of wordlist entry `i`, `WL_BASE + w*i + j` (R34, P2). -/
def wlAddr (i : Fin 2048) (j : Fin w) : Nat := Config.wlBase + w * i.val + j.val

/-- The wordlist entry `WL[i]`, a token (R34). -/
def State.Of.wlToken (s : State.Of w p) (i : Fin 2048) : Token w :=
  Vector.ofFn fun j => Memory.read s.resets s.wl (wlAddr i j)

/-- The sixteen bytes of a buffer, byte 0 first: the string that the hash is called on (R143). -/
def blockBytes (b : Block) : List Byte := b.toList

/-- A buffer as the 128-bit number `E`, byte 0 the most significant (R66), by Horner's rule: the sum of
`b[i] * 2^(8*(15-i))`. -/
def blockNumber (b : Block) : Nat := b.toList.foldl (fun n v => n * 256 + v.toNat) 0

/-- Sixteen bytes out of a 128-bit number: byte `i` is `(E >> (8*(15-i))) and 0xFF` (R142). -/
def blockOfNumber (e : Nat) : Block :=
  Vector.ofFn fun i => BitVec.ofNat 8 (e >>> (8 * (15 - i.val)))

end Sys2Proof.Machine
end

