-- ==== Sys2Proof/Machine/Hash.lean ====
section
/-! DEFINITION. The hash primitive: SHA-256, the instance of the parameter `Hash` that the unit has (R210, R211),
written from R212 to R215. -/

namespace Sys2Proof.Machine

/-- `Ch(x,y,z) = (x and y) xor ((not x) and z)` (R212). -/
def shaCh (x y z : Word32) : Word32 := (x &&& y) ^^^ (~~~x &&& z)

/-- `Maj(x,y,z) = (x and y) xor (x and z) xor (y and z)` (R212). -/
def shaMaj (x y z : Word32) : Word32 := (x &&& y) ^^^ (x &&& z) ^^^ (y &&& z)

/-- `rotr(x, n)` for n below 32 (R212). -/
def rotr (x : Word32) (n : Nat) : Word32 := (x >>> n) ||| (x <<< (32 - n))

/-- `S0(x) = rotr(x,2) xor rotr(x,13) xor rotr(x,22)` (R212). -/
def shaBigS0 (x : Word32) : Word32 := rotr x 2 ^^^ rotr x 13 ^^^ rotr x 22

/-- `S1(x) = rotr(x,6) xor rotr(x,11) xor rotr(x,25)` (R212). -/
def shaBigS1 (x : Word32) : Word32 := rotr x 6 ^^^ rotr x 11 ^^^ rotr x 25

/-- `s0(x) = rotr(x,7) xor rotr(x,18) xor shr(x,3)` (R212). -/
def shaSmallS0 (x : Word32) : Word32 := rotr x 7 ^^^ rotr x 18 ^^^ (x >>> 3)

/-- `s1(x) = rotr(x,17) xor rotr(x,19) xor shr(x,10)` (R212). -/
def shaSmallS1 (x : Word32) : Word32 := rotr x 17 ^^^ rotr x 19 ^^^ (x >>> 10)

/-- The eight working words `(a,b,c,d,e,f,g,h)`, which are also `H[0..7]` (R215). -/
structure ShaWords where
  a : Word32
  b : Word32
  c : Word32
  d : Word32
  e : Word32
  f : Word32
  g : Word32
  h : Word32
deriving DecidableEq, Repr

/-- The initial hash value `H0[0..7]` (R213). -/
def shaInit : ShaWords :=
  ⟨0x6a09e667, 0xbb67ae85, 0x3c6ef372, 0xa54ff53a, 0x510e527f, 0x9b05688c, 0x1f83d9ab, 0x5be0cd19⟩

/-- The round constants `K[0..63]` (R213). -/
def shaK : List Word32 :=
  [ 0x428a2f98, 0x71374491, 0xb5c0fbcf, 0xe9b5dba5 ] ++
  [ 0x3956c25b, 0x59f111f1, 0x923f82a4, 0xab1c5ed5 ] ++
  [ 0xd807aa98, 0x12835b01, 0x243185be, 0x550c7dc3 ] ++
  [ 0x72be5d74, 0x80deb1fe, 0x9bdc06a7, 0xc19bf174 ] ++
  [ 0xe49b69c1, 0xefbe4786, 0x0fc19dc6, 0x240ca1cc ] ++
  [ 0x2de92c6f, 0x4a7484aa, 0x5cb0a9dc, 0x76f988da ] ++
  [ 0x983e5152, 0xa831c66d, 0xb00327c8, 0xbf597fc7 ] ++
  [ 0xc6e00bf3, 0xd5a79147, 0x06ca6351, 0x14292967 ] ++
  [ 0x27b70a85, 0x2e1b2138, 0x4d2c6dfc, 0x53380d13 ] ++
  [ 0x650a7354, 0x766a0abb, 0x81c2c92e, 0x92722c85 ] ++
  [ 0xa2bfe8a1, 0xa81a664b, 0xc24b8b70, 0xc76c51a3 ] ++
  [ 0xd192e819, 0xd6990624, 0xf40e3585, 0x106aa070 ] ++
  [ 0x19a4c116, 0x1e376c08, 0x2748774c, 0x34b0bcb5 ] ++
  [ 0x391c0cb3, 0x4ed8aa4a, 0x5b9cca4f, 0x682e6ff3 ] ++
  [ 0x748f82ee, 0x78a5636f, 0x84c87814, 0x8cc70208 ] ++
  [ 0x90befffa, 0xa4506ceb, 0xbef9a3f7, 0xc67178f2 ]

/-- A 64-bit number as eight bytes, big-endian (R214). -/
def bytesOf64 (n : Nat) : List Byte :=
  (List.range 8).map fun i => BitVec.ofNat 8 (n >>> (8 * (7 - i)))

/-- The padded message: the message, the byte 0x80, the least number of zero bytes that brings the length to 56
modulo 64, and the bit length as a 64-bit big-endian number (R214). -/
def shaPad (m : List Byte) : List Byte :=
  m ++ [0x80] ++ List.replicate ((119 - m.length % 64) % 64) 0x00 ++ bytesOf64 (8 * m.length)

/-- Four bytes as a word, the first the most significant (R212). -/
def wordOfBytes (b0 b1 b2 b3 : Byte) : Word32 := b0 ++ b1 ++ b2 ++ b3

/-- The bytes as big-endian words, four at a time (R215). -/
def wordsOfBytes : List Byte → List Word32
  | b0 :: b1 :: b2 :: b3 :: rest => wordOfBytes b0 b1 b2 b3 :: wordsOfBytes rest
  | _ => []

/-- `W[t] = s1(W[t-2]) + W[t-7] + s0(W[t-15]) + W[t-16]`, from the words before `t`, the latest first (R215). -/
def nextScheduleWord (latest : List Word32) : Word32 :=
  shaSmallS1 (latest.getD 1 0) + latest.getD 6 0 + shaSmallS0 (latest.getD 14 0) + latest.getD 15 0

/-- `n` more words of the schedule, the latest first (R215). -/
def extendSchedule : Nat → List Word32 → List Word32
  | 0, latest => latest
  | n + 1, latest => extendSchedule n (nextScheduleWord latest :: latest)

/-- `W[0..63]` of a block whose sixteen words are given (R215). -/
def schedule (block : List Word32) : List Word32 := (extendSchedule 48 block.reverse).reverse

/-- One round, with `K[t]` and `W[t]` (R215). -/
def shaRound (s : ShaWords) (kw : Word32 × Word32) : ShaWords :=
  let t1 := s.h + shaBigS1 s.e + shaCh s.e s.f s.g + kw.1 + kw.2
  let t2 := shaBigS0 s.a + shaMaj s.a s.b s.c
  ⟨t1 + t2, s.a, s.b, s.c, s.d + t1, s.e, s.f, s.g⟩

/-- `H[j] + (a,b,c,d,e,f,g,h)[j]` for each `j` (R215). -/
def ShaWords.add (x y : ShaWords) : ShaWords :=
  ⟨x.a + y.a, x.b + y.b, x.c + y.c, x.d + y.d, x.e + y.e, x.f + y.f, x.g + y.g, x.h + y.h⟩

/-- The effect of one block of sixteen words on `H` (R215). -/
def shaBlock (h : ShaWords) (block : List Word32) : ShaWords :=
  h.add ((shaK.zip (schedule block)).foldl shaRound h)

/-- The first `n` blocks of a message of words, in order (R215). -/
def shaBlocks : Nat → ShaWords → List Word32 → ShaWords
  | 0, h, _ => h
  | n + 1, h, ws => shaBlocks n (shaBlock h (ws.take 16)) (ws.drop 16)

/-- A word as four bytes, big-endian (R215). -/
def bytesOfWord (w : Word32) : List Byte :=
  [w.extractLsb' 24 8, w.extractLsb' 16 8, w.extractLsb' 8 8, w.extractLsb' 0 8]

/-- The digest `H[0] || ... || H[7]`, 32 bytes (R215). -/
def ShaWords.digest (h : ShaWords) : List Byte :=
  [h.a, h.b, h.c, h.d, h.e, h.f, h.g, h.h].flatMap bytesOfWord

/-- SHA-256 of a byte string (R212 to R215). -/
def sha256 (m : List Byte) : List Byte :=
  let ws := wordsOfBytes (shaPad m)
  (shaBlocks (ws.length / 16) shaInit ws).digest

/-- The parameter `Hash` of the unit: a total function from byte strings to byte strings (R210). Its instance is
SHA-256 (R211; log 5). -/
def unitHash : List Byte → List Byte := sha256

end Sys2Proof.Machine
end

