-- ==== Sys2Proof/Machine/CodecFunctions.lean ====
section
/-! DEFINITION. The functions of the mnemonic codec (R140 to R147): the lookup, the 132-bit string, the checksum. -/

namespace Sys2Proof.Machine

variable {w : Nat}

/-- `wl_index(WL, t)`: the least `i` with `WL[i] = t`, if there is one (R140). -/
def wlIndex (wl : Fin 2048 → Token w) (t : Token w) : Option (Fin 2048) :=
  (List.finRange 2048).find? fun i => decide (wl i = t)

/-- `pack132`: the number of the string `idx[0] || ... || idx[11]`, each index most significant bit first, by Horner's
rule: the sum of `idx[k] * 2^(11*(11-k))` (R141). -/
def pack132 (idx : Vector (Fin 2048) 12) : Nat := idx.toList.foldl (fun n i => n * 2048 + i.val) 0

/-- `split132`, first part: the entropy, the first 128 bits of the string (R142). -/
def entropyOf132 (n : Nat) : Block := blockOfNumber (n >>> 4)

/-- `split132`, second part: the embedded checksum, the trailing 4 bits of the string (R142). -/
def checksumOf132 (n : Nat) : BitVec 4 := BitVec.ofNat 4 n

/-- `cks(e) = Hash(e)[0] >> 4`: the top 4 bits of the first byte of the hash (R143). `Hash` is an argument (R210); a
result without a first byte, which R210 excludes, counts as 0. -/
def cks (hash : List Byte → List Byte) (e : Block) : BitVec 4 :=
  ((hash (blockBytes e)).headD 0).extractLsb' 4 4

/-- `N = (E << 4) or cs`: the 132-bit string of an entropy and a checksum, as a number (R147). -/
def join132 (e : Block) (cs : BitVec 4) : Nat := blockNumber e <<< 4 ||| cs.toNat

/-- `unpack132`: index `k` is `(N >> (11*(11-k))) and 0x7FF` (R147). -/
def unpack132 (e : Block) (cs : BitVec 4) : Vector (Fin 2048) 12 :=
  Vector.ofFn fun k => Fin.ofNat 2048 (join132 e cs >>> (11 * (11 - k.val)))

/-- The least slot whose token is absent from the wordlist (R144 step 2, R25). -/
def firstUnknownSlot (wl : Fin 2048 → Token w) (mn : Vector (Token w) 12) : Option (Fin 12) :=
  (List.finRange 12).find? fun slot => (wlIndex wl mn[slot]).isNone

/-- The twelve indices of a mnemonic without an unknown word (R144 step 2); the 0 for an absent word is never
consulted, since `firstUnknownSlot` is asked first. -/
def slotIndices (wl : Fin 2048 → Token w) (mn : Vector (Token w) 12) : Vector (Fin 2048) 12 :=
  Vector.ofFn fun slot => (wlIndex wl mn[slot]).getD 0

end Sys2Proof.Machine
end

