-- ==== Sys2Proof/Machine/Codec.lean ====
section
/-! DEFINITION. The codec commands: `MN_DECODE` and `MN_ENCODE` (R144, R145), for every hash (R210), every size of a token
(R5), and for the unit's own hash (R211). -/

namespace Sys2Proof.Machine

variable {w p : Nat}

/-- The 132-bit string that the tokens in `MN` stand for (R144 step 3). -/
def State.Of.mnemonicNumber (s : State.Of w p) : Nat := pack132 (slotIndices s.wlToken s.mn)

/-- Steps 3 to 6 of `MN_DECODE`, when every word is known: the strict comparison, then the results (R144, R148). -/
def decodeKnownWords (hash : List Byte → List Byte) (s : State.Of w p) : State.Of w p :=
  let n := s.mnemonicNumber
  let e := entropyOf132 n
  let embedded := checksumOf132 n
  if s.strict ∧ cks hash e ≠ embedded then
    s.raise .checksumMismatch (checksumDetail embedded (cks hash e))
  else (s.withEntropy e Config.entBytes).succeed

/-- `MN_DECODE` with a given hash, its checks in the order of R144. -/
def decodeMnemonic (hash : List Byte → List Byte) (s : State.Of w p) : State.Of w p :=
  if s.wlLock = false then s.raise .wordlistNotLoaded noDetail
  else if s.mnCount ≠ Config.mnWords then s.raise .invalidMnemonicLength noDetail
  else match firstUnknownSlot s.wlToken s.mn with
    | some slot => s.raise .unknownWord (slotDetail slot)
    | none => decodeKnownWords hash s

/-- The tokens of an entropy: entry `WL[idx[k]]` for each index of its 132-bit string (R145 steps 2 to 4). -/
def State.Of.mnemonicOf (s : State.Of w p) (hash : List Byte → List Byte) (e : Block) : Vector (Token w) 12 :=
  Vector.ofFn fun k => s.wlToken (unpack132 e (cks hash e))[k]

/-- `MN_ENCODE` with a given hash, its checks in the order of R145; `STRICT` is not read. -/
def encodeMnemonic (hash : List Byte → List Byte) (s : State.Of w p) : State.Of w p :=
  if s.wlLock = false then s.raise .wordlistNotLoaded noDetail
  else if s.entLen ≠ Config.entBytes then s.raise .invalidEntropyLength noDetail
  else (s.withMnemonic (s.mnemonicOf hash s.ent) Config.mnWords).succeed

/-- `MN_DECODE` (R144). -/
def execMnDecode (s : State.Of w p) : Host.Outcome (State.Of w p) Fault Refusal := .next (decodeMnemonic unitHash s)

/-- `MN_ENCODE` (R145). -/
def execMnEncode (s : State.Of w p) : Host.Outcome (State.Of w p) Fault Refusal := .next (encodeMnemonic unitHash s)

end Sys2Proof.Machine
end

