-- ==== Sys2Proof/Machine/FieldFunctions.lean ====
section
/-! DEFINITION. The functions of the field GF(256) (R110 to R115), the two-point reconstruction (R171, R177) and the
log tables (R121). All are pure: they read their arguments and nothing else (R123). -/

namespace Sys2Proof.Machine

/-- `gf_add(a, b) = a xor b` (R111). -/
def gfAdd (a b : Byte) : Byte := a ^^^ b

/-- `gf_sub(a, b) = a xor b` (R111). -/
def gfSub (a b : Byte) : Byte := a ^^^ b

/-- One place to the left, modulo `POLY`: the bit shifted out is replaced by `POLY` without its bit 8
(R112, the `carry` lines of definition 2). -/
def gfShift (a : Byte) : Byte := if a.getLsbD 7 then (a <<< 1) ^^^ Config.polyLow else a <<< 1

/-- `n` rounds of the loop of R112, definition 2, from the product so far `p`. -/
def gfMulLoop : Nat → Byte → Byte → Byte → Byte
  | 0, p, _, _ => p
  | n + 1, p, a, b => gfMulLoop n (if b.getLsbD 0 then p ^^^ a else p) (gfShift a) (b >>> 1)

/-- `gf_mul(a, b)`: definition 2 of R112, eight rounds of shift and conditional xor. -/
def gfMul (a b : Byte) : Byte := gfMulLoop 8 0 a b

/-- The carry-less product of two bytes: the xor of `a << i` over the bits `i` of `b` that are 1
(R112, definition 1). -/
def carrylessProduct (a b : Byte) : BitVec 15 :=
  (List.range 8).foldl (fun c i => if b.getLsbD i then c ^^^ (a.setWidth 15 <<< i) else c) 0

/-- Reduction modulo `POLY`: for `k` = 14 down to 8, a bit `k` that is 1 takes `POLY << (k - 8)` away
(R112, definition 1). -/
def reducePoly (c : BitVec 15) : Byte :=
  ([14, 13, 12, 11, 10, 9, 8].foldl
    (fun c k => if c.getLsbD k then c ^^^ (BitVec.ofNat 15 Config.poly <<< (k - 8)) else c) c).setWidth 8

/-- `gf_mul` by definition 1 of R112: the product of the polynomials, then the reduction. -/
def gfMulPoly (a b : Byte) : Byte := reducePoly (carrylessProduct a b)

/-- `gf_inv(a)`: for `a` that is not 0, the byte `b` with `gf_mul(a, b) = 0x01`, found by search over the 256
bytes; 0 has no inverse, and the function then answers `none` (R113). -/
def gfInv (a : Byte) : Option Byte :=
  if a = 0 then none
  else ((List.range 256).map (BitVec.ofNat 8)).find? fun b => gfMul a b == 0x01

/-- The inverse table of R114, row after row; its entry for 0x00, which the table leaves out, is never
consulted. -/
def inverseTable : List Byte :=
  [ 0x00, 0x01, 0x8D, 0xF6, 0xCB, 0x52, 0x7B, 0xD1, 0xE8, 0x4F, 0x29, 0xC0, 0xB0, 0xE1, 0xE5, 0xC7 ] ++
  [ 0x74, 0xB4, 0xAA, 0x4B, 0x99, 0x2B, 0x60, 0x5F, 0x58, 0x3F, 0xFD, 0xCC, 0xFF, 0x40, 0xEE, 0xB2 ] ++
  [ 0x3A, 0x6E, 0x5A, 0xF1, 0x55, 0x4D, 0xA8, 0xC9, 0xC1, 0x0A, 0x98, 0x15, 0x30, 0x44, 0xA2, 0xC2 ] ++
  [ 0x2C, 0x45, 0x92, 0x6C, 0xF3, 0x39, 0x66, 0x42, 0xF2, 0x35, 0x20, 0x6F, 0x77, 0xBB, 0x59, 0x19 ] ++
  [ 0x1D, 0xFE, 0x37, 0x67, 0x2D, 0x31, 0xF5, 0x69, 0xA7, 0x64, 0xAB, 0x13, 0x54, 0x25, 0xE9, 0x09 ] ++
  [ 0xED, 0x5C, 0x05, 0xCA, 0x4C, 0x24, 0x87, 0xBF, 0x18, 0x3E, 0x22, 0xF0, 0x51, 0xEC, 0x61, 0x17 ] ++
  [ 0x16, 0x5E, 0xAF, 0xD3, 0x49, 0xA6, 0x36, 0x43, 0xF4, 0x47, 0x91, 0xDF, 0x33, 0x93, 0x21, 0x3B ] ++
  [ 0x79, 0xB7, 0x97, 0x85, 0x10, 0xB5, 0xBA, 0x3C, 0xB6, 0x70, 0xD0, 0x06, 0xA1, 0xFA, 0x81, 0x82 ] ++
  [ 0x83, 0x7E, 0x7F, 0x80, 0x96, 0x73, 0xBE, 0x56, 0x9B, 0x9E, 0x95, 0xD9, 0xF7, 0x02, 0xB9, 0xA4 ] ++
  [ 0xDE, 0x6A, 0x32, 0x6D, 0xD8, 0x8A, 0x84, 0x72, 0x2A, 0x14, 0x9F, 0x88, 0xF9, 0xDC, 0x89, 0x9A ] ++
  [ 0xFB, 0x7C, 0x2E, 0xC3, 0x8F, 0xB8, 0x65, 0x48, 0x26, 0xC8, 0x12, 0x4A, 0xCE, 0xE7, 0xD2, 0x62 ] ++
  [ 0x0C, 0xE0, 0x1F, 0xEF, 0x11, 0x75, 0x78, 0x71, 0xA5, 0x8E, 0x76, 0x3D, 0xBD, 0xBC, 0x86, 0x57 ] ++
  [ 0x0B, 0x28, 0x2F, 0xA3, 0xDA, 0xD4, 0xE4, 0x0F, 0xA9, 0x27, 0x53, 0x04, 0x1B, 0xFC, 0xAC, 0xE6 ] ++
  [ 0x7A, 0x07, 0xAE, 0x63, 0xC5, 0xDB, 0xE2, 0xEA, 0x94, 0x8B, 0xC4, 0xD5, 0x9D, 0xF8, 0x90, 0x6B ] ++
  [ 0xB1, 0x0D, 0xD6, 0xEB, 0xC6, 0x0E, 0xCF, 0xAD, 0x08, 0x4E, 0xD7, 0xE3, 0x5D, 0x50, 0x1E, 0xB3 ] ++
  [ 0x5B, 0x23, 0x38, 0x34, 0x68, 0x46, 0x03, 0x8C, 0xDD, 0x9C, 0x7D, 0xA0, 0xCD, 0x1A, 0x41, 0x1C ]

/-- `gf_inv` by the table of R114. -/
def gfInvByTable (a : Byte) : Option Byte := if a = 0 then none else inverseTable[a.toNat]?

/-- `EXP[i]`: 0x03 to the power `i`, 255 entries (R121). -/
def expTable : List Byte :=
  [ 0x01, 0x03, 0x05, 0x0F, 0x11, 0x33, 0x55, 0xFF, 0x1A, 0x2E, 0x72, 0x96, 0xA1, 0xF8, 0x13, 0x35 ] ++
  [ 0x5F, 0xE1, 0x38, 0x48, 0xD8, 0x73, 0x95, 0xA4, 0xF7, 0x02, 0x06, 0x0A, 0x1E, 0x22, 0x66, 0xAA ] ++
  [ 0xE5, 0x34, 0x5C, 0xE4, 0x37, 0x59, 0xEB, 0x26, 0x6A, 0xBE, 0xD9, 0x70, 0x90, 0xAB, 0xE6, 0x31 ] ++
  [ 0x53, 0xF5, 0x04, 0x0C, 0x14, 0x3C, 0x44, 0xCC, 0x4F, 0xD1, 0x68, 0xB8, 0xD3, 0x6E, 0xB2, 0xCD ] ++
  [ 0x4C, 0xD4, 0x67, 0xA9, 0xE0, 0x3B, 0x4D, 0xD7, 0x62, 0xA6, 0xF1, 0x08, 0x18, 0x28, 0x78, 0x88 ] ++
  [ 0x83, 0x9E, 0xB9, 0xD0, 0x6B, 0xBD, 0xDC, 0x7F, 0x81, 0x98, 0xB3, 0xCE, 0x49, 0xDB, 0x76, 0x9A ] ++
  [ 0xB5, 0xC4, 0x57, 0xF9, 0x10, 0x30, 0x50, 0xF0, 0x0B, 0x1D, 0x27, 0x69, 0xBB, 0xD6, 0x61, 0xA3 ] ++
  [ 0xFE, 0x19, 0x2B, 0x7D, 0x87, 0x92, 0xAD, 0xEC, 0x2F, 0x71, 0x93, 0xAE, 0xE9, 0x20, 0x60, 0xA0 ] ++
  [ 0xFB, 0x16, 0x3A, 0x4E, 0xD2, 0x6D, 0xB7, 0xC2, 0x5D, 0xE7, 0x32, 0x56, 0xFA, 0x15, 0x3F, 0x41 ] ++
  [ 0xC3, 0x5E, 0xE2, 0x3D, 0x47, 0xC9, 0x40, 0xC0, 0x5B, 0xED, 0x2C, 0x74, 0x9C, 0xBF, 0xDA, 0x75 ] ++
  [ 0x9F, 0xBA, 0xD5, 0x64, 0xAC, 0xEF, 0x2A, 0x7E, 0x82, 0x9D, 0xBC, 0xDF, 0x7A, 0x8E, 0x89, 0x80 ] ++
  [ 0x9B, 0xB6, 0xC1, 0x58, 0xE8, 0x23, 0x65, 0xAF, 0xEA, 0x25, 0x6F, 0xB1, 0xC8, 0x43, 0xC5, 0x54 ] ++
  [ 0xFC, 0x1F, 0x21, 0x63, 0xA5, 0xF4, 0x07, 0x09, 0x1B, 0x2D, 0x77, 0x99, 0xB0, 0xCB, 0x46, 0xCA ] ++
  [ 0x45, 0xCF, 0x4A, 0xDE, 0x79, 0x8B, 0x86, 0x91, 0xA8, 0xE3, 0x3E, 0x42, 0xC6, 0x51, 0xF3, 0x0E ] ++
  [ 0x12, 0x36, 0x5A, 0xEE, 0x29, 0x7B, 0x8D, 0x8C, 0x8F, 0x8A, 0x85, 0x94, 0xA7, 0xF2, 0x0D, 0x17 ] ++
  [ 0x39, 0x4B, 0xDD, 0x7C, 0x84, 0x97, 0xA2, 0xFD, 0x1C, 0x24, 0x6C, 0xB4, 0xC7, 0x52, 0xF6 ]

/-- `LOG`: the inverse map of `EXP` (R121); `LOG[0]` is undefined and never consulted. -/
def logTable : List Nat :=
  [ 0x00, 0x00, 0x19, 0x01, 0x32, 0x02, 0x1A, 0xC6, 0x4B, 0xC7, 0x1B, 0x68, 0x33, 0xEE, 0xDF, 0x03 ] ++
  [ 0x64, 0x04, 0xE0, 0x0E, 0x34, 0x8D, 0x81, 0xEF, 0x4C, 0x71, 0x08, 0xC8, 0xF8, 0x69, 0x1C, 0xC1 ] ++
  [ 0x7D, 0xC2, 0x1D, 0xB5, 0xF9, 0xB9, 0x27, 0x6A, 0x4D, 0xE4, 0xA6, 0x72, 0x9A, 0xC9, 0x09, 0x78 ] ++
  [ 0x65, 0x2F, 0x8A, 0x05, 0x21, 0x0F, 0xE1, 0x24, 0x12, 0xF0, 0x82, 0x45, 0x35, 0x93, 0xDA, 0x8E ] ++
  [ 0x96, 0x8F, 0xDB, 0xBD, 0x36, 0xD0, 0xCE, 0x94, 0x13, 0x5C, 0xD2, 0xF1, 0x40, 0x46, 0x83, 0x38 ] ++
  [ 0x66, 0xDD, 0xFD, 0x30, 0xBF, 0x06, 0x8B, 0x62, 0xB3, 0x25, 0xE2, 0x98, 0x22, 0x88, 0x91, 0x10 ] ++
  [ 0x7E, 0x6E, 0x48, 0xC3, 0xA3, 0xB6, 0x1E, 0x42, 0x3A, 0x6B, 0x28, 0x54, 0xFA, 0x85, 0x3D, 0xBA ] ++
  [ 0x2B, 0x79, 0x0A, 0x15, 0x9B, 0x9F, 0x5E, 0xCA, 0x4E, 0xD4, 0xAC, 0xE5, 0xF3, 0x73, 0xA7, 0x57 ] ++
  [ 0xAF, 0x58, 0xA8, 0x50, 0xF4, 0xEA, 0xD6, 0x74, 0x4F, 0xAE, 0xE9, 0xD5, 0xE7, 0xE6, 0xAD, 0xE8 ] ++
  [ 0x2C, 0xD7, 0x75, 0x7A, 0xEB, 0x16, 0x0B, 0xF5, 0x59, 0xCB, 0x5F, 0xB0, 0x9C, 0xA9, 0x51, 0xA0 ] ++
  [ 0x7F, 0x0C, 0xF6, 0x6F, 0x17, 0xC4, 0x49, 0xEC, 0xD8, 0x43, 0x1F, 0x2D, 0xA4, 0x76, 0x7B, 0xB7 ] ++
  [ 0xCC, 0xBB, 0x3E, 0x5A, 0xFB, 0x60, 0xB1, 0x86, 0x3B, 0x52, 0xA1, 0x6C, 0xAA, 0x55, 0x29, 0x9D ] ++
  [ 0x97, 0xB2, 0x87, 0x90, 0x61, 0xBE, 0xDC, 0xFC, 0xBC, 0x95, 0xCF, 0xCD, 0x37, 0x3F, 0x5B, 0xD1 ] ++
  [ 0x53, 0x39, 0x84, 0x3C, 0x41, 0xA2, 0x6D, 0x47, 0x14, 0x2A, 0x9E, 0x5D, 0x56, 0xF2, 0xD3, 0xAB ] ++
  [ 0x44, 0x11, 0x92, 0xD9, 0x23, 0x20, 0x2E, 0x89, 0xB4, 0x7C, 0xB8, 0x26, 0x77, 0x99, 0xE3, 0xA5 ] ++
  [ 0x67, 0x4A, 0xED, 0xDE, 0xC5, 0x31, 0xFE, 0x18, 0x0D, 0x63, 0x8C, 0x80, 0xC0, 0xF7, 0x70, 0x07 ]

/-- `gf_mul` by the log tables (R121): 0 where an operand is 0, else `EXP[(LOG[a] + LOG[b]) mod 255]`. -/
def gfMulByTables (a b : Byte) : Byte :=
  if a = 0 ∨ b = 0 then 0
  else expTable.getD ((logTable.getD a.toNat 0 + logTable.getD b.toNat 0) % 255) 0

/-- `gf_inv` by the log tables (R121): `EXP[(255 - LOG[a]) mod 255]` for `a` that is not 0. -/
def gfInvByTables (a : Byte) : Option Byte :=
  if a = 0 then none else some (expTable.getD ((255 - logTable.getD a.toNat 0) % 255) 0)

/-- The slope of the line through `(1, y1)` and `(2, y2)`; the inverse of `x1 xor x2` = 3 is the constant `INV3`
(R171, R174). -/
def reconSlope (y1 y2 : Byte) : Byte := gfMul (gfAdd y1 y2) Config.inv3

/-- `recon_byte(y1, y2)`: the secret byte from the two share bytes at one position (R171). -/
def reconByte (y1 y2 : Byte) : Byte := gfAdd y1 (gfMul (reconSlope y1 y2) Config.x1)

/-- Lagrange interpolation at zero through `(x1, y1)` and `(x2, y2)`, given the inverse `d` of `x1 xor x2`
(R177, informative). -/
def lagrangeAtZero (x1 x2 d y1 y2 : Byte) : Byte :=
  gfMul y1 (gfMul x2 d) ^^^ gfMul y2 (gfMul x1 d)

/-- The value at x = 1 of the line with secret `a` and blinding coefficient `b` (R176). -/
def shareByteAt1 (a b : Byte) : Byte := gfAdd a b

/-- The value at x = 2 of the line with secret `a` and blinding coefficient `b` (R176). -/
def shareByteAt2 (a b : Byte) : Byte := gfAdd a (gfMul b Config.x2)

end Sys2Proof.Machine
end

