-- ==== Sys2Proof/Machine/Field.lean ====
section
/-! DEFINITION. The field commands: `GF_ADD`, `GF_SUB`, `GF_MUL`, `GF_INV` (R116 to R119). -/

namespace Sys2Proof.Machine

variable {w p : Nat}

/-- A field command that ends well: `GFR` holds the result, `ERR` and `EINFO` are 0 (R232). -/
def fieldResult (s : State.Of w p) (v : Byte) : Host.Outcome (State.Of w p) Fault Refusal := .next (s.withGfr v).succeed

/-- `GF_ADD`: `r[GFR] <- r[GFA] xor r[GFB]` (R116). -/
def execGfAdd (s : State.Of w p) : Host.Outcome (State.Of w p) Fault Refusal := fieldResult s (gfAdd s.gfa s.gfb)

/-- `GF_SUB`: `r[GFR] <- r[GFA] xor r[GFB]` (R117). -/
def execGfSub (s : State.Of w p) : Host.Outcome (State.Of w p) Fault Refusal := fieldResult s (gfSub s.gfa s.gfb)

/-- `GF_MUL`: `r[GFR] <- gf_mul(r[GFA], r[GFB])` (R118). -/
def execGfMul (s : State.Of w p) : Host.Outcome (State.Of w p) Fault Refusal := fieldResult s (gfMul s.gfa s.gfb)

/-- `GF_INV`: `r[GFR] <- gf_inv(r[GFA])`; the inverse of zero raises `UndefinedInverse` and leaves `GFR` (R119). -/
def execGfInv (s : State.Of w p) : Host.Outcome (State.Of w p) Fault Refusal :=
  match gfInv s.gfa with
  | none => .next (s.raise .undefinedInverse noDetail)
  | some v => fieldResult s v

end Sys2Proof.Machine
end

