-- ==== Sys2Proof/Machine/Moves.lean ====
section
/-! DEFINITION. The move commands: all sixteen bytes and the length register, whatever the length holds; a share
index is never written (R192 to R194). -/

namespace Sys2Proof.Machine

variable {w p : Nat}

/-- `MV_ENT_SA`: `SA[0..15] <- ENT[0..15] ; r[SA_LEN] <- r[ENT_LEN]` (R192). -/
def execMvEntSa (s : State.Of w p) : Host.Outcome (State.Of w p) Fault Refusal :=
  .next (s.withShareA s.ent s.entLen).succeed

/-- `MV_ENT_SB`: `SB[0..15] <- ENT[0..15] ; r[SB_LEN] <- r[ENT_LEN]` (R193). -/
def execMvEntSb (s : State.Of w p) : Host.Outcome (State.Of w p) Fault Refusal :=
  .next (s.withShareB s.ent s.entLen).succeed

/-- `MV_SEC_ENT`: `ENT[0..15] <- SEC[0..15] ; r[ENT_LEN] <- r[SEC_LEN]` (R194). -/
def execMvSecEnt (s : State.Of w p) : Host.Outcome (State.Of w p) Fault Refusal :=
  .next (s.withEntropy s.sec s.secLen).succeed

end Sys2Proof.Machine
end

