-- ==== Sys2Proof/Machine/Shares.lean ====
section
/-! DEFINITION. The share reconstructor: `SS_RECON` (R172). -/

namespace Sys2Proof.Machine

variable {w p : Nat}

/-- `SEC` after a reconstruction of length `len`: positions below `len` are reconstructed each on its own, the others
keep their byte (R172 steps 4 and 5). -/
def State.Of.reconstructed (s : State.Of w p) (len : Nat) : Block :=
  Vector.ofFn fun i => if i.val < len then reconByte s.sa[i] s.sb[i] else s.sec[i]

/-- `SS_RECON`: the lengths are compared first, then the indices, then the range of the common length (R172, R233). -/
def execSsRecon (s : State.Of w p) : Host.Outcome (State.Of w p) Fault Refusal :=
  if s.saLen ≠ s.sbLen then .next (s.raise .shareLengthMismatch noDetail)
  else if ¬(s.saIdx = Config.x1 ∧ s.sbIdx = Config.x2) then .next (s.raise .unsupportedShareIndices noDetail)
  else if s.saLen.toNat = 0 ∨ s.saLen.toNat > Config.shareCap then .next (s.raise .invalidShareLength noDetail)
  else .next (s.withSecret (s.reconstructed s.saLen.toNat) s.saLen).succeed

end Sys2Proof.Machine
end

