-- ==== Sys2Proof/Machine/System.lean ====
section
/-! DEFINITION. The system commands: `NOP` and `SRESET` (R190, R191). -/

namespace Sys2Proof.Machine

variable {w p : Nat}

/-- `NOP`: nothing but the success delivery, which replaces the outcome of the command before (R190). -/
def execNop (s : State.Of w p) : Host.Outcome (State.Of w p) Fault Refusal := .next s.succeed

/-- `SRESET`: every piece of state into its reset state, the data bytes unspecified (R191, R260). -/
def execSreset (s : State.Of w p) : Host.Outcome (State.Of w p) Fault Refusal := .next s.resetUnit

end Sys2Proof.Machine
end

