-- ==== Sys2Proof/Machine/Dispatch.lean ====
section
/-! DEFINITION. The meaning of each command (R91, R92), one arm a command. -/

namespace Sys2Proof.Machine

def exec (i : Instr) (s : State) : Host.Outcome State Fault Refusal :=
  match i with
  | .nop => Sys2Proof.Machine.execNop s
  | .gfAdd => Sys2Proof.Machine.execGfAdd s
  | .gfSub => Sys2Proof.Machine.execGfSub s
  | .gfMul => Sys2Proof.Machine.execGfMul s
  | .gfInv => Sys2Proof.Machine.execGfInv s
  | .mnDecode => Sys2Proof.Machine.execMnDecode s
  | .mnEncode => Sys2Proof.Machine.execMnEncode s
  | .ssRecon => Sys2Proof.Machine.execSsRecon s
  | .mvEntSa => Sys2Proof.Machine.execMvEntSa s
  | .mvEntSb => Sys2Proof.Machine.execMvEntSb s
  | .mvSecEnt => Sys2Proof.Machine.execMvSecEnt s
  | .sreset => Sys2Proof.Machine.execSreset s

end Sys2Proof.Machine
end

