-- ==== Sys2Proof/Machine/HostPort.lean ====
section
/-! DEFINITION. The host port: the register map (R35), host reads and host writes (R64), and what one event from the
host's side does. A write to `CMD` is no store: it runs a command, by the meaning of commands that is given as `run`. -/

namespace Sys2Proof.Machine

variable {w p : Nat}

/-- What a host address stands for: the register map of R35. -/
inductive Location.Of (wordBytes : Nat) where
  /-- `CMD`, 0x0000 (R23). -/
  | cmd
  /-- `ERR`, 0x0001 (R24). -/
  | err
  /-- `EINFO`, 0x0002 (R25). -/
  | einfo
  /-- `FAULTS_LO`, 0x0003 (R26). -/
  | faultsLo
  /-- `FAULTS_HI`, 0x0004 (R26). -/
  | faultsHi
  /-- `CTRL`, 0x0005 (R27). -/
  | ctrl
  /-- `GFA`, 0x0008 (R28). -/
  | gfa
  /-- `GFB`, 0x0009 (R28). -/
  | gfb
  /-- `GFR`, 0x000A (R28). -/
  | gfr
  /-- `MN_COUNT`, 0x000C (R29). -/
  | mnCount
  /-- `ENT_LEN`, 0x000D (R30). -/
  | entLen
  /-- `SEC_LEN`, 0x000E (R33). -/
  | secLen
  /-- `SA_IDX`, 0x0010 (R31). -/
  | saIdx
  /-- `SA_LEN`, 0x0011 (R31). -/
  | saLen
  /-- `SB_IDX`, 0x0012 (R32). -/
  | sbIdx
  /-- `SB_LEN`, 0x0013 (R32). -/
  | sbLen
  /-- `ENT[i]` (R30). -/
  | ent (i : Fin 16)
  /-- `SA[i]` (R31). -/
  | sa (i : Fin 16)
  /-- `SB[i]` (R32). -/
  | sb (i : Fin 16)
  /-- `SEC[i]` (R33). -/
  | sec (i : Fin 16)
  /-- `MN[slot][j]` (R29). -/
  | mn (slot : Fin 12) (j : Fin wordBytes)
  /-- A byte of the wordlist region, by its host address (R34). -/
  | wl (addr : Nat)
  /-- A reserved address (R36). -/
  | reserved
deriving DecidableEq, Repr

/-- The locations of the default map (R35). -/
abbrev Location := Location.Of 8

/-- The first 32 addresses of the register map, in order (R35). -/
def registerMap : List (Location.Of w) :=
  [ .cmd, .err, .einfo, .faultsLo, .faultsHi, .ctrl, .reserved, .reserved ] ++
  [ .gfa, .gfb, .gfr, .reserved, .mnCount, .entLen, .secLen, .reserved ] ++
  [ .saIdx, .saLen, .sbIdx, .sbLen, .reserved, .reserved, .reserved, .reserved ] ++
  [ .reserved, .reserved, .reserved, .reserved, .reserved, .reserved, .reserved, .reserved ]

/-- The location at a host address: the register map of R35, by rising addresses, with the places of `MN` and `WL` for
tokens of `w` bytes (P2). No address of the default map lies above the wordlist (R60). -/
def locate (addr : HostAddr p) (w : Nat := 8) [NeZero w] : Location.Of w :=
  let a := addr.toNat
  if a < 0x0020 then registerMap.getD a .reserved
  else if a < 0x0030 then .ent (Fin.ofNat 16 (a - 0x0020))
  else if a < 0x0040 then .sa (Fin.ofNat 16 (a - 0x0030))
  else if a < 0x0050 then .sb (Fin.ofNat 16 (a - 0x0040))
  else if a < 0x0060 then .sec (Fin.ofNat 16 (a - 0x0050))
  else if a < 0x0080 then .reserved
  else if a < Config.mnBase + 12 * w then
    .mn (Fin.ofNat 12 ((a - Config.mnBase) / w)) (Fin.ofNat w ((a - Config.mnBase) % w))
  else if a < Config.wlBase then .reserved
  else if a < Config.wlTop w then .wl a
  else .reserved

/-- The byte at a location: `CMD` and reserved addresses read 0x00 (R23, R36). -/
def State.Of.readLocation (s : State.Of w p) : Location.Of w → Byte
  | .cmd => 0x00
  | .err => s.err
  | .einfo => s.einfo
  | .faultsLo => faultsLow s.faults
  | .faultsHi => faultsHigh s.faults
  | .ctrl => ctrlByte s.strict s.wlLock
  | .gfa => s.gfa
  | .gfb => s.gfb
  | .gfr => s.gfr
  | .mnCount => s.mnCount
  | .entLen => s.entLen
  | .secLen => s.secLen
  | .saIdx => s.saIdx
  | .saLen => s.saLen
  | .sbIdx => s.sbIdx
  | .sbLen => s.sbLen
  | .ent i => s.ent[i]
  | .sa i => s.sa[i]
  | .sb i => s.sb[i]
  | .sec i => s.sec[i]
  | .mn slot j => s.mn[slot][j]
  | .wl addr => Memory.read s.resets s.wl addr
  | .reserved => 0x00

/-- `HostRead(addr)`: the byte that the port returns (R60, R64). This is the model's read of one byte. -/
def State.Of.hostRead [NeZero w] (s : State.Of w p) (addr : HostAddr p) : Byte := s.readLocation (locate addr w)

/-- The effect of a host write on a location other than `CMD`: the table of R64. A read-only register, a reserved
address and a locked wordlist byte change nothing and report nothing (R36, R69). -/
def State.Of.writeLocation (s : State.Of w p) (v : Byte) : Location.Of w → State.Of w p
  | .cmd => s
  | .err => s
  | .einfo => s
  | .faultsLo => s
  | .faultsHi => s
  | .ctrl => { s with strict := strictOfWrite v, wlLock := wlLockOfWrite s.wlLock v }
  | .gfa => { s with gfa := v }
  | .gfb => { s with gfb := v }
  | .gfr => s
  | .mnCount => { s with mnCount := v }
  | .entLen => { s with entLen := v }
  | .secLen => s
  | .saIdx => { s with saIdx := v }
  | .saLen => { s with saLen := v }
  | .sbIdx => { s with sbIdx := v }
  | .sbLen => { s with sbLen := v }
  | .ent i => { s with ent := s.ent.set i v }
  | .sa i => { s with sa := s.sa.set i v }
  | .sb i => { s with sb := s.sb.set i v }
  | .sec _ => s
  | .mn slot j => { s with mn := s.mn.set slot (s.mn[slot].set j v) }
  | .wl addr => if s.wlLock then s else { s with wl := Memory.write s.resets s.wl addr v }
  | .reserved => s

/-- `HostWrite(addr, v)` at an address other than that of `CMD` (R64). -/
def State.Of.hostStore [NeZero w] (s : State.Of w p) (addr : HostAddr p) (v : Byte) : State.Of w p :=
  s.writeLocation v (locate addr w)

/-- The state once its next host event has been taken from the front of the list. -/
def State.Of.takeEvent (s : State.Of w p) (rest : List (HostEvent.Of p)) : State.Of w p :=
  { s with host := { s.host with pending := rest } }

/-- The state once a host read has returned `v`: the unit is as before (R64), the host has one more byte (log 4). -/
def State.Of.deliverRead (s : State.Of w p) (v : Byte) : State.Of w p :=
  { s with host := { s.host with reads := s.host.reads ++ [v] } }

/-- The state in which the host's next event is `e`, before all those it had (log 3). -/
def State.Of.withNextEvent (s : State.Of w p) (e : HostEvent.Of p) : State.Of w p :=
  { s with host := { s.host with pending := e :: s.host.pending } }

/-- `HostWrite(0x0000, c)`, the write that issues the command byte `c` (R91). -/
def issueOf (c : Byte) : HostEvent.Of p := .write 0x0000 c

/-- An undefined command byte raises `IllegalCommand(c)` and changes nothing else (R93). -/
def State.Of.rejectCommand (s : State.Of w p) : DecodeRejection → State.Of w p
  | .illegalCommand c => s.raise .illegalCommand (commandDetail c)

/-- The meaning of a command, of every command: what `exec` is (R91). -/
abbrev Commands (w p : Nat) := Instr → State.Of w p → Host.Outcome (State.Of w p) Fault Refusal

/-- The command byte `c` is decoded and executed, or raises `IllegalCommand` (R91, R93). -/
def runCommand (run : Commands w p) (c : Byte) (s : State.Of w p) : Host.Outcome (State.Of w p) Fault Refusal :=
  match decode c with
  | .ok i => run i s
  | .error r => .next (s.rejectCommand r)

/-- A host write: at `CMD` it runs the command, elsewhere it stores or is ignored (R64). -/
def runWrite [NeZero w] (run : Commands w p) (addr : HostAddr p) (v : Byte) (s : State.Of w p) :
    Host.Outcome (State.Of w p) Fault Refusal :=
  match locate addr w with
  | .cmd => runCommand run v s
  | _ => .next (s.hostStore addr v)

/-- What one event from outside does (R64, R91, R260). -/
def runEvent [NeZero w] (run : Commands w p) (e : HostEvent.Of p) (s : State.Of w p) :
    Host.Outcome (State.Of w p) Fault Refusal :=
  match e with
  | .read addr => .next (s.deliverRead (s.hostRead addr))
  | .write addr v => runWrite run addr v s
  | .hardReset => .next s.resetUnit

/-- The host's next event takes full effect before the one after it (R72); while there is none the unit does nothing at
all (R91). -/
def runNext [NeZero w] (run : Commands w p) (s : State.Of w p) : Host.Outcome (State.Of w p) Fault Refusal :=
  match s.host.pending with
  | [] => .next s
  | e :: rest => runEvent run e (s.takeEvent rest)

end Sys2Proof.Machine
end

