-- ==== Sys2Proof/Machine/Step.lean ====
section
/-! DEFINITION. One step of the machine: the next host event takes full effect (R72). -/

namespace Sys2Proof.Machine

/-- One step of the unit, whose parameters have their defaults (R5). For the unit with other parameters see
Machine/Parameters.lean. -/
def step (s : State) : Host.Outcome State Fault Refusal := runNext exec s

/-- The state whose very next step runs the command of the bits `w`: the unit fetches nothing (R22), so the host's
next access is the write of that byte to `CMD` (log 3). -/
def State.withFetchWord (s : State) (nbits w : Nat) : State :=
  s.withNextEvent (issueOf (commandByteOfBits nbits w))

end Sys2Proof.Machine
end

