-- ==== Sys2Proof/Machine/HostScript.lean ====
section
/-! DEFINITION. How host accesses are written down: transaction words (R97), the host script and its
pseudo-instructions (R98, R99), word tokens (R149) and the recovery flow as a script (R197). A notation of the spec for
listings; no step of the machine uses it. -/

namespace Sys2Proof.Machine

/-- The transaction word `T = (W << 23) or (ADDR << 8) or DATA` of a host access; the hardware reset is none
(R97). -/
def transactionOf : HostEvent → Option (BitVec 24)
  | .write addr v => some (1#1 ++ addr ++ v)
  | .read addr => some (0#1 ++ addr ++ 0#8)
  | .hardReset => none

/-- The host access that a transaction word lists; a read with `DATA` other than 0x00 is none (R97). -/
def eventOfTransaction (t : BitVec 24) : Option HostEvent :=
  let addr : HostAddr := t.extractLsb' 8 15
  let data : Byte := t.extractLsb' 0 8
  if t.getLsbD 23 then some (.write addr data)
  else if data = 0 then some (.read addr)
  else none

/-- The buffers that `LDBUF` may name (R99). -/
inductive ScriptBuffer where
  | ent
  | sa
  | sb
deriving DecidableEq, Repr

/-- The first host address of a buffer (R35). -/
def ScriptBuffer.base : ScriptBuffer → Nat
  | .ent => Config.entBase
  | .sa => Config.saBase
  | .sb => Config.sbBase

/-- A line of a host script (R98) or a pseudo-instruction (R99). -/
inductive ScriptLine where
  /-- `WR addr, byte`. -/
  | wr (addr : HostAddr) (v : Byte)
  /-- `RD addr`. -/
  | rd (addr : HostAddr)
  /-- `CMD mnemonic`. -/
  | cmd (i : Instr)
  /-- `LDBUF BUF, b0 b1 ... b(n-1)`. -/
  | ldbuf (buf : ScriptBuffer) (bytes : List Byte)
  /-- `LDTOK base, t0 ... t7`. -/
  | ldtok (base : HostAddr) (t : Token)
  /-- `LDMN s, token`. -/
  | ldmn (slot : Fin 12) (t : Token)
  /-- `LDWL i, token`. -/
  | ldwl (i : Fin 2048) (t : Token)
  /-- `LDWL_T`. -/
  | ldwlT
  /-- `LDMN_T i0 i1 ... i11`. -/
  | ldmnT (idx : Vector (Fin 2048) 12)
  /-- `LOCKWL`, with the `STRICT` wanted. -/
  | lockwl (strict : Bool)
  /-- `SETSHARES`. -/
  | setshares
deriving DecidableEq, Repr

/-- What a line may say: `LDBUF` has at most 16 bytes (R99), and `LDTOK` stays in the address space. -/
def ScriptLine.wellFormed : ScriptLine → Bool
  | .wr _ _ => true
  | .rd _ => true
  | .cmd i => i.wellFormed
  | .ldbuf _ bytes => decide (bytes.length ≤ 16)
  | .ldtok base _ => decide (base.toNat + 7 < Config.wlTop)
  | .ldmn _ _ => true
  | .ldwl _ _ => true
  | .ldwlT => true
  | .ldmnT _ => true
  | .lockwl _ => true
  | .setshares => true

/-- Writes of consecutive bytes, the first at host address `base` (R99). -/
def writesFrom (base : Nat) (bytes : List Byte) : List HostEvent :=
  bytes.mapIdx fun k v => .write (BitVec.ofNat 15 (base + k)) v

/-- Eight writes of a token (R99, `LDTOK`). -/
def tokenWrites (base : Nat) (t : Token) : List HostEvent := writesFrom base t.toList

/-- An upper-case hexadecimal digit in ASCII. -/
def hexDigit (n : Nat) : Byte := BitVec.ofNat 8 (if n < 10 then 0x30 + n else 0x41 + (n - 10))

/-- The host convention of R149: the word's characters from byte 0, then 0x00 up to `WORD_BYTES`; none for a word of
more characters. -/
def tokenOfWord (chars : List Byte) (w : Nat := 8) : Option (Token w) :=
  if chars.length ≤ w then some (Vector.ofFn fun j => chars.getD j.val 0x00) else none

/-- Entry `i` of the test wordlist: `W`, then the three hexadecimal digits of `i`, then four bytes 0x00
(`95_test_vectors.md` section 1). -/
def tokT (i : Fin 2048) : Token :=
  #v[0x57, hexDigit (i.val / 256), hexDigit (i.val / 16 % 16), hexDigit (i.val % 16), 0x00, 0x00, 0x00, 0x00]

/-- The host accesses that a line stands for (R98, R99). -/
def ScriptLine.expand : ScriptLine → List HostEvent
  | .wr addr v => [.write addr v]
  | .rd addr => [.read addr]
  | .cmd i => [issueOf (encode i)]
  | .ldbuf buf bytes => writesFrom buf.base bytes
  | .ldtok base t => tokenWrites base.toNat t
  | .ldmn slot t => tokenWrites (Config.mnBase + Config.wordBytes * slot.val) t
  | .ldwl i t => tokenWrites (Config.wlBase + Config.wordBytes * i.val) t
  | .ldwlT => (List.finRange 2048).flatMap fun i => tokenWrites (Config.wlBase + Config.wordBytes * i.val) (tokT i)
  | .ldmnT idx => (List.finRange 12).flatMap fun slot =>
      tokenWrites (Config.mnBase + Config.wordBytes * slot.val) (tokT idx[slot])
  | .lockwl strict => [.write 0x0005 (if strict then 0x03 else 0x02)]
  | .setshares => [.write 0x0010 0x01, .write 0x0012 0x02]

/-- The host accesses of a script, line after line (R98). -/
def expandScript (script : List ScriptLine) : List HostEvent := script.flatMap ScriptLine.expand

/-- Steps 1 and 4 of R197: a mnemonic into `MN`, and its count. -/
def loadMnemonic (words : Vector Token 12) : List ScriptLine :=
  ((List.finRange 12).map fun slot => .ldmn slot words[slot]) ++ [.wr 0x000C Config.mnWords]

/-- Step 10 of R197: the reads of `MN[0..11]`, byte after byte. -/
def readMnemonic : List ScriptLine :=
  (List.finRange 12).flatMap fun slot => (List.finRange 8).map fun j : Fin 8 =>
    .rd (BitVec.ofNat 15 (Config.mnBase + Config.wordBytes * slot.val + j.val))

/-- The recovery flow (R197, steps 1 to 10; step 11 is outside the unit), given a loaded and locked wordlist, for the
mnemonics of share A and of share B. The reads of `ERR` are its checks. -/
def recoveryFlow (a b : Vector Token 12) : List ScriptLine :=
  loadMnemonic a ++ [.cmd .mnDecode, .rd 0x0001, .cmd .mvEntSa, .wr 0x0010 0x01] ++
  loadMnemonic b ++ [.cmd .mnDecode, .rd 0x0001, .cmd .mvEntSb, .wr 0x0012 0x02] ++
  [.cmd .ssRecon, .rd 0x0001, .cmd .mvSecEnt, .cmd .mnEncode, .rd 0x0001] ++ readMnemonic

end Sys2Proof.Machine
end

