-- ==== Sys2Proof/Machine/Parameters.lean ====
section
/-! DEFINITION. The unit with any value of its parameters (R5, R210, P1, P2): the hash is an argument, and `WORD_BYTES`,
with the width of the port's addresses, is an argument of State. `exec` and `step` are these with the defaults. -/

namespace Sys2Proof.Machine

variable {w p : Nat}

/-- The meaning of each command in the unit whose `Hash` is `hash` (R210): only the codec commands call it. -/
def execWith (hash : List Byte → List Byte) : Commands w p
  | .nop, s => execNop s
  | .gfAdd, s => execGfAdd s
  | .gfSub, s => execGfSub s
  | .gfMul, s => execGfMul s
  | .gfInv, s => execGfInv s
  | .mnDecode, s => .next (decodeMnemonic hash s)
  | .mnEncode, s => .next (encodeMnemonic hash s)
  | .ssRecon, s => execSsRecon s
  | .mvEntSa, s => execMvEntSa s
  | .mvEntSb, s => execMvEntSb s
  | .mvSecEnt, s => execMvSecEnt s
  | .sreset, s => execSreset s

/-- One step of the unit whose `Hash` is `hash` and whose tokens have `w` bytes. -/
def stepWith [NeZero w] (hash : List Byte → List Byte) (s : State.Of w p) : Host.Outcome (State.Of w p) Fault Refusal :=
  runNext (execWith hash) s

/-- The address width `p` reaches the whole wordlist of tokens of `w` bytes, which follows `MN` (P2). -/
def addressesFit (w p : Nat) : Prop := Config.mnBase + 12 * w ≤ Config.wlBase ∧ Config.wlTop w ≤ 2 ^ p

end Sys2Proof.Machine
end

