-- ==== Sys2Proof/Safety.lean ====
section
/-! DEFINITION. The terms that claims are stated in: what a safe run is, which events reset the unit, which locations a
command writes and which state it reads (R71), and the invariant of the machine. -/

namespace Sys2Proof.Machine

variable {w p : Nat}

/-- No command has failed since reset: the unit's own record of it (R238). -/
def State.Of.noFaultRecorded (s : State.Of w p) : Prop := s.faults = 0

/-- The wordlist's 2048 entries are pairwise different: the premise of the round trip that the host owes
(R146, R150, R263). -/
def State.Of.wordlistUnique (s : State.Of w p) : Prop := ∀ i j : Fin 2048, s.wlToken i = s.wlToken j → i = j

/-- `k` steps lead from `s` to `t`. -/
def runsTo : Nat → State → State → Prop
  | 0, s, t => s = t
  | k + 1, s, t => ∃ u, step s = .next u ∧ runsTo k u t

/-- The events that reset the unit: the hardware reset, and the write of `SRESET` to `CMD` (R260). -/
def HostEvent.Of.isReset : HostEvent.Of p → Bool
  | .read _ => false
  | .write addr v => addr == 0x0000 && v == 0xFF
  | .hardReset => true

/-- The two locations that every command writes (R71, R232). -/
def isOutcome : Location → Bool
  | .err => true
  | .einfo => true
  | _ => false

/-- The two locations of `FAULTS` (R26). -/
def isFaults : Location → Bool
  | .faultsLo => true
  | .faultsHi => true
  | _ => false

/-- The locations a command writes on success, beside `ERR` and `EINFO`: the last column of R71. Those of `SS_RECON`
reach as far as the common length. -/
def writesOnSuccess (s : State) : Instr → Location → Bool
  | .nop, _ => false
  | .gfAdd, loc => loc == .gfr
  | .gfSub, loc => loc == .gfr
  | .gfMul, loc => loc == .gfr
  | .gfInv, loc => loc == .gfr
  | .mnDecode, loc => match loc with
    | .ent _ => true
    | .entLen => true
    | _ => false
  | .mnEncode, loc => match loc with
    | .mn _ _ => true
    | .mnCount => true
    | _ => false
  | .ssRecon, loc => match loc with
    | .sec i => decide (i.val < s.saLen.toNat)
    | .secLen => true
    | _ => false
  | .mvEntSa, loc => match loc with
    | .sa _ => true
    | .saLen => true
    | _ => false
  | .mvEntSb, loc => match loc with
    | .sb _ => true
    | .sbLen => true
    | _ => false
  | .mvSecEnt, loc => match loc with
    | .ent _ => true
    | .entLen => true
    | _ => false
  | .sreset, _ => true

/-- Two states agree on everything that a command reads: the middle column of R71. -/
def agreeOnReads (s u : State) : Instr → Prop
  | .nop => True
  | .gfAdd => s.gfa = u.gfa ∧ s.gfb = u.gfb
  | .gfSub => s.gfa = u.gfa ∧ s.gfb = u.gfb
  | .gfMul => s.gfa = u.gfa ∧ s.gfb = u.gfb
  | .gfInv => s.gfa = u.gfa
  | .mnDecode => s.wlLock = u.wlLock ∧ s.strict = u.strict ∧ s.mnCount = u.mnCount ∧ s.mn = u.mn ∧
      ∀ i, s.wlToken i = u.wlToken i
  | .mnEncode => s.wlLock = u.wlLock ∧ s.entLen = u.entLen ∧ s.ent = u.ent ∧
      ∀ k : Fin 12, s.wlToken (unpack132 s.ent (cks unitHash s.ent))[k] = u.wlToken (unpack132 s.ent (cks unitHash s.ent))[k]
  | .ssRecon => s.saIdx = u.saIdx ∧ s.saLen = u.saLen ∧ s.sbIdx = u.sbIdx ∧ s.sbLen = u.sbLen ∧
      ∀ i : Fin 16, i.val < s.saLen.toNat → s.sa[i] = u.sa[i] ∧ s.sb[i] = u.sb[i]
  | .mvEntSa => s.ent = u.ent ∧ s.entLen = u.entLen
  | .mvEntSb => s.ent = u.ent ∧ s.entLen = u.entLen
  | .mvSecEnt => s.sec = u.sec ∧ s.secLen = u.secLen
  | .sreset => True

/-- `EINFO` fits `ERR`: a slot number, two different nibbles, an illegal command byte, else 0 (R25). -/
def einfoFits (err einfo : Byte) : Prop :=
  if err = 2 then einfo.toNat ≤ 11
  else if err = 4 then einfo.toNat / 16 ≠ einfo.toNat % 16
  else if err = 8 then commandByteWellFormed einfo = false
  else einfo = 0

/-- What every state of the unit satisfies from reset on. -/
structure State.Of.Inv (s : State) : Prop where
  /-- The wordlist memory is in its canonical form. -/
  memory_wf : Memory.wf s.resets s.wl = true
  /-- Bit 0 and bits 11 to 15 of `FAULTS` are always 0 (R26). -/
  faults_reserved : s.faults &&& 0xF801 = 0
  /-- The values 11 to 255 are never written to `ERR` (R24). -/
  err_code : s.err.toNat ≤ 10
  /-- The error that `ERR` tells is recorded in `FAULTS` (R26). -/
  err_recorded : s.err ≠ 0 → s.faults.getLsbD s.err.toNat = true
  /-- `EINFO` is the detail of that error (R25). -/
  einfo_fits : einfoFits s.err s.einfo
  /-- `SEC_LEN` is 0 after reset, and 1 to 16 after a reconstruction (R33). -/
  secLen_fits : s.secLen.toNat ≤ 16

end Sys2Proof.Machine
end

