-- ==== Sys2Proof/Certificates/Slice0/Obligations.lean ====
section
/-! DEFINITION. The statements for the provers, from the numbered rules of spec/: each says what a command, the host
port, a function of the unit or the whole machine does. Nothing is proved here. -/

open Sys2Proof Sys2Proof.Machine

/-! ### Terms of the statements -/

/-- The byte is one of the 244 illegal ones, by the ranges that R93 lists. -/
def Sys2Proof.Claims.illegalByte (c : Byte) : Prop :=
  (0x05 ≤ c.toNat ∧ c.toNat ≤ 0x0F) ∨ (0x12 ≤ c.toNat ∧ c.toNat ≤ 0x1F) ∨ (0x21 ≤ c.toNat ∧ c.toNat ≤ 0x2F) ∨
    (0x33 ≤ c.toNat ∧ c.toNat ≤ 0xFE)

/-- A field element as a polynomial over GF(2): the sum of `x^k` over its bits `k` that are 1 (R110). -/
noncomputable def Sys2Proof.Claims.bytePoly (a : Byte) : Polynomial (ZMod 2) :=
  ∑ k ∈ Finset.range 8, if a.getLsbD k then Polynomial.X ^ k else 0

/-- `POLY` = x⁸+x⁴+x³+x+1 (R110). -/
noncomputable def Sys2Proof.Claims.fieldPoly : Polynomial (ZMod 2) :=
  Polynomial.X ^ 8 + Polynomial.X ^ 4 + Polynomial.X ^ 3 + Polynomial.X + 1

/-- `i` is the least index of the token `t` (R140). -/
def Sys2Proof.Claims.leastIndex (wl : Fin 2048 → Token) (t : Token) (i : Fin 2048) : Prop :=
  wl i = t ∧ ∀ j, j < i → wl j ≠ t

/-- The host may store a byte at this address: the RW rows of R35, the wordlist while it is unlocked. -/
def Sys2Proof.Claims.writable (s : State) (a : Nat) : Prop :=
  a = 0x08 ∨ a = 0x09 ∨ a = 0x0C ∨ a = 0x0D ∨ (0x10 ≤ a ∧ a ≤ 0x13) ∨ (0x20 ≤ a ∧ a ≤ 0x4F) ∨ (0x80 ≤ a ∧ a ≤ 0xDF) ∨
    (0x4000 ≤ a ∧ s.wlLock = false)

/-- A reserved address (R35, `93_implementation_defined.md` section 3). -/
def Sys2Proof.Claims.reservedAddress (a : Nat) : Prop :=
  (0x06 ≤ a ∧ a ≤ 0x07) ∨ a = 0x0B ∨ a = 0x0F ∨ (0x14 ≤ a ∧ a ≤ 0x1F) ∨ (0x60 ≤ a ∧ a ≤ 0x7F) ∨ (0xE0 ≤ a ∧ a ≤ 0x3FFF)

/-- A read-only register or buffer byte: the RO rows of R35. -/
def Sys2Proof.Claims.readOnlyAddress (a : Nat) : Prop :=
  (0x01 ≤ a ∧ a ≤ 0x04) ∨ a = 0x0A ∨ a = 0x0E ∨ (0x50 ≤ a ∧ a ≤ 0x5F)

/-- The registers that R39 gives a value are at it. -/
def Sys2Proof.Claims.registersReset (s : State) : Prop :=
  s.err = 0 ∧ s.einfo = 0 ∧ s.faults = 0 ∧ s.strict = false ∧ s.wlLock = false ∧ s.mnCount = 0 ∧ s.entLen = 0 ∧
    s.secLen = 0 ∧ s.saIdx = 0 ∧ s.saLen = 0 ∧ s.sbIdx = 0 ∧ s.sbLen = 0

/-- `Hash(e)[0] >> 4`, the checksum of R143 as a number, for the unit's hash. -/
def Sys2Proof.Claims.checksumOf (e : Block) : Nat := ((sha256 e.toList).headD 0).toNat >>> 4

/-- The values of `a` to `h` after the round that reads the words `k` and `w` (R212, R215). -/
def Sys2Proof.Claims.roundOf (x : ShaWords) (k w : Word32) : ShaWords :=
  let t1 := x.h + (x.e.rotateRight 6 ^^^ x.e.rotateRight 11 ^^^ x.e.rotateRight 25) +
    ((x.e &&& x.f) ^^^ (~~~x.e &&& x.g)) + k + w
  let t2 := (x.a.rotateRight 2 ^^^ x.a.rotateRight 13 ^^^ x.a.rotateRight 22) +
    ((x.a &&& x.b) ^^^ (x.a &&& x.c) ^^^ (x.b &&& x.c))
  { a := t1 + t2, b := x.a, c := x.b, d := x.c, e := x.d + t1, f := x.e, g := x.f, h := x.g }

open Sys2Proof.Claims

/-! ### Encoding -/

/-- R92: the twelve defined opcodes, each the whole byte; no other byte is a command. -/
def Obligations.OpcodeMapIsTheTable : Prop :=
  ∀ (c : Byte) (i : Instr), decode c = .ok i ↔
    (c, i) ∈ [((0x00 : Byte), Instr.nop), (0x01, .gfAdd), (0x02, .gfSub), (0x03, .gfMul), (0x04, .gfInv),
      (0x10, .mnDecode), (0x11, .mnEncode), (0x20, .ssRecon), (0x30, .mvEntSa), (0x31, .mvEntSb), (0x32, .mvSecEnt),
      (0xFF, .sreset)]

/-- R90, R92: the byte of every well-formed command decodes to it. -/
def Obligations.EncodedCommandDecodesBack : Prop :=
  ∀ i : Instr, i.wellFormed = true → decode (encode i) = .ok i ∧ decodeTableWord 8 (encode i).toNat = some i

/-- R91: when the host's next access writes a defined command byte to `CMD`, the step is the command's execution, in the
state from which that access has been taken; and `withFetchWord` makes it so. The list of events and `withFetchWord` are
the model's own (log 3). -/
def Obligations.StepRunsTheDecodedCommand : Prop :=
  (∀ (s : State) (c : Byte) (rest : List HostEvent) (i : Instr),
    s.host.pending = .write 0x0000 c :: rest → decode c = .ok i → i.wellFormed = true →
      step s = exec i { s with host := { s.host with pending := rest } }) ∧
  ∀ (s : State) (i : Instr), step (s.withFetchWord 8 (encode i).toNat) = exec i s

/-- R93: each of the 244 illegal bytes written to `CMD` raises `IllegalCommand` with the byte in `EINFO` and changes
nothing else; and the illegal bytes are exactly those that no command has. -/
def Obligations.IllegalCommandByteRaises : Prop :=
  (∀ (s : State) (c : Byte) (rest : List HostEvent), s.host.pending = .write 0x0000 c :: rest → illegalByte c →
    step s = .next { s with err := 8, einfo := c, faults := s.faults ||| 0x0100, host := { s.host with pending := rest } }) ∧
  ∀ c : Byte, illegalByte c ↔ ∀ i : Instr, encode i ≠ c

/-- R97: a transaction word is `(W << 23) or (ADDR << 8) or DATA`, and listing an access as a word and reading the word
back gives the access. -/
def Obligations.TransactionWordsListAccesses : Prop :=
  (∀ (a : HostAddr) (v : Byte),
    (transactionOf (.write a v)).map BitVec.toNat = some ((1 <<< 23) ||| (a.toNat <<< 8) ||| v.toNat)) ∧
  (∀ a : HostAddr, (transactionOf (.read a)).map BitVec.toNat = some (a.toNat <<< 8)) ∧
  (∀ (e : HostEvent) (t : BitVec 24), transactionOf e = some t ↔ eventOfTransaction t = some e) ∧
  ∀ t : BitVec 24, (eventOfTransaction t).isSome = transactionWellFormed t.toNat

/-! ### The field -/

/-- R110, R112: `gf_mul(a, b)` is the product of the polynomials `a` and `b` reduced modulo `POLY`. -/
def Obligations.GfMulIsThePolynomialProduct : Prop :=
  ∀ a b : Byte, bytePoly (gfMul a b) = (bytePoly a * bytePoly b) %ₘ fieldPoly

/-- R112: the two definitions of `gf_mul` are equal. -/
def Obligations.GfMulDefinitionsAgree : Prop := ∀ a b : Byte, gfMulPoly a b = gfMul a b

/-- R120: the laws of the field. -/
def Obligations.FieldLawsHold : Prop :=
  (∀ a b : Byte, gfAdd a b = gfAdd b a) ∧
  (∀ a b : Byte, gfMul a b = gfMul b a) ∧
  (∀ a b c : Byte, gfMul a (gfMul b c) = gfMul (gfMul a b) c) ∧
  (∀ a b c : Byte, gfMul a (gfAdd b c) = gfAdd (gfMul a b) (gfMul a c)) ∧
  (∀ a : Byte, a ≠ 0 → ∃ b, gfInv a = some b ∧ gfMul a b = 1) ∧
  (∀ a : Byte, gfMul a 0 = 0 ∧ gfMul 0 a = 0 ∧ gfMul a 1 = a ∧ gfMul 1 a = a) ∧
  ∀ a b : Byte, gfMul a b = 0 → a = 0 ∨ b = 0

/-- R113: every byte but 0 has exactly one inverse, which is not 0 and whose inverse is the byte; 0 has none, and
`GF_INV` raises `UndefinedInverse` for it. -/
def Obligations.InverseIsUnique : Prop :=
  (∀ a : Byte, a ≠ 0 → ∃ b, gfInv a = some b ∧ gfMul a b = 0x01 ∧ b ≠ 0 ∧ (∀ c, gfMul a c = 0x01 → c = b) ∧
    gfInv b = some a) ∧
  gfInv 0x01 = some 0x01 ∧ gfInv 0 = none ∧ (∀ b : Byte, gfMul 0 b ≠ 0x01) ∧
  ∀ s : State, s.gfa = 0 → exec .gfInv s = .next (s.raise .undefinedInverse 0x00)

/-- R114: the inverse table's entries are the inverses. -/
def Obligations.InverseTableIsRight : Prop :=
  (∀ a : Byte, gfInvByTable a = gfInv a) ∧ gfInvByTable 0x53 = some 0xCA

/-- R115: `INV3 = gf_inv(0x03) = 0xF6`. -/
def Obligations.InverseOfThree : Prop :=
  gfAdd Config.x1 Config.x2 = 0x03 ∧ gfInv 0x03 = some 0xF6 ∧ Config.inv3 = 0xF6 ∧ gfMul 0x02 0xF6 = 0xF7 ∧
    gfMul 0x03 0xF6 = 0x01 ∧ gfInv 0x02 = some 0x8D

/-- R121: the log tables compute the same products and inverses. -/
def Obligations.LogTablesAgree : Prop :=
  (∀ a b : Byte, gfMulByTables a b = gfMul a b) ∧ ∀ a : Byte, gfInvByTables a = gfInv a

/-- R116: `GF_ADD`. -/
def Obligations.GfAddWritesTheXor : Prop :=
  decode 0x01 = .ok .gfAdd ∧
  ∀ s : State, exec .gfAdd s = .next { s with gfr := s.gfa ^^^ s.gfb, err := 0, einfo := 0 }

/-- R117: `GF_SUB`, which computes exactly what `GF_ADD` computes. -/
def Obligations.GfSubWritesTheXor : Prop :=
  decode 0x02 = .ok .gfSub ∧
  ∀ s : State, exec .gfSub s = .next { s with gfr := s.gfa ^^^ s.gfb, err := 0, einfo := 0 } ∧
    exec .gfSub s = exec .gfAdd s

/-- R118: `GF_MUL`, with the corner cases of the rule. -/
def Obligations.GfMulWritesTheProduct : Prop :=
  decode 0x03 = .ok .gfMul ∧
  (∀ s : State, exec .gfMul s = .next { s with gfr := gfMul s.gfa s.gfb, err := 0, einfo := 0 }) ∧
  (∀ a : Byte, gfMul a 0 = 0 ∧ gfMul 0 a = 0 ∧ gfMul a 1 = a ∧ gfMul 1 a = a) ∧
  gfMul 0x02 0x80 = 0x1B ∧ gfMul 0x80 0x80 = 0x9A ∧ gfMul 0xFF 0xFF = 0x13 ∧ gfMul 0x53 0xCA = 0x01 ∧
  gfMul 0x03 0xF6 = 0x01 ∧ gfMul 0x02 0x8D = 0x01 ∧ gfMul 0x57 0x83 = 0xC1

/-- R119: `GF_INV`: the error exactly for 0, else the inverse. -/
def Obligations.GfInvWritesTheInverse : Prop :=
  decode 0x04 = .ok .gfInv ∧
  ∀ s : State,
    (s.gfa = 0 → exec .gfInv s = .next { s with err := 7, einfo := 0, faults := s.faults ||| 0x0080 }) ∧
    (s.gfa ≠ 0 → ∃ v, gfMul s.gfa v = 0x01 ∧ gfInv s.gfa = some v ∧
      exec .gfInv s = .next { s with gfr := v, err := 0, einfo := 0 })

/-! ### The codec -/

/-- R140: the lookup is the least index of the token, and none where the token is absent. -/
def Obligations.LookupIsTheLeastIndex : Prop :=
  ∀ (wl : Fin 2048 → Token) (t : Token),
    (∀ i, wlIndex wl t = some i ↔ leastIndex wl t i) ∧ (wlIndex wl t = none ↔ ∀ i, wl i ≠ t)

/-- R141: the number of the 132-bit string, and its bits: bit number `11*k + j`, bit 0 first, is bit `10 - j` of
`idx[k]`. -/
def Obligations.PackedStringHasTheIndexBits : Prop :=
  ∀ idx : Vector (Fin 2048) 12,
    pack132 idx = ∑ k : Fin 12, idx[k].val * 2 ^ (11 * (11 - k.val)) ∧ pack132 idx < 2 ^ 132 ∧
    ∀ (k : Fin 12) (j : Fin 11),
      (pack132 idx).testBit (131 - (11 * k.val + j.val)) = idx[k].val.testBit (10 - j.val)

/-- R142: the entropy and the embedded checksum of a string, by the definitions and by the table per byte. -/
def Obligations.SplitByteByByte : Prop :=
  ∀ idx : Vector (Fin 2048) 12,
    let n := pack132 idx
    let e := entropyOf132 n
    let v : Fin 12 → Nat := fun k => idx[k].val
    (∀ i : Fin 16, e[i].toNat = ((n >>> 4) >>> (8 * (15 - i.val))) &&& 0xFF) ∧
    e[0].toNat = v 0 >>> 3 ∧
    e[1].toNat = ((v 0 &&& 0x7) <<< 5) ||| (v 1 >>> 6) ∧
    e[2].toNat = ((v 1 &&& 0x3F) <<< 2) ||| (v 2 >>> 9) ∧
    e[3].toNat = (v 2 >>> 1) &&& 0xFF ∧
    e[4].toNat = ((v 2 &&& 0x1) <<< 7) ||| (v 3 >>> 4) ∧
    e[5].toNat = ((v 3 &&& 0xF) <<< 4) ||| (v 4 >>> 7) ∧
    e[6].toNat = ((v 4 &&& 0x7F) <<< 1) ||| (v 5 >>> 10) ∧
    e[7].toNat = (v 5 >>> 2) &&& 0xFF ∧
    e[8].toNat = ((v 5 &&& 0x3) <<< 6) ||| (v 6 >>> 5) ∧
    e[9].toNat = ((v 6 &&& 0x1F) <<< 3) ||| (v 7 >>> 8) ∧
    e[10].toNat = v 7 &&& 0xFF ∧
    e[11].toNat = v 8 >>> 3 ∧
    e[12].toNat = ((v 8 &&& 0x7) <<< 5) ||| (v 9 >>> 6) ∧
    e[13].toNat = ((v 9 &&& 0x3F) <<< 2) ||| (v 10 >>> 9) ∧
    e[14].toNat = (v 10 >>> 1) &&& 0xFF ∧
    e[15].toNat = ((v 10 &&& 0x1) <<< 7) ||| (v 11 >>> 4) ∧
    (checksumOf132 n).toNat = n &&& 0xF ∧
    (checksumOf132 n).toNat = v 11 &&& 0xF

/-- R147: the indices of an entropy and a checksum, by the definition and by the table per index; only the last word
depends on the checksum. -/
def Obligations.UnpackIndexByIndex : Prop :=
  ∀ (e : Block) (cs : BitVec 4),
    let idx : Fin 12 → Nat := fun k => (unpack132 e cs)[k].val
    let b : Fin 16 → Nat := fun i => e[i].toNat
    let n := ((∑ i : Fin 16, b i * 2 ^ (8 * (15 - i.val))) <<< 4) ||| cs.toNat
    (∀ k : Fin 12, idx k = (n >>> (11 * (11 - k.val))) &&& 0x7FF) ∧
    idx 0 = (b 0 <<< 3) ||| (b 1 >>> 5) ∧
    idx 1 = ((b 1 &&& 0x1F) <<< 6) ||| (b 2 >>> 2) ∧
    idx 2 = ((b 2 &&& 0x3) <<< 9) ||| (b 3 <<< 1) ||| (b 4 >>> 7) ∧
    idx 3 = ((b 4 &&& 0x7F) <<< 4) ||| (b 5 >>> 4) ∧
    idx 4 = ((b 5 &&& 0xF) <<< 7) ||| (b 6 >>> 1) ∧
    idx 5 = ((b 6 &&& 0x1) <<< 10) ||| (b 7 <<< 2) ||| (b 8 >>> 6) ∧
    idx 6 = ((b 8 &&& 0x3F) <<< 5) ||| (b 9 >>> 3) ∧
    idx 7 = ((b 9 &&& 0x7) <<< 8) ||| b 10 ∧
    idx 8 = (b 11 <<< 3) ||| (b 12 >>> 5) ∧
    idx 9 = ((b 12 &&& 0x1F) <<< 6) ||| (b 13 >>> 2) ∧
    idx 10 = ((b 13 &&& 0x3) <<< 9) ||| (b 14 <<< 1) ||| (b 15 >>> 7) ∧
    idx 11 = ((b 15 &&& 0x7F) <<< 4) ||| cs.toNat

/-- R141, R142, R147: packing and unpacking are inverse to each other, both ways. -/
def Obligations.PackAndUnpackAreInverse : Prop :=
  (∀ (e : Block) (cs : BitVec 4), pack132 (unpack132 e cs) = join132 e cs ∧
    entropyOf132 (pack132 (unpack132 e cs)) = e ∧ checksumOf132 (pack132 (unpack132 e cs)) = cs) ∧
  ∀ idx : Vector (Fin 2048) 12, unpack132 (entropyOf132 (pack132 idx)) (checksumOf132 (pack132 idx)) = idx

/-- R66: the entropy is the big-endian number of its bytes, and its bit number `k`, bit 0 first, is bit
`7 - (k mod 8)` of byte `k div 8`. -/
def Obligations.EntropyBitsAreMostSignificantFirst : Prop :=
  ∀ e : Block,
    blockNumber e = ∑ i : Fin 16, e[i].toNat * 2 ^ (8 * (15 - i.val)) ∧
    (∀ (i : Fin 16) (j : Fin 8),
      (blockNumber e).testBit (127 - (8 * i.val + j.val)) = e[i].getLsbD (7 - j.val)) ∧
    blockOfNumber (blockNumber e) = e

/-- R214: the padding of a message, and the sixteen words of the one block that a 16-byte message makes. -/
def Obligations.HashPaddingFillsBlocks : Prop :=
  (∀ m : List Byte, (shaPad m).length % 64 = 0 ∧
    ∃ z, z < 64 ∧ (m.length + 1 + z) % 64 = 56 ∧
      shaPad m = m ++ [0x80] ++ List.replicate z 0x00 ++ bytesOf64 (8 * m.length)) ∧
  ∀ e : Block,
    wordsOfBytes (shaPad (blockBytes e)) =
      [wordOfBytes e[0] e[1] e[2] e[3], wordOfBytes e[4] e[5] e[6] e[7], wordOfBytes e[8] e[9] e[10] e[11],
        wordOfBytes e[12] e[13] e[14] e[15], 0x80000000, 0, 0, 0, 0, 0, 0, 0, 0, 0, 0, 0x00000080]

/-- R212, R215: the 64 words of the schedule, the block's sixteen and then the recurrence; the 64 rounds and the addition
into `H`; the digest, each word big-endian; and the hash of the sixteen bytes of an entropy, whose one block is that of
R214, with the checksum in its top four bits. -/
def Obligations.HashFollowsItsScheduleAndRounds : Prop :=
  (∀ block : List Word32, block.length = 16 →
    (schedule block).length = 64 ∧
    (∀ t, t < 16 → (schedule block)[t]? = block[t]?) ∧
    (∀ t, 16 ≤ t → t < 64 → (schedule block)[t]? = some (
      shaSmallS1 ((schedule block).getD (t - 2) 0) + (schedule block).getD (t - 7) 0 +
        shaSmallS0 ((schedule block).getD (t - 15) 0) + (schedule block).getD (t - 16) 0)) ∧
    ∀ h : ShaWords, ∃ x : Nat → ShaWords, x 0 = h ∧
      (∀ t, t < 64 → x (t + 1) = roundOf (x t) (shaK.getD t 0) ((schedule block).getD t 0)) ∧
      shaBlock h block =
        { a := h.a + (x 64).a, b := h.b + (x 64).b, c := h.c + (x 64).c, d := h.d + (x 64).d,
          e := h.e + (x 64).e, f := h.f + (x 64).f, g := h.g + (x 64).g, h := h.h + (x 64).h }) ∧
  (∀ x : Word32, shaSmallS0 x = x.rotateRight 7 ^^^ x.rotateRight 18 ^^^ (x >>> 3) ∧
    shaSmallS1 x = x.rotateRight 17 ^^^ x.rotateRight 19 ^^^ (x >>> 10)) ∧
  (∀ h : ShaWords, h.digest.length = 32 ∧ ∀ (j : Fin 8) (k : Fin 4),
    h.digest[4 * j.val + k.val]? =
      some (BitVec.ofNat 8 ([h.a, h.b, h.c, h.d, h.e, h.f, h.g, h.h][j].toNat >>> (8 * (3 - k.val))))) ∧
  ∀ e : Block,
    let words := [wordOfBytes e[0] e[1] e[2] e[3], wordOfBytes e[4] e[5] e[6] e[7], wordOfBytes e[8] e[9] e[10] e[11],
      wordOfBytes e[12] e[13] e[14] e[15], 0x80000000, 0, 0, 0, 0, 0, 0, 0, 0, 0, 0, 0x00000080]
    sha256 e.toList = (shaBlock shaInit words).digest ∧
      (cks unitHash e).toNat = (shaBlock shaInit words).a.toNat >>> 28

/-- R144: `MN_DECODE`, its checks in their order, then its results; every other piece of state keeps its value. -/
def Obligations.MnDecodeFollowsItsSteps : Prop :=
  decode 0x10 = .ok .mnDecode ∧
  ∀ s : State,
    (s.wlLock = false →
      exec .mnDecode s = .next { s with err := 10, einfo := 0, faults := s.faults ||| 0x0400 }) ∧
    (s.wlLock = true → s.mnCount ≠ 12 →
      exec .mnDecode s = .next { s with err := 1, einfo := 0, faults := s.faults ||| 0x0002 }) ∧
    (s.wlLock = true → s.mnCount = 12 → ∀ slot : Fin 12, (∀ i, s.wlToken i ≠ s.mn[slot]) →
      (∀ k : Fin 12, k < slot → ∃ i, s.wlToken i = s.mn[k]) →
        exec .mnDecode s =
          .next { s with err := 2, einfo := BitVec.ofNat 8 slot.val, faults := s.faults ||| 0x0004 }) ∧
    (s.wlLock = true → s.mnCount = 12 → ∀ idx : Fin 12 → Fin 2048,
      (∀ k : Fin 12, leastIndex s.wlToken s.mn[k] (idx k)) →
        let n := ∑ k : Fin 12, (idx k).val * 2 ^ (11 * (11 - k.val))
        let e : Block := Vector.ofFn fun i => BitVec.ofNat 8 ((n >>> 4) >>> (8 * (15 - i.val)))
        let cs := n % 16
        let c2 := checksumOf e
        (s.strict = true → c2 ≠ cs →
          exec .mnDecode s =
            .next { s with err := 4, einfo := BitVec.ofNat 8 (16 * cs + c2), faults := s.faults ||| 0x0010 }) ∧
        ((s.strict = false ∨ c2 = cs) →
          exec .mnDecode s = .next { s with ent := e, entLen := 16, err := 0, einfo := 0 }))

/-- R145: `MN_ENCODE`, its checks in their order, then its results; every other piece of state keeps its value. R143: the
checksum is the top four bits of the first byte of the hash, whatever the hash. -/
def Obligations.MnEncodeFollowsItsSteps : Prop :=
  decode 0x11 = .ok .mnEncode ∧
  (∀ (hash : List Byte → List Byte) (e : Block) (b : Byte) (bs : List Byte), hash e.toList = b :: bs →
    (cks hash e).toNat = b.toNat >>> 4) ∧
  ∀ s : State,
    (s.wlLock = false →
      exec .mnEncode s = .next { s with err := 10, einfo := 0, faults := s.faults ||| 0x0400 }) ∧
    (s.wlLock = true → s.entLen ≠ 16 →
      exec .mnEncode s = .next { s with err := 3, einfo := 0, faults := s.faults ||| 0x0008 }) ∧
    (s.wlLock = true → s.entLen = 16 →
      let n := ((∑ i : Fin 16, s.ent[i].toNat * 2 ^ (8 * (15 - i.val))) <<< 4) ||| checksumOf s.ent
      exec .mnEncode s = .next { s with
        mn := Vector.ofFn fun k : Fin 12 => s.wlToken (Fin.ofNat 2048 ((n >>> (11 * (11 - k.val))) &&& 0x7FF)),
        mnCount := 12, err := 0, einfo := 0 })

/-- R144 (c), (d) and (f), R148: sixteen last words, which differ in their low four bits, decode to the same entropy in
permissive mode, whatever the hash; in strict mode exactly one of them passes. -/
def Obligations.StrictAcceptsOneLastWordOfSixteen : Prop :=
  ∀ (hash : List Byte → List Byte) (s : State) (idx : Vector (Fin 2048) 12),
    s.wordlistUnique → s.wlLock = true → s.mnCount = 12 →
      let last : BitVec 4 → Fin 2048 := fun c => Fin.ofNat 2048 (idx[11].val / 16 * 16 + c.toNat)
      let withLast : BitVec 4 → State := fun c =>
        { s with mn := Vector.ofFn fun k : Fin 12 => s.wlToken (if k.val = 11 then last c else idx[k]) }
      (s.strict = false → ∀ c d : BitVec 4, ∀ hash' : List Byte → List Byte,
        (decodeMnemonic hash (withLast c)).err = 0 ∧
        (decodeMnemonic hash (withLast c)).ent = (decodeMnemonic hash' (withLast d)).ent) ∧
      (s.strict = true → ∃! c : BitVec 4, (decodeMnemonic hash (withLast c)).err = 0)

/-- R146: encoding and decoding again leaves the entropy, for every entropy, every wordlist of pairwise different
entries, either setting of `STRICT`, every hash and every size of a token; and so for the unit's own commands. -/
def Obligations.EncodeThenDecodeReturnsTheEntropy : Prop :=
  (∀ (w p : Nat) (hash : List Byte → List Byte) (s : State.Of w p), s.wlLock = true → s.entLen = 16 → s.wordlistUnique →
    (decodeMnemonic hash (encodeMnemonic hash s)).ent = s.ent ∧
    (decodeMnemonic hash (encodeMnemonic hash s)).entLen = 16 ∧
    (decodeMnemonic hash (encodeMnemonic hash s)).err = 0) ∧
  ∀ s : State, s.wlLock = true → s.entLen = 16 → s.wordlistUnique →
    ∃ t u : State, exec .mnEncode s = .next t ∧ exec .mnDecode t = .next u ∧
      t.err = 0 ∧ u.ent = s.ent ∧ u.entLen = 16 ∧ u.err = 0

/-- R150: with duplicate entries the lookup answers the lowest index, encoding can still give the token of the higher
one, and then decoding gives another entropy without an error. The last clause is about a word other than the last and
permissive mode: there the rule's sentence is exact (log 11). -/
def Obligations.DuplicateEntriesBreakTheRoundTrip : Prop :=
  ∀ (s : State) (i j : Fin 2048), i < j → leastIndex s.wlToken (s.wlToken j) i →
    wlIndex s.wlToken (s.wlToken j) = some i ∧
    ∀ hash : List Byte → List Byte, s.wlLock = true → s.entLen = 16 →
      ∀ k : Fin 12, (unpack132 s.ent (cks hash s.ent))[k] = j →
        (encodeMnemonic hash s).mn[k] = s.wlToken j ∧ (encodeMnemonic hash s).err = 0 ∧
        (s.strict = false → k.val < 11 →
          (decodeMnemonic hash (encodeMnemonic hash s)).err = 0 ∧
          (decodeMnemonic hash (encodeMnemonic hash s)).ent ≠ s.ent)

/-- `95_test_vectors.md` section 1: the 2048 tokens of the test wordlist are pairwise different. -/
def Obligations.TestWordlistIsUnique : Prop := ∀ i j : Fin 2048, tokT i = tokT j → i = j

/-! ### The share reconstructor -/

/-- R171: the slope and the secret byte, in the document's steps and in the closed form. -/
def Obligations.ReconByteFollowsItsSteps : Prop :=
  ∀ y1 y2 : Byte,
    (∃ d, gfInv (gfAdd Config.x1 Config.x2) = some d ∧ d = 0xF6 ∧
      reconSlope y1 y2 = gfMul (gfAdd y1 y2) d ∧
      reconByte y1 y2 = gfAdd y1 (gfMul (gfMul (gfAdd y1 y2) d) Config.x1)) ∧
    reconByte y1 y2 = y1 ^^^ gfMul (y1 ^^^ y2) 0xF6

/-- R172: `SS_RECON`, its checks in their order, then its results; every other piece of state keeps its value. -/
def Obligations.SsReconFollowsItsSteps : Prop :=
  decode 0x20 = .ok .ssRecon ∧
  ∀ s : State,
    (s.saLen ≠ s.sbLen →
      exec .ssRecon s = .next { s with err := 5, einfo := 0, faults := s.faults ||| 0x0020 }) ∧
    (s.saLen = s.sbLen → ¬(s.saIdx = 1 ∧ s.sbIdx = 2) →
      exec .ssRecon s = .next { s with err := 6, einfo := 0, faults := s.faults ||| 0x0040 }) ∧
    (s.saLen = s.sbLen → s.saIdx = 1 → s.sbIdx = 2 → (s.saLen.toNat = 0 ∨ 16 < s.saLen.toNat) →
      exec .ssRecon s = .next { s with err := 9, einfo := 0, faults := s.faults ||| 0x0200 }) ∧
    (s.saLen = s.sbLen → s.saIdx = 1 → s.sbIdx = 2 → 1 ≤ s.saLen.toNat → s.saLen.toNat ≤ 16 →
      exec .ssRecon s = .next { s with
        sec := Vector.ofFn fun i : Fin 16 =>
          if i.val < s.saLen.toNat then s.sa[i] ^^^ gfMul (s.sa[i] ^^^ s.sb[i]) 0xF6 else s.sec[i],
        secLen := s.saLen, err := 0, einfo := 0 })

/-- R174: `UndefinedInverse` is raised by `GF_INV` with `GFA` = 0 and by nothing else; `SS_RECON` never raises it. -/
def Obligations.UndefinedInverseOnlyFromGfInv : Prop :=
  ∀ (i : Instr) (s t : State), exec i s = .next t → (t.err = 7 ↔ i = .gfInv ∧ s.gfa = 0)

/-- R175: reconstruction recovers the secret from valid shares: byte by byte, and by `SS_RECON`. -/
def Obligations.ReconstructionRecoversTheSecret : Prop :=
  (∀ a b : Byte, reconByte (a ^^^ b) (a ^^^ gfMul b 0x02) = a) ∧
  ∀ (s : State) (S B : Block), s.saIdx = 1 → s.sbIdx = 2 → s.saLen = 16 → s.sbLen = 16 →
    s.sa = Vector.ofFn (fun i : Fin 16 => shareByteAt1 S[i] B[i]) →
    s.sb = Vector.ofFn (fun i : Fin 16 => shareByteAt2 S[i] B[i]) →
      ∃ t, exec .ssRecon s = .next t ∧ t.sec = S ∧ t.secLen = 16 ∧ t.err = 0

/-- R178: every pair of bytes is a valid pair for exactly one secret and one blinding byte, and no pair of bytes makes
`SS_RECON` fail. -/
def Obligations.EveryPairIsSomeValidPair : Prop :=
  (∀ y1 y2 : Byte, ∃! p : Byte × Byte, y1 = p.1 ^^^ p.2 ∧ y2 = p.1 ^^^ gfMul p.2 0x02) ∧
  (∀ y1 y2 : Byte, ∃ b, b = gfMul (y1 ^^^ y2) 0xF6 ∧
    y1 = (y1 ^^^ b) ^^^ b ∧ y2 = (y1 ^^^ b) ^^^ gfMul b 0x02) ∧
  ∀ (s t : State) (a b : Block), exec .ssRecon s = .next t →
    ∃ u, exec .ssRecon { s with sa := a, sb := b } = .next u ∧ u.err = t.err

/-- R177: Lagrange interpolation at zero recovers the secret of a line from any two distinct points of it off zero, and at
x = 1 and x = 2 it is what the unit computes. -/
def Obligations.LagrangeAtZeroRecoversTheSecret : Prop :=
  (∀ a b x1 x2 d : Byte, x1 ≠ x2 → x1 ≠ 0 → x2 ≠ 0 → gfInv (x1 ^^^ x2) = some d →
    lagrangeAtZero x1 x2 d (a ^^^ gfMul b x1) (a ^^^ gfMul b x2) = a) ∧
  ∀ y1 y2 : Byte, lagrangeAtZero 0x01 0x02 0xF6 y1 y2 = gfMul y1 0xF7 ^^^ gfMul y2 0xF6 ∧
    lagrangeAtZero 0x01 0x02 0xF6 y1 y2 = reconByte y1 y2

/-! ### System and move commands, reset -/

/-- R190: `NOP`. -/
def Obligations.NopOnlyDeliversSuccess : Prop :=
  decode 0x00 = .ok .nop ∧ ∀ s : State, exec .nop s = .next { s with err := 0, einfo := 0 }

/-- R192: `MV_ENT_SA`. -/
def Obligations.MvEntSaCopiesTheEntropy : Prop :=
  decode 0x30 = .ok .mvEntSa ∧
  ∀ s : State, exec .mvEntSa s = .next { s with sa := s.ent, saLen := s.entLen, err := 0, einfo := 0 }

/-- R193: `MV_ENT_SB`. -/
def Obligations.MvEntSbCopiesTheEntropy : Prop :=
  decode 0x31 = .ok .mvEntSb ∧
  ∀ s : State, exec .mvEntSb s = .next { s with sb := s.ent, sbLen := s.entLen, err := 0, einfo := 0 }

/-- R194: `MV_SEC_ENT`. -/
def Obligations.MvSecEntCopiesTheSecret : Prop :=
  decode 0x32 = .ok .mvSecEnt ∧
  ∀ s : State, exec .mvSecEnt s = .next { s with ent := s.sec, entLen := s.secLen, err := 0, einfo := 0 }

/-- R191: `SRESET` puts every named register at its reset value, as the hardware reset does; nothing is said of the data
bytes that either leaves unspecified. It is the only command that writes `CTRL` or clears a bit of `FAULTS`. -/
def Obligations.SresetIsTheHardwareReset : Prop :=
  decode 0xFF = .ok .sreset ∧
  (∀ s : State, ∃ t, exec .sreset s = .next t ∧ registersReset t) ∧
  (∀ (s : State) (rest : List HostEvent), s.host.pending = .hardReset :: rest →
    ∃ t, step s = .next t ∧ registersReset t) ∧
  ∀ (i : Instr) (s t : State), i ≠ .sreset → exec i s = .next t →
    t.strict = s.strict ∧ t.wlLock = s.wlLock ∧ s.faults &&& t.faults = s.faults

/-- R39: the table of reset values, for the reset state and for what every reset, `SRESET` and the hardware reset, leaves;
the unspecified bytes are left open. -/
def Obligations.ResetLeavesTheTable : Prop :=
  (∀ (n : Nat) (h : HostPort),
    let s := State.afterReset n h
    registersReset s ∧ s.hostRead 0x0003 = 0x00 ∧ s.hostRead 0x0004 = 0x00 ∧ s.hostRead 0x0005 = 0x00) ∧
  (∃ n h, State.reset = State.afterReset n h) ∧
  (∀ s : State, ∃ n h, exec .sreset s = .next (State.afterReset n h)) ∧
  ∀ (s : State) (rest : List HostEvent), s.host.pending = .hardReset :: rest →
    ∃ n h, step s = .next (State.afterReset n h)

/-- R262: what a host sees after a reset. `GF_INV` is left out of the commands that report success, since an unspecified
`GFA` may be 0 (log 12). -/
def Obligations.HostViewAfterReset : Prop :=
  ∀ (n : Nat) (h : HostPort),
    let s := State.afterReset n h
    (∀ a : HostAddr, a.toNat ≤ 0x05 ∨ (0x0C ≤ a.toNat ∧ a.toNat ≤ 0x0E) ∨ (0x10 ≤ a.toNat ∧ a.toNat ≤ 0x13) ∨
      reservedAddress a.toNat → s.hostRead a = 0x00) ∧
    exec .mnDecode s = .next (s.raise .wordlistNotLoaded 0x00) ∧
    exec .mnEncode s = .next (s.raise .wordlistNotLoaded 0x00) ∧
    exec .ssRecon s = .next (s.raise .unsupportedShareIndices 0x00) ∧
    ∀ i ∈ [Instr.nop, .gfAdd, .gfSub, .gfMul, .mvEntSa, .mvEntSb, .mvSecEnt, .sreset],
      ∃ t, exec i s = .next t ∧ t.err = 0

/-! ### Commands as a whole -/

/-- R231, R232: a command other than `SRESET` either succeeds, with `ERR` and `EINFO` 0 and `FAULTS` as before, or raises
one error, which changes `ERR`, `EINFO` and one bit of `FAULTS` and nothing else. -/
def Obligations.CommandSucceedsOrRaises : Prop :=
  ∀ (i : Instr) (s t : State), i ≠ .sreset → exec i s = .next t →
    (t.err = 0 ∧ t.einfo = 0 ∧ t.faults = s.faults) ∨
    ∃ n, 1 ≤ n ∧ n ≤ 10 ∧ ∃ d : Byte,
      t = { s with err := BitVec.ofNat 8 n, einfo := d, faults := s.faults ||| (1#16 <<< n) }

/-- R71, last column: a command that succeeds changes no byte at the port but `ERR`, `EINFO` and its results; one that
fails changes no byte but `ERR`, `EINFO` and `FAULTS`; none touches the wordlist. That none touches the count of resets or
the host's side is the model's choice (log 2, log 3). -/
def Obligations.CommandsWriteOnlyTheirResults : Prop :=
  ∀ (i : Instr) (s t : State), i ≠ .sreset → exec i s = .next t →
    (∀ a : HostAddr, isOutcome (locate a) = false →
      (t.err = 0 → writesOnSuccess s i (locate a) = false → t.hostRead a = s.hostRead a) ∧
      (t.err ≠ 0 → isFaults (locate a) = false → t.hostRead a = s.hostRead a)) ∧
    t.wl = s.wl ∧ t.resets = s.resets ∧ t.host = s.host

/-- R71, middle column: a command's outcome depends on nothing but what the table says it reads, and so do the results of
every command but `SRESET`, whose unspecified bytes are free values (log 2). -/
def Obligations.CommandsReadOnlyTheirOperands : Prop :=
  ∀ (i : Instr) (s u t v : State), agreeOnReads s u i → exec i s = .next t → exec i u = .next v →
    t.err = v.err ∧ t.einfo = v.einfo ∧
    (i ≠ .sreset → t.err = 0 → ∀ loc : Location, writesOnSuccess s i loc = true →
      t.readLocation loc = v.readLocation loc)

/-- R64: executing a command other than `SRESET` a second time leaves the state that the first execution left. -/
def Obligations.CommandsAreIdempotent : Prop :=
  ∀ (i : Instr) (s t : State), i ≠ .sreset → exec i s = .next t → exec i t = .next t

/-! ### The host port -/

/-- R35, R26, R68: what a read returns at each address of the register map; `FAULTS` is little-endian. -/
def Obligations.RegisterMapReads : Prop :=
  ∀ s : State,
    s.hostRead 0x0000 = 0x00 ∧ s.hostRead 0x0001 = s.err ∧ s.hostRead 0x0002 = s.einfo ∧
    (s.hostRead 0x0003).toNat + 256 * (s.hostRead 0x0004).toNat = s.faults.toNat ∧
    (s.hostRead 0x0005).toNat = s.strict.toNat + 2 * s.wlLock.toNat ∧
    s.hostRead 0x0008 = s.gfa ∧ s.hostRead 0x0009 = s.gfb ∧ s.hostRead 0x000A = s.gfr ∧
    s.hostRead 0x000C = s.mnCount ∧ s.hostRead 0x000D = s.entLen ∧ s.hostRead 0x000E = s.secLen ∧
    s.hostRead 0x0010 = s.saIdx ∧ s.hostRead 0x0011 = s.saLen ∧ s.hostRead 0x0012 = s.sbIdx ∧
    s.hostRead 0x0013 = s.sbLen ∧
    (∀ i : Fin 16, s.hostRead (BitVec.ofNat 15 (0x0020 + i.val)) = s.ent[i] ∧
      s.hostRead (BitVec.ofNat 15 (0x0030 + i.val)) = s.sa[i] ∧
      s.hostRead (BitVec.ofNat 15 (0x0040 + i.val)) = s.sb[i] ∧
      s.hostRead (BitVec.ofNat 15 (0x0050 + i.val)) = s.sec[i]) ∧
    (∀ (k : Fin 12) (j : Fin 8), s.hostRead (BitVec.ofNat 15 (0x0080 + 8 * k.val + j.val)) = s.mn[k][j]) ∧
    ∀ (i : Fin 2048) (j : Fin 8), s.hostRead (BitVec.ofNat 15 (0x4000 + 8 * i.val + j.val)) = (s.wlToken i)[j]

/-- R64: a host read changes no state of the unit; the host receives the byte. The lists of events and of bytes read are
the model's own (log 3, log 4). -/
def Obligations.HostReadHasNoSideEffect : Prop :=
  ∀ (s : State) (a : HostAddr) (rest : List HostEvent), s.host.pending = .read a :: rest →
    step s = .next { s with host := { pending := rest, reads := s.host.reads ++ [s.hostRead a] } }

/-- R64, R72: a host write to a writable address other than `CTRL` stores the byte, which the next read returns, and
changes no other byte at the port. The canonical form that it assumes is the model's own (log 13). -/
def Obligations.HostWriteStoresOneByte : Prop :=
  ∀ (s : State) (a : HostAddr) (v : Byte) (rest : List HostEvent), Memory.wf s.resets s.wl = true →
    s.host.pending = .write a v :: rest → writable s a.toNat →
      ∃ t, step s = .next t ∧ t.hostRead a = v ∧ (∀ b : HostAddr, b ≠ a → t.hostRead b = s.hostRead b) ∧
        t.resets = s.resets ∧ t.host = { s.host with pending := rest }

/-- R36: a read of a reserved address returns 0x00 and has no effect; a write to a reserved address, to a read-only
register or to the locked wordlist changes nothing and reports nothing. -/
def Obligations.IgnoredWritesChangeNothing : Prop :=
  (∀ (s : State) (a : HostAddr) (rest : List HostEvent), reservedAddress a.toNat → s.host.pending = .read a :: rest →
    step s = .next { s with host := { pending := rest, reads := s.host.reads ++ [0x00] } }) ∧
  ∀ (s : State) (a : HostAddr) (v : Byte) (rest : List HostEvent), s.host.pending = .write a v :: rest →
    reservedAddress a.toNat ∨ readOnlyAddress a.toNat ∨ (0x4000 ≤ a.toNat ∧ s.wlLock = true) →
      step s = .next { s with host := { s.host with pending := rest } }

/-- R27: a host write of `v` to `CTRL` sets `STRICT` to bit 0 of `v` and or-s bit 1 into `WL_LOCK`, and nothing else; a
read returns `(WL_LOCK << 1) or STRICT`; both bits are 0 after reset; no command but `SRESET` writes `CTRL`. -/
def Obligations.CtrlWriteSetsTheModeBits : Prop :=
  (∀ (s : State) (v : Byte) (rest : List HostEvent), s.host.pending = .write 0x0005 v :: rest →
    step s = .next { s with strict := v.getLsbD 0, wlLock := s.wlLock || v.getLsbD 1,
                            host := { s.host with pending := rest } }) ∧
  (∀ s : State, (s.hostRead 0x0005).toNat = (s.wlLock.toNat <<< 1) ||| s.strict.toNat) ∧
  (∀ (n : Nat) (h : HostPort), (State.afterReset n h).strict = false ∧ (State.afterReset n h).wlLock = false) ∧
  ∀ (i : Instr) (s t : State), exec i s = .next t →
    (i ≠ .sreset → t.strict = s.strict ∧ t.wlLock = s.wlLock) ∧ (i = .sreset → t.strict = false ∧ t.wlLock = false)

/-- R240: a host read or write other than a write to `CMD` never changes `ERR`, `EINFO` or `FAULTS`. -/
def Obligations.HostAccessesRaiseNoError : Prop :=
  ∀ (s : State) (e : HostEvent) (rest : List HostEvent), s.host.pending = e :: rest →
    (∃ a, e = .read a) ∨ (∃ a v, e = .write a v ∧ a ≠ 0x0000) →
      ∃ t, step s = .next t ∧ t.err = s.err ∧ t.einfo = s.einfo ∧ t.faults = s.faults

/-! ### The whole machine -/

/-- R69, R34: once `WL_LOCK` is 1, no event but a reset clears it or changes a byte of the wordlist; a reset clears it. -/
def Obligations.LockedWordlistIsImmutable : Prop :=
  ∀ (s t : State) (e : HostEvent) (rest : List HostEvent), s.host.pending = e :: rest → step s = .next t →
    (e.isReset = false → s.wlLock = true →
      t.wlLock = true ∧ (∀ i, t.wlToken i = s.wlToken i) ∧
      ∀ a : HostAddr, 0x4000 ≤ a.toNat → t.hostRead a = s.hostRead a) ∧
    (e.isReset = true → t.wlLock = false)

/-- R26, R238: a bit of `FAULTS` that is 1 stays 1 until a reset, which clears them all; so while `FAULTS` is 0 no command
has failed since. -/
def Obligations.FaultsAreSticky : Prop :=
  ∀ (s t : State) (e : HostEvent) (rest : List HostEvent), s.host.pending = e :: rest → step s = .next t →
    (e.isReset = false → s.faults &&& t.faults = s.faults ∧ (t.noFaultRecorded → s.noFaultRecorded)) ∧
    (e.isReset = true → t.noFaultRecorded) ∧
    (∀ c, e = .write 0x0000 c → t.err ≠ 0 → ¬t.noFaultRecorded)

/-- R266: the unit has no undefined behaviour: every step of every state answers a next state. R5, R210: so for every
hash and every size of a token; and with the default ones it is the unit's own step. -/
def Obligations.EveryStepAnswersANextState : Prop :=
  (∀ s : State, ∃ t, step s = .next t) ∧
  (∀ (w p : Nat) [NeZero w] (hash : List Byte → List Byte) (s : State.Of w p), ∃ t, stepWith hash s = .next t) ∧
  ∀ s : State, stepWith sha256 s = step s

/-- R24, R25, R26, R33, R39: the reset state, and what every later reset leaves, satisfies the invariant, of which the
memory's canonical form is the model's own (log 13). -/
def Obligations.ResetSatisfiesTheInvariant : Prop :=
  State.reset.Inv ∧ ∀ (n : Nat) (h : HostPort), (State.afterReset n h).Inv

/-- R24, R25, R26, R33: every step keeps the invariant: the wordlist memory's canonical form, the reserved bits of `FAULTS`,
`ERR` one of the codes and recorded in `FAULTS`, `EINFO` its detail, `SEC_LEN` at most 16. The canonical form is the
model's own (log 13). -/
def Obligations.EveryStepKeepsTheInvariant : Prop :=
  ∀ s t : State, s.Inv → step s = .next t → t.Inv

/-- R197: the recovery flow command by command, from two mnemonics that encode valid shares of a secret: it ends with the
mnemonic of the secret and no new fault, whatever `STRICT` is. The host's writes between the commands are direct updates
here; RecoveryScriptReadsTheMnemonic makes them at the port. -/
def Obligations.RecoveryFlowRestoresTheMnemonic : Prop :=
  ∀ (s : State) (S B : Block), s.wlLock = true → s.wordlistUnique →
    let a : Block := Vector.ofFn fun i : Fin 16 => shareByteAt1 S[i] B[i]
    let b : Block := Vector.ofFn fun i : Fin 16 => shareByteAt2 S[i] B[i]
    ∃ s1 s2 s3 s4 s5 s6 t : State,
      exec .mnDecode { s with mn := s.mnemonicOf unitHash a, mnCount := 12 } = .next s1 ∧ s1.err = 0 ∧
      exec .mvEntSa s1 = .next s2 ∧
      exec .mnDecode { s2 with saIdx := 1, mn := s.mnemonicOf unitHash b, mnCount := 12 } = .next s3 ∧ s3.err = 0 ∧
      exec .mvEntSb s3 = .next s4 ∧
      exec .ssRecon { s4 with sbIdx := 2 } = .next s5 ∧ s5.err = 0 ∧ s5.secLen = 16 ∧ s5.sec = S ∧
      exec .mvSecEnt s5 = .next s6 ∧
      exec .mnEncode s6 = .next t ∧ t.err = 0 ∧ t.mn = s.mnemonicOf unitHash S ∧ t.mnCount = 12 ∧ t.faults = s.faults

/-- R197 as the host sequence it is, steps 1 to 10, each access taken at the port by a step: the four reads of `ERR` answer
0, and the reads of `MN` answer the mnemonic of the secret. The list of events and of bytes read are the model's own (log
3, log 4). -/
def Obligations.RecoveryScriptReadsTheMnemonic : Prop :=
  ∀ (s : State) (S B : Block) (rest : List HostEvent), s.wlLock = true → s.wordlistUnique →
    let a : Block := Vector.ofFn fun i : Fin 16 => shareByteAt1 S[i] B[i]
    let b : Block := Vector.ofFn fun i : Fin 16 => shareByteAt2 S[i] B[i]
    let script := expandScript (recoveryFlow (s.mnemonicOf unitHash a) (s.mnemonicOf unitHash b))
    s.host.pending = script ++ rest →
      ∃ t, runsTo script.length s t ∧ t.host.pending = rest ∧
        t.host.reads = s.host.reads ++ [0x00, 0x00, 0x00, 0x00] ++
          (s.mnemonicOf unitHash S).toList.flatMap (fun token => token.toList) ∧
        t.sec = S ∧ t.secLen = 16 ∧ t.faults = s.faults
end

