-- ==== Sys2Proof/Laws/State.lean ====
section
/-! SUPPORT. One lemma for each field and each named update of State, true by rfl and tagged for simp, so that no proof
unfolds a record update; the same for the reset state. -/

namespace Sys2Proof.Machine

variable {w p : Nat}

/-! ### `withGfr` -/

@[simp] theorem State.Of.withGfr_err (s : State.Of w p) (v : Byte) : (s.withGfr v).err = s.err := rfl
@[simp] theorem State.Of.withGfr_einfo (s : State.Of w p) (v : Byte) : (s.withGfr v).einfo = s.einfo := rfl
@[simp] theorem State.Of.withGfr_faults (s : State.Of w p) (v : Byte) : (s.withGfr v).faults = s.faults := rfl
@[simp] theorem State.Of.withGfr_strict (s : State.Of w p) (v : Byte) : (s.withGfr v).strict = s.strict := rfl
@[simp] theorem State.Of.withGfr_wlLock (s : State.Of w p) (v : Byte) : (s.withGfr v).wlLock = s.wlLock := rfl
@[simp] theorem State.Of.withGfr_gfa (s : State.Of w p) (v : Byte) : (s.withGfr v).gfa = s.gfa := rfl
@[simp] theorem State.Of.withGfr_gfb (s : State.Of w p) (v : Byte) : (s.withGfr v).gfb = s.gfb := rfl
@[simp] theorem State.Of.withGfr_gfr (s : State.Of w p) (v : Byte) : (s.withGfr v).gfr = v := rfl
@[simp] theorem State.Of.withGfr_mnCount (s : State.Of w p) (v : Byte) : (s.withGfr v).mnCount = s.mnCount := rfl
@[simp] theorem State.Of.withGfr_mn (s : State.Of w p) (v : Byte) : (s.withGfr v).mn = s.mn := rfl
@[simp] theorem State.Of.withGfr_entLen (s : State.Of w p) (v : Byte) : (s.withGfr v).entLen = s.entLen := rfl
@[simp] theorem State.Of.withGfr_ent (s : State.Of w p) (v : Byte) : (s.withGfr v).ent = s.ent := rfl
@[simp] theorem State.Of.withGfr_saIdx (s : State.Of w p) (v : Byte) : (s.withGfr v).saIdx = s.saIdx := rfl
@[simp] theorem State.Of.withGfr_saLen (s : State.Of w p) (v : Byte) : (s.withGfr v).saLen = s.saLen := rfl
@[simp] theorem State.Of.withGfr_sa (s : State.Of w p) (v : Byte) : (s.withGfr v).sa = s.sa := rfl
@[simp] theorem State.Of.withGfr_sbIdx (s : State.Of w p) (v : Byte) : (s.withGfr v).sbIdx = s.sbIdx := rfl
@[simp] theorem State.Of.withGfr_sbLen (s : State.Of w p) (v : Byte) : (s.withGfr v).sbLen = s.sbLen := rfl
@[simp] theorem State.Of.withGfr_sb (s : State.Of w p) (v : Byte) : (s.withGfr v).sb = s.sb := rfl
@[simp] theorem State.Of.withGfr_secLen (s : State.Of w p) (v : Byte) : (s.withGfr v).secLen = s.secLen := rfl
@[simp] theorem State.Of.withGfr_sec (s : State.Of w p) (v : Byte) : (s.withGfr v).sec = s.sec := rfl
@[simp] theorem State.Of.withGfr_wl (s : State.Of w p) (v : Byte) : (s.withGfr v).wl = s.wl := rfl
@[simp] theorem State.Of.withGfr_resets (s : State.Of w p) (v : Byte) : (s.withGfr v).resets = s.resets := rfl
@[simp] theorem State.Of.withGfr_host (s : State.Of w p) (v : Byte) : (s.withGfr v).host = s.host := rfl
@[simp] theorem State.Of.withGfr_wlToken (s : State.Of w p) (v : Byte) : (s.withGfr v).wlToken = s.wlToken := rfl

/-! ### `withMnemonic` -/

@[simp] theorem State.Of.withMnemonic_err (s : State.Of w p) (m : Vector (Token w) 12) (n : Byte) : (s.withMnemonic m n).err = s.err := rfl
@[simp] theorem State.Of.withMnemonic_einfo (s : State.Of w p) (m : Vector (Token w) 12) (n : Byte) : (s.withMnemonic m n).einfo = s.einfo := rfl
@[simp] theorem State.Of.withMnemonic_faults (s : State.Of w p) (m : Vector (Token w) 12) (n : Byte) : (s.withMnemonic m n).faults = s.faults := rfl
@[simp] theorem State.Of.withMnemonic_strict (s : State.Of w p) (m : Vector (Token w) 12) (n : Byte) : (s.withMnemonic m n).strict = s.strict := rfl
@[simp] theorem State.Of.withMnemonic_wlLock (s : State.Of w p) (m : Vector (Token w) 12) (n : Byte) : (s.withMnemonic m n).wlLock = s.wlLock := rfl
@[simp] theorem State.Of.withMnemonic_gfa (s : State.Of w p) (m : Vector (Token w) 12) (n : Byte) : (s.withMnemonic m n).gfa = s.gfa := rfl
@[simp] theorem State.Of.withMnemonic_gfb (s : State.Of w p) (m : Vector (Token w) 12) (n : Byte) : (s.withMnemonic m n).gfb = s.gfb := rfl
@[simp] theorem State.Of.withMnemonic_gfr (s : State.Of w p) (m : Vector (Token w) 12) (n : Byte) : (s.withMnemonic m n).gfr = s.gfr := rfl
@[simp] theorem State.Of.withMnemonic_mnCount (s : State.Of w p) (m : Vector (Token w) 12) (n : Byte) : (s.withMnemonic m n).mnCount = n := rfl
@[simp] theorem State.Of.withMnemonic_mn (s : State.Of w p) (m : Vector (Token w) 12) (n : Byte) : (s.withMnemonic m n).mn = m := rfl
@[simp] theorem State.Of.withMnemonic_entLen (s : State.Of w p) (m : Vector (Token w) 12) (n : Byte) : (s.withMnemonic m n).entLen = s.entLen := rfl
@[simp] theorem State.Of.withMnemonic_ent (s : State.Of w p) (m : Vector (Token w) 12) (n : Byte) : (s.withMnemonic m n).ent = s.ent := rfl
@[simp] theorem State.Of.withMnemonic_saIdx (s : State.Of w p) (m : Vector (Token w) 12) (n : Byte) : (s.withMnemonic m n).saIdx = s.saIdx := rfl
@[simp] theorem State.Of.withMnemonic_saLen (s : State.Of w p) (m : Vector (Token w) 12) (n : Byte) : (s.withMnemonic m n).saLen = s.saLen := rfl
@[simp] theorem State.Of.withMnemonic_sa (s : State.Of w p) (m : Vector (Token w) 12) (n : Byte) : (s.withMnemonic m n).sa = s.sa := rfl
@[simp] theorem State.Of.withMnemonic_sbIdx (s : State.Of w p) (m : Vector (Token w) 12) (n : Byte) : (s.withMnemonic m n).sbIdx = s.sbIdx := rfl
@[simp] theorem State.Of.withMnemonic_sbLen (s : State.Of w p) (m : Vector (Token w) 12) (n : Byte) : (s.withMnemonic m n).sbLen = s.sbLen := rfl
@[simp] theorem State.Of.withMnemonic_sb (s : State.Of w p) (m : Vector (Token w) 12) (n : Byte) : (s.withMnemonic m n).sb = s.sb := rfl
@[simp] theorem State.Of.withMnemonic_secLen (s : State.Of w p) (m : Vector (Token w) 12) (n : Byte) : (s.withMnemonic m n).secLen = s.secLen := rfl
@[simp] theorem State.Of.withMnemonic_sec (s : State.Of w p) (m : Vector (Token w) 12) (n : Byte) : (s.withMnemonic m n).sec = s.sec := rfl
@[simp] theorem State.Of.withMnemonic_wl (s : State.Of w p) (m : Vector (Token w) 12) (n : Byte) : (s.withMnemonic m n).wl = s.wl := rfl
@[simp] theorem State.Of.withMnemonic_resets (s : State.Of w p) (m : Vector (Token w) 12) (n : Byte) : (s.withMnemonic m n).resets = s.resets := rfl
@[simp] theorem State.Of.withMnemonic_host (s : State.Of w p) (m : Vector (Token w) 12) (n : Byte) : (s.withMnemonic m n).host = s.host := rfl
@[simp] theorem State.Of.withMnemonic_wlToken (s : State.Of w p) (m : Vector (Token w) 12) (n : Byte) : (s.withMnemonic m n).wlToken = s.wlToken := rfl

/-! ### `withEntropy` -/

@[simp] theorem State.Of.withEntropy_err (s : State.Of w p) (b : Block) (n : Byte) : (s.withEntropy b n).err = s.err := rfl
@[simp] theorem State.Of.withEntropy_einfo (s : State.Of w p) (b : Block) (n : Byte) : (s.withEntropy b n).einfo = s.einfo := rfl
@[simp] theorem State.Of.withEntropy_faults (s : State.Of w p) (b : Block) (n : Byte) : (s.withEntropy b n).faults = s.faults := rfl
@[simp] theorem State.Of.withEntropy_strict (s : State.Of w p) (b : Block) (n : Byte) : (s.withEntropy b n).strict = s.strict := rfl
@[simp] theorem State.Of.withEntropy_wlLock (s : State.Of w p) (b : Block) (n : Byte) : (s.withEntropy b n).wlLock = s.wlLock := rfl
@[simp] theorem State.Of.withEntropy_gfa (s : State.Of w p) (b : Block) (n : Byte) : (s.withEntropy b n).gfa = s.gfa := rfl
@[simp] theorem State.Of.withEntropy_gfb (s : State.Of w p) (b : Block) (n : Byte) : (s.withEntropy b n).gfb = s.gfb := rfl
@[simp] theorem State.Of.withEntropy_gfr (s : State.Of w p) (b : Block) (n : Byte) : (s.withEntropy b n).gfr = s.gfr := rfl
@[simp] theorem State.Of.withEntropy_mnCount (s : State.Of w p) (b : Block) (n : Byte) : (s.withEntropy b n).mnCount = s.mnCount := rfl
@[simp] theorem State.Of.withEntropy_mn (s : State.Of w p) (b : Block) (n : Byte) : (s.withEntropy b n).mn = s.mn := rfl
@[simp] theorem State.Of.withEntropy_entLen (s : State.Of w p) (b : Block) (n : Byte) : (s.withEntropy b n).entLen = n := rfl
@[simp] theorem State.Of.withEntropy_ent (s : State.Of w p) (b : Block) (n : Byte) : (s.withEntropy b n).ent = b := rfl
@[simp] theorem State.Of.withEntropy_saIdx (s : State.Of w p) (b : Block) (n : Byte) : (s.withEntropy b n).saIdx = s.saIdx := rfl
@[simp] theorem State.Of.withEntropy_saLen (s : State.Of w p) (b : Block) (n : Byte) : (s.withEntropy b n).saLen = s.saLen := rfl
@[simp] theorem State.Of.withEntropy_sa (s : State.Of w p) (b : Block) (n : Byte) : (s.withEntropy b n).sa = s.sa := rfl
@[simp] theorem State.Of.withEntropy_sbIdx (s : State.Of w p) (b : Block) (n : Byte) : (s.withEntropy b n).sbIdx = s.sbIdx := rfl
@[simp] theorem State.Of.withEntropy_sbLen (s : State.Of w p) (b : Block) (n : Byte) : (s.withEntropy b n).sbLen = s.sbLen := rfl
@[simp] theorem State.Of.withEntropy_sb (s : State.Of w p) (b : Block) (n : Byte) : (s.withEntropy b n).sb = s.sb := rfl
@[simp] theorem State.Of.withEntropy_secLen (s : State.Of w p) (b : Block) (n : Byte) : (s.withEntropy b n).secLen = s.secLen := rfl
@[simp] theorem State.Of.withEntropy_sec (s : State.Of w p) (b : Block) (n : Byte) : (s.withEntropy b n).sec = s.sec := rfl
@[simp] theorem State.Of.withEntropy_wl (s : State.Of w p) (b : Block) (n : Byte) : (s.withEntropy b n).wl = s.wl := rfl
@[simp] theorem State.Of.withEntropy_resets (s : State.Of w p) (b : Block) (n : Byte) : (s.withEntropy b n).resets = s.resets := rfl
@[simp] theorem State.Of.withEntropy_host (s : State.Of w p) (b : Block) (n : Byte) : (s.withEntropy b n).host = s.host := rfl
@[simp] theorem State.Of.withEntropy_wlToken (s : State.Of w p) (b : Block) (n : Byte) : (s.withEntropy b n).wlToken = s.wlToken := rfl

/-! ### `withShareA` -/

@[simp] theorem State.Of.withShareA_err (s : State.Of w p) (b : Block) (n : Byte) : (s.withShareA b n).err = s.err := rfl
@[simp] theorem State.Of.withShareA_einfo (s : State.Of w p) (b : Block) (n : Byte) : (s.withShareA b n).einfo = s.einfo := rfl
@[simp] theorem State.Of.withShareA_faults (s : State.Of w p) (b : Block) (n : Byte) : (s.withShareA b n).faults = s.faults := rfl
@[simp] theorem State.Of.withShareA_strict (s : State.Of w p) (b : Block) (n : Byte) : (s.withShareA b n).strict = s.strict := rfl
@[simp] theorem State.Of.withShareA_wlLock (s : State.Of w p) (b : Block) (n : Byte) : (s.withShareA b n).wlLock = s.wlLock := rfl
@[simp] theorem State.Of.withShareA_gfa (s : State.Of w p) (b : Block) (n : Byte) : (s.withShareA b n).gfa = s.gfa := rfl
@[simp] theorem State.Of.withShareA_gfb (s : State.Of w p) (b : Block) (n : Byte) : (s.withShareA b n).gfb = s.gfb := rfl
@[simp] theorem State.Of.withShareA_gfr (s : State.Of w p) (b : Block) (n : Byte) : (s.withShareA b n).gfr = s.gfr := rfl
@[simp] theorem State.Of.withShareA_mnCount (s : State.Of w p) (b : Block) (n : Byte) : (s.withShareA b n).mnCount = s.mnCount := rfl
@[simp] theorem State.Of.withShareA_mn (s : State.Of w p) (b : Block) (n : Byte) : (s.withShareA b n).mn = s.mn := rfl
@[simp] theorem State.Of.withShareA_entLen (s : State.Of w p) (b : Block) (n : Byte) : (s.withShareA b n).entLen = s.entLen := rfl
@[simp] theorem State.Of.withShareA_ent (s : State.Of w p) (b : Block) (n : Byte) : (s.withShareA b n).ent = s.ent := rfl
@[simp] theorem State.Of.withShareA_saIdx (s : State.Of w p) (b : Block) (n : Byte) : (s.withShareA b n).saIdx = s.saIdx := rfl
@[simp] theorem State.Of.withShareA_saLen (s : State.Of w p) (b : Block) (n : Byte) : (s.withShareA b n).saLen = n := rfl
@[simp] theorem State.Of.withShareA_sa (s : State.Of w p) (b : Block) (n : Byte) : (s.withShareA b n).sa = b := rfl
@[simp] theorem State.Of.withShareA_sbIdx (s : State.Of w p) (b : Block) (n : Byte) : (s.withShareA b n).sbIdx = s.sbIdx := rfl
@[simp] theorem State.Of.withShareA_sbLen (s : State.Of w p) (b : Block) (n : Byte) : (s.withShareA b n).sbLen = s.sbLen := rfl
@[simp] theorem State.Of.withShareA_sb (s : State.Of w p) (b : Block) (n : Byte) : (s.withShareA b n).sb = s.sb := rfl
@[simp] theorem State.Of.withShareA_secLen (s : State.Of w p) (b : Block) (n : Byte) : (s.withShareA b n).secLen = s.secLen := rfl
@[simp] theorem State.Of.withShareA_sec (s : State.Of w p) (b : Block) (n : Byte) : (s.withShareA b n).sec = s.sec := rfl
@[simp] theorem State.Of.withShareA_wl (s : State.Of w p) (b : Block) (n : Byte) : (s.withShareA b n).wl = s.wl := rfl
@[simp] theorem State.Of.withShareA_resets (s : State.Of w p) (b : Block) (n : Byte) : (s.withShareA b n).resets = s.resets := rfl
@[simp] theorem State.Of.withShareA_host (s : State.Of w p) (b : Block) (n : Byte) : (s.withShareA b n).host = s.host := rfl
@[simp] theorem State.Of.withShareA_wlToken (s : State.Of w p) (b : Block) (n : Byte) : (s.withShareA b n).wlToken = s.wlToken := rfl

/-! ### `withShareB` -/

@[simp] theorem State.Of.withShareB_err (s : State.Of w p) (b : Block) (n : Byte) : (s.withShareB b n).err = s.err := rfl
@[simp] theorem State.Of.withShareB_einfo (s : State.Of w p) (b : Block) (n : Byte) : (s.withShareB b n).einfo = s.einfo := rfl
@[simp] theorem State.Of.withShareB_faults (s : State.Of w p) (b : Block) (n : Byte) : (s.withShareB b n).faults = s.faults := rfl
@[simp] theorem State.Of.withShareB_strict (s : State.Of w p) (b : Block) (n : Byte) : (s.withShareB b n).strict = s.strict := rfl
@[simp] theorem State.Of.withShareB_wlLock (s : State.Of w p) (b : Block) (n : Byte) : (s.withShareB b n).wlLock = s.wlLock := rfl
@[simp] theorem State.Of.withShareB_gfa (s : State.Of w p) (b : Block) (n : Byte) : (s.withShareB b n).gfa = s.gfa := rfl
@[simp] theorem State.Of.withShareB_gfb (s : State.Of w p) (b : Block) (n : Byte) : (s.withShareB b n).gfb = s.gfb := rfl
@[simp] theorem State.Of.withShareB_gfr (s : State.Of w p) (b : Block) (n : Byte) : (s.withShareB b n).gfr = s.gfr := rfl
@[simp] theorem State.Of.withShareB_mnCount (s : State.Of w p) (b : Block) (n : Byte) : (s.withShareB b n).mnCount = s.mnCount := rfl
@[simp] theorem State.Of.withShareB_mn (s : State.Of w p) (b : Block) (n : Byte) : (s.withShareB b n).mn = s.mn := rfl
@[simp] theorem State.Of.withShareB_entLen (s : State.Of w p) (b : Block) (n : Byte) : (s.withShareB b n).entLen = s.entLen := rfl
@[simp] theorem State.Of.withShareB_ent (s : State.Of w p) (b : Block) (n : Byte) : (s.withShareB b n).ent = s.ent := rfl
@[simp] theorem State.Of.withShareB_saIdx (s : State.Of w p) (b : Block) (n : Byte) : (s.withShareB b n).saIdx = s.saIdx := rfl
@[simp] theorem State.Of.withShareB_saLen (s : State.Of w p) (b : Block) (n : Byte) : (s.withShareB b n).saLen = s.saLen := rfl
@[simp] theorem State.Of.withShareB_sa (s : State.Of w p) (b : Block) (n : Byte) : (s.withShareB b n).sa = s.sa := rfl
@[simp] theorem State.Of.withShareB_sbIdx (s : State.Of w p) (b : Block) (n : Byte) : (s.withShareB b n).sbIdx = s.sbIdx := rfl
@[simp] theorem State.Of.withShareB_sbLen (s : State.Of w p) (b : Block) (n : Byte) : (s.withShareB b n).sbLen = n := rfl
@[simp] theorem State.Of.withShareB_sb (s : State.Of w p) (b : Block) (n : Byte) : (s.withShareB b n).sb = b := rfl
@[simp] theorem State.Of.withShareB_secLen (s : State.Of w p) (b : Block) (n : Byte) : (s.withShareB b n).secLen = s.secLen := rfl
@[simp] theorem State.Of.withShareB_sec (s : State.Of w p) (b : Block) (n : Byte) : (s.withShareB b n).sec = s.sec := rfl
@[simp] theorem State.Of.withShareB_wl (s : State.Of w p) (b : Block) (n : Byte) : (s.withShareB b n).wl = s.wl := rfl
@[simp] theorem State.Of.withShareB_resets (s : State.Of w p) (b : Block) (n : Byte) : (s.withShareB b n).resets = s.resets := rfl
@[simp] theorem State.Of.withShareB_host (s : State.Of w p) (b : Block) (n : Byte) : (s.withShareB b n).host = s.host := rfl
@[simp] theorem State.Of.withShareB_wlToken (s : State.Of w p) (b : Block) (n : Byte) : (s.withShareB b n).wlToken = s.wlToken := rfl

/-! ### `withSecret` -/

@[simp] theorem State.Of.withSecret_err (s : State.Of w p) (b : Block) (n : Byte) : (s.withSecret b n).err = s.err := rfl
@[simp] theorem State.Of.withSecret_einfo (s : State.Of w p) (b : Block) (n : Byte) : (s.withSecret b n).einfo = s.einfo := rfl
@[simp] theorem State.Of.withSecret_faults (s : State.Of w p) (b : Block) (n : Byte) : (s.withSecret b n).faults = s.faults := rfl
@[simp] theorem State.Of.withSecret_strict (s : State.Of w p) (b : Block) (n : Byte) : (s.withSecret b n).strict = s.strict := rfl
@[simp] theorem State.Of.withSecret_wlLock (s : State.Of w p) (b : Block) (n : Byte) : (s.withSecret b n).wlLock = s.wlLock := rfl
@[simp] theorem State.Of.withSecret_gfa (s : State.Of w p) (b : Block) (n : Byte) : (s.withSecret b n).gfa = s.gfa := rfl
@[simp] theorem State.Of.withSecret_gfb (s : State.Of w p) (b : Block) (n : Byte) : (s.withSecret b n).gfb = s.gfb := rfl
@[simp] theorem State.Of.withSecret_gfr (s : State.Of w p) (b : Block) (n : Byte) : (s.withSecret b n).gfr = s.gfr := rfl
@[simp] theorem State.Of.withSecret_mnCount (s : State.Of w p) (b : Block) (n : Byte) : (s.withSecret b n).mnCount = s.mnCount := rfl
@[simp] theorem State.Of.withSecret_mn (s : State.Of w p) (b : Block) (n : Byte) : (s.withSecret b n).mn = s.mn := rfl
@[simp] theorem State.Of.withSecret_entLen (s : State.Of w p) (b : Block) (n : Byte) : (s.withSecret b n).entLen = s.entLen := rfl
@[simp] theorem State.Of.withSecret_ent (s : State.Of w p) (b : Block) (n : Byte) : (s.withSecret b n).ent = s.ent := rfl
@[simp] theorem State.Of.withSecret_saIdx (s : State.Of w p) (b : Block) (n : Byte) : (s.withSecret b n).saIdx = s.saIdx := rfl
@[simp] theorem State.Of.withSecret_saLen (s : State.Of w p) (b : Block) (n : Byte) : (s.withSecret b n).saLen = s.saLen := rfl
@[simp] theorem State.Of.withSecret_sa (s : State.Of w p) (b : Block) (n : Byte) : (s.withSecret b n).sa = s.sa := rfl
@[simp] theorem State.Of.withSecret_sbIdx (s : State.Of w p) (b : Block) (n : Byte) : (s.withSecret b n).sbIdx = s.sbIdx := rfl
@[simp] theorem State.Of.withSecret_sbLen (s : State.Of w p) (b : Block) (n : Byte) : (s.withSecret b n).sbLen = s.sbLen := rfl
@[simp] theorem State.Of.withSecret_sb (s : State.Of w p) (b : Block) (n : Byte) : (s.withSecret b n).sb = s.sb := rfl
@[simp] theorem State.Of.withSecret_secLen (s : State.Of w p) (b : Block) (n : Byte) : (s.withSecret b n).secLen = n := rfl
@[simp] theorem State.Of.withSecret_sec (s : State.Of w p) (b : Block) (n : Byte) : (s.withSecret b n).sec = b := rfl
@[simp] theorem State.Of.withSecret_wl (s : State.Of w p) (b : Block) (n : Byte) : (s.withSecret b n).wl = s.wl := rfl
@[simp] theorem State.Of.withSecret_resets (s : State.Of w p) (b : Block) (n : Byte) : (s.withSecret b n).resets = s.resets := rfl
@[simp] theorem State.Of.withSecret_host (s : State.Of w p) (b : Block) (n : Byte) : (s.withSecret b n).host = s.host := rfl
@[simp] theorem State.Of.withSecret_wlToken (s : State.Of w p) (b : Block) (n : Byte) : (s.withSecret b n).wlToken = s.wlToken := rfl

/-! ### `succeed` -/

@[simp] theorem State.Of.succeed_err (s : State.Of w p) : (s.succeed).err = 0 := rfl
@[simp] theorem State.Of.succeed_einfo (s : State.Of w p) : (s.succeed).einfo = 0 := rfl
@[simp] theorem State.Of.succeed_faults (s : State.Of w p) : (s.succeed).faults = s.faults := rfl
@[simp] theorem State.Of.succeed_strict (s : State.Of w p) : (s.succeed).strict = s.strict := rfl
@[simp] theorem State.Of.succeed_wlLock (s : State.Of w p) : (s.succeed).wlLock = s.wlLock := rfl
@[simp] theorem State.Of.succeed_gfa (s : State.Of w p) : (s.succeed).gfa = s.gfa := rfl
@[simp] theorem State.Of.succeed_gfb (s : State.Of w p) : (s.succeed).gfb = s.gfb := rfl
@[simp] theorem State.Of.succeed_gfr (s : State.Of w p) : (s.succeed).gfr = s.gfr := rfl
@[simp] theorem State.Of.succeed_mnCount (s : State.Of w p) : (s.succeed).mnCount = s.mnCount := rfl
@[simp] theorem State.Of.succeed_mn (s : State.Of w p) : (s.succeed).mn = s.mn := rfl
@[simp] theorem State.Of.succeed_entLen (s : State.Of w p) : (s.succeed).entLen = s.entLen := rfl
@[simp] theorem State.Of.succeed_ent (s : State.Of w p) : (s.succeed).ent = s.ent := rfl
@[simp] theorem State.Of.succeed_saIdx (s : State.Of w p) : (s.succeed).saIdx = s.saIdx := rfl
@[simp] theorem State.Of.succeed_saLen (s : State.Of w p) : (s.succeed).saLen = s.saLen := rfl
@[simp] theorem State.Of.succeed_sa (s : State.Of w p) : (s.succeed).sa = s.sa := rfl
@[simp] theorem State.Of.succeed_sbIdx (s : State.Of w p) : (s.succeed).sbIdx = s.sbIdx := rfl
@[simp] theorem State.Of.succeed_sbLen (s : State.Of w p) : (s.succeed).sbLen = s.sbLen := rfl
@[simp] theorem State.Of.succeed_sb (s : State.Of w p) : (s.succeed).sb = s.sb := rfl
@[simp] theorem State.Of.succeed_secLen (s : State.Of w p) : (s.succeed).secLen = s.secLen := rfl
@[simp] theorem State.Of.succeed_sec (s : State.Of w p) : (s.succeed).sec = s.sec := rfl
@[simp] theorem State.Of.succeed_wl (s : State.Of w p) : (s.succeed).wl = s.wl := rfl
@[simp] theorem State.Of.succeed_resets (s : State.Of w p) : (s.succeed).resets = s.resets := rfl
@[simp] theorem State.Of.succeed_host (s : State.Of w p) : (s.succeed).host = s.host := rfl
@[simp] theorem State.Of.succeed_wlToken (s : State.Of w p) : (s.succeed).wlToken = s.wlToken := rfl

/-! ### `raise` -/

@[simp] theorem State.Of.raise_err (s : State.Of w p) (e : ErrorCode) (d : Byte) : (s.raise e d).err = e.errByte := rfl
@[simp] theorem State.Of.raise_einfo (s : State.Of w p) (e : ErrorCode) (d : Byte) : (s.raise e d).einfo = d := rfl
@[simp] theorem State.Of.raise_faults (s : State.Of w p) (e : ErrorCode) (d : Byte) : (s.raise e d).faults = s.faults ||| e.faultBit := rfl
@[simp] theorem State.Of.raise_strict (s : State.Of w p) (e : ErrorCode) (d : Byte) : (s.raise e d).strict = s.strict := rfl
@[simp] theorem State.Of.raise_wlLock (s : State.Of w p) (e : ErrorCode) (d : Byte) : (s.raise e d).wlLock = s.wlLock := rfl
@[simp] theorem State.Of.raise_gfa (s : State.Of w p) (e : ErrorCode) (d : Byte) : (s.raise e d).gfa = s.gfa := rfl
@[simp] theorem State.Of.raise_gfb (s : State.Of w p) (e : ErrorCode) (d : Byte) : (s.raise e d).gfb = s.gfb := rfl
@[simp] theorem State.Of.raise_gfr (s : State.Of w p) (e : ErrorCode) (d : Byte) : (s.raise e d).gfr = s.gfr := rfl
@[simp] theorem State.Of.raise_mnCount (s : State.Of w p) (e : ErrorCode) (d : Byte) : (s.raise e d).mnCount = s.mnCount := rfl
@[simp] theorem State.Of.raise_mn (s : State.Of w p) (e : ErrorCode) (d : Byte) : (s.raise e d).mn = s.mn := rfl
@[simp] theorem State.Of.raise_entLen (s : State.Of w p) (e : ErrorCode) (d : Byte) : (s.raise e d).entLen = s.entLen := rfl
@[simp] theorem State.Of.raise_ent (s : State.Of w p) (e : ErrorCode) (d : Byte) : (s.raise e d).ent = s.ent := rfl
@[simp] theorem State.Of.raise_saIdx (s : State.Of w p) (e : ErrorCode) (d : Byte) : (s.raise e d).saIdx = s.saIdx := rfl
@[simp] theorem State.Of.raise_saLen (s : State.Of w p) (e : ErrorCode) (d : Byte) : (s.raise e d).saLen = s.saLen := rfl
@[simp] theorem State.Of.raise_sa (s : State.Of w p) (e : ErrorCode) (d : Byte) : (s.raise e d).sa = s.sa := rfl
@[simp] theorem State.Of.raise_sbIdx (s : State.Of w p) (e : ErrorCode) (d : Byte) : (s.raise e d).sbIdx = s.sbIdx := rfl
@[simp] theorem State.Of.raise_sbLen (s : State.Of w p) (e : ErrorCode) (d : Byte) : (s.raise e d).sbLen = s.sbLen := rfl
@[simp] theorem State.Of.raise_sb (s : State.Of w p) (e : ErrorCode) (d : Byte) : (s.raise e d).sb = s.sb := rfl
@[simp] theorem State.Of.raise_secLen (s : State.Of w p) (e : ErrorCode) (d : Byte) : (s.raise e d).secLen = s.secLen := rfl
@[simp] theorem State.Of.raise_sec (s : State.Of w p) (e : ErrorCode) (d : Byte) : (s.raise e d).sec = s.sec := rfl
@[simp] theorem State.Of.raise_wl (s : State.Of w p) (e : ErrorCode) (d : Byte) : (s.raise e d).wl = s.wl := rfl
@[simp] theorem State.Of.raise_resets (s : State.Of w p) (e : ErrorCode) (d : Byte) : (s.raise e d).resets = s.resets := rfl
@[simp] theorem State.Of.raise_host (s : State.Of w p) (e : ErrorCode) (d : Byte) : (s.raise e d).host = s.host := rfl
@[simp] theorem State.Of.raise_wlToken (s : State.Of w p) (e : ErrorCode) (d : Byte) : (s.raise e d).wlToken = s.wlToken := rfl

/-! ### `takeEvent` -/

@[simp] theorem State.Of.takeEvent_err (s : State.Of w p) (r : List (HostEvent.Of p)) : (s.takeEvent r).err = s.err := rfl
@[simp] theorem State.Of.takeEvent_einfo (s : State.Of w p) (r : List (HostEvent.Of p)) : (s.takeEvent r).einfo = s.einfo := rfl
@[simp] theorem State.Of.takeEvent_faults (s : State.Of w p) (r : List (HostEvent.Of p)) : (s.takeEvent r).faults = s.faults := rfl
@[simp] theorem State.Of.takeEvent_strict (s : State.Of w p) (r : List (HostEvent.Of p)) : (s.takeEvent r).strict = s.strict := rfl
@[simp] theorem State.Of.takeEvent_wlLock (s : State.Of w p) (r : List (HostEvent.Of p)) : (s.takeEvent r).wlLock = s.wlLock := rfl
@[simp] theorem State.Of.takeEvent_gfa (s : State.Of w p) (r : List (HostEvent.Of p)) : (s.takeEvent r).gfa = s.gfa := rfl
@[simp] theorem State.Of.takeEvent_gfb (s : State.Of w p) (r : List (HostEvent.Of p)) : (s.takeEvent r).gfb = s.gfb := rfl
@[simp] theorem State.Of.takeEvent_gfr (s : State.Of w p) (r : List (HostEvent.Of p)) : (s.takeEvent r).gfr = s.gfr := rfl
@[simp] theorem State.Of.takeEvent_mnCount (s : State.Of w p) (r : List (HostEvent.Of p)) : (s.takeEvent r).mnCount = s.mnCount := rfl
@[simp] theorem State.Of.takeEvent_mn (s : State.Of w p) (r : List (HostEvent.Of p)) : (s.takeEvent r).mn = s.mn := rfl
@[simp] theorem State.Of.takeEvent_entLen (s : State.Of w p) (r : List (HostEvent.Of p)) : (s.takeEvent r).entLen = s.entLen := rfl
@[simp] theorem State.Of.takeEvent_ent (s : State.Of w p) (r : List (HostEvent.Of p)) : (s.takeEvent r).ent = s.ent := rfl
@[simp] theorem State.Of.takeEvent_saIdx (s : State.Of w p) (r : List (HostEvent.Of p)) : (s.takeEvent r).saIdx = s.saIdx := rfl
@[simp] theorem State.Of.takeEvent_saLen (s : State.Of w p) (r : List (HostEvent.Of p)) : (s.takeEvent r).saLen = s.saLen := rfl
@[simp] theorem State.Of.takeEvent_sa (s : State.Of w p) (r : List (HostEvent.Of p)) : (s.takeEvent r).sa = s.sa := rfl
@[simp] theorem State.Of.takeEvent_sbIdx (s : State.Of w p) (r : List (HostEvent.Of p)) : (s.takeEvent r).sbIdx = s.sbIdx := rfl
@[simp] theorem State.Of.takeEvent_sbLen (s : State.Of w p) (r : List (HostEvent.Of p)) : (s.takeEvent r).sbLen = s.sbLen := rfl
@[simp] theorem State.Of.takeEvent_sb (s : State.Of w p) (r : List (HostEvent.Of p)) : (s.takeEvent r).sb = s.sb := rfl
@[simp] theorem State.Of.takeEvent_secLen (s : State.Of w p) (r : List (HostEvent.Of p)) : (s.takeEvent r).secLen = s.secLen := rfl
@[simp] theorem State.Of.takeEvent_sec (s : State.Of w p) (r : List (HostEvent.Of p)) : (s.takeEvent r).sec = s.sec := rfl
@[simp] theorem State.Of.takeEvent_wl (s : State.Of w p) (r : List (HostEvent.Of p)) : (s.takeEvent r).wl = s.wl := rfl
@[simp] theorem State.Of.takeEvent_resets (s : State.Of w p) (r : List (HostEvent.Of p)) : (s.takeEvent r).resets = s.resets := rfl
@[simp] theorem State.Of.takeEvent_host (s : State.Of w p) (r : List (HostEvent.Of p)) : (s.takeEvent r).host = ⟨r, s.host.reads⟩ := rfl
@[simp] theorem State.Of.takeEvent_wlToken (s : State.Of w p) (r : List (HostEvent.Of p)) : (s.takeEvent r).wlToken = s.wlToken := rfl

/-! ### `deliverRead` -/

@[simp] theorem State.Of.deliverRead_err (s : State.Of w p) (v : Byte) : (s.deliverRead v).err = s.err := rfl
@[simp] theorem State.Of.deliverRead_einfo (s : State.Of w p) (v : Byte) : (s.deliverRead v).einfo = s.einfo := rfl
@[simp] theorem State.Of.deliverRead_faults (s : State.Of w p) (v : Byte) : (s.deliverRead v).faults = s.faults := rfl
@[simp] theorem State.Of.deliverRead_strict (s : State.Of w p) (v : Byte) : (s.deliverRead v).strict = s.strict := rfl
@[simp] theorem State.Of.deliverRead_wlLock (s : State.Of w p) (v : Byte) : (s.deliverRead v).wlLock = s.wlLock := rfl
@[simp] theorem State.Of.deliverRead_gfa (s : State.Of w p) (v : Byte) : (s.deliverRead v).gfa = s.gfa := rfl
@[simp] theorem State.Of.deliverRead_gfb (s : State.Of w p) (v : Byte) : (s.deliverRead v).gfb = s.gfb := rfl
@[simp] theorem State.Of.deliverRead_gfr (s : State.Of w p) (v : Byte) : (s.deliverRead v).gfr = s.gfr := rfl
@[simp] theorem State.Of.deliverRead_mnCount (s : State.Of w p) (v : Byte) : (s.deliverRead v).mnCount = s.mnCount := rfl
@[simp] theorem State.Of.deliverRead_mn (s : State.Of w p) (v : Byte) : (s.deliverRead v).mn = s.mn := rfl
@[simp] theorem State.Of.deliverRead_entLen (s : State.Of w p) (v : Byte) : (s.deliverRead v).entLen = s.entLen := rfl
@[simp] theorem State.Of.deliverRead_ent (s : State.Of w p) (v : Byte) : (s.deliverRead v).ent = s.ent := rfl
@[simp] theorem State.Of.deliverRead_saIdx (s : State.Of w p) (v : Byte) : (s.deliverRead v).saIdx = s.saIdx := rfl
@[simp] theorem State.Of.deliverRead_saLen (s : State.Of w p) (v : Byte) : (s.deliverRead v).saLen = s.saLen := rfl
@[simp] theorem State.Of.deliverRead_sa (s : State.Of w p) (v : Byte) : (s.deliverRead v).sa = s.sa := rfl
@[simp] theorem State.Of.deliverRead_sbIdx (s : State.Of w p) (v : Byte) : (s.deliverRead v).sbIdx = s.sbIdx := rfl
@[simp] theorem State.Of.deliverRead_sbLen (s : State.Of w p) (v : Byte) : (s.deliverRead v).sbLen = s.sbLen := rfl
@[simp] theorem State.Of.deliverRead_sb (s : State.Of w p) (v : Byte) : (s.deliverRead v).sb = s.sb := rfl
@[simp] theorem State.Of.deliverRead_secLen (s : State.Of w p) (v : Byte) : (s.deliverRead v).secLen = s.secLen := rfl
@[simp] theorem State.Of.deliverRead_sec (s : State.Of w p) (v : Byte) : (s.deliverRead v).sec = s.sec := rfl
@[simp] theorem State.Of.deliverRead_wl (s : State.Of w p) (v : Byte) : (s.deliverRead v).wl = s.wl := rfl
@[simp] theorem State.Of.deliverRead_resets (s : State.Of w p) (v : Byte) : (s.deliverRead v).resets = s.resets := rfl
@[simp] theorem State.Of.deliverRead_host (s : State.Of w p) (v : Byte) : (s.deliverRead v).host = ⟨s.host.pending, s.host.reads ++ [v]⟩ := rfl
@[simp] theorem State.Of.deliverRead_wlToken (s : State.Of w p) (v : Byte) : (s.deliverRead v).wlToken = s.wlToken := rfl

/-! ### `withNextEvent` -/

@[simp] theorem State.Of.withNextEvent_err (s : State.Of w p) (e : HostEvent.Of p) : (s.withNextEvent e).err = s.err := rfl
@[simp] theorem State.Of.withNextEvent_einfo (s : State.Of w p) (e : HostEvent.Of p) : (s.withNextEvent e).einfo = s.einfo := rfl
@[simp] theorem State.Of.withNextEvent_faults (s : State.Of w p) (e : HostEvent.Of p) : (s.withNextEvent e).faults = s.faults := rfl
@[simp] theorem State.Of.withNextEvent_strict (s : State.Of w p) (e : HostEvent.Of p) : (s.withNextEvent e).strict = s.strict := rfl
@[simp] theorem State.Of.withNextEvent_wlLock (s : State.Of w p) (e : HostEvent.Of p) : (s.withNextEvent e).wlLock = s.wlLock := rfl
@[simp] theorem State.Of.withNextEvent_gfa (s : State.Of w p) (e : HostEvent.Of p) : (s.withNextEvent e).gfa = s.gfa := rfl
@[simp] theorem State.Of.withNextEvent_gfb (s : State.Of w p) (e : HostEvent.Of p) : (s.withNextEvent e).gfb = s.gfb := rfl
@[simp] theorem State.Of.withNextEvent_gfr (s : State.Of w p) (e : HostEvent.Of p) : (s.withNextEvent e).gfr = s.gfr := rfl
@[simp] theorem State.Of.withNextEvent_mnCount (s : State.Of w p) (e : HostEvent.Of p) : (s.withNextEvent e).mnCount = s.mnCount := rfl
@[simp] theorem State.Of.withNextEvent_mn (s : State.Of w p) (e : HostEvent.Of p) : (s.withNextEvent e).mn = s.mn := rfl
@[simp] theorem State.Of.withNextEvent_entLen (s : State.Of w p) (e : HostEvent.Of p) : (s.withNextEvent e).entLen = s.entLen := rfl
@[simp] theorem State.Of.withNextEvent_ent (s : State.Of w p) (e : HostEvent.Of p) : (s.withNextEvent e).ent = s.ent := rfl
@[simp] theorem State.Of.withNextEvent_saIdx (s : State.Of w p) (e : HostEvent.Of p) : (s.withNextEvent e).saIdx = s.saIdx := rfl
@[simp] theorem State.Of.withNextEvent_saLen (s : State.Of w p) (e : HostEvent.Of p) : (s.withNextEvent e).saLen = s.saLen := rfl
@[simp] theorem State.Of.withNextEvent_sa (s : State.Of w p) (e : HostEvent.Of p) : (s.withNextEvent e).sa = s.sa := rfl
@[simp] theorem State.Of.withNextEvent_sbIdx (s : State.Of w p) (e : HostEvent.Of p) : (s.withNextEvent e).sbIdx = s.sbIdx := rfl
@[simp] theorem State.Of.withNextEvent_sbLen (s : State.Of w p) (e : HostEvent.Of p) : (s.withNextEvent e).sbLen = s.sbLen := rfl
@[simp] theorem State.Of.withNextEvent_sb (s : State.Of w p) (e : HostEvent.Of p) : (s.withNextEvent e).sb = s.sb := rfl
@[simp] theorem State.Of.withNextEvent_secLen (s : State.Of w p) (e : HostEvent.Of p) : (s.withNextEvent e).secLen = s.secLen := rfl
@[simp] theorem State.Of.withNextEvent_sec (s : State.Of w p) (e : HostEvent.Of p) : (s.withNextEvent e).sec = s.sec := rfl
@[simp] theorem State.Of.withNextEvent_wl (s : State.Of w p) (e : HostEvent.Of p) : (s.withNextEvent e).wl = s.wl := rfl
@[simp] theorem State.Of.withNextEvent_resets (s : State.Of w p) (e : HostEvent.Of p) : (s.withNextEvent e).resets = s.resets := rfl
@[simp] theorem State.Of.withNextEvent_host (s : State.Of w p) (e : HostEvent.Of p) : (s.withNextEvent e).host = ⟨e :: s.host.pending, s.host.reads⟩ := rfl
@[simp] theorem State.Of.withNextEvent_wlToken (s : State.Of w p) (e : HostEvent.Of p) : (s.withNextEvent e).wlToken = s.wlToken := rfl

/-! ### The reset state -/

@[simp] theorem State.Of.afterReset_err (n : Nat) (h : HostPort.Of p) : (State.Of.afterReset n h w).err = 0 := rfl
@[simp] theorem State.Of.afterReset_einfo (n : Nat) (h : HostPort.Of p) : (State.Of.afterReset n h w).einfo = 0 := rfl
@[simp] theorem State.Of.afterReset_faults (n : Nat) (h : HostPort.Of p) : (State.Of.afterReset n h w).faults = 0 := rfl
@[simp] theorem State.Of.afterReset_strict (n : Nat) (h : HostPort.Of p) : (State.Of.afterReset n h w).strict = false := rfl
@[simp] theorem State.Of.afterReset_wlLock (n : Nat) (h : HostPort.Of p) : (State.Of.afterReset n h w).wlLock = false := rfl
@[simp] theorem State.Of.afterReset_gfa (n : Nat) (h : HostPort.Of p) : (State.Of.afterReset n h w).gfa = unspecified n 0x0008 := rfl
@[simp] theorem State.Of.afterReset_gfb (n : Nat) (h : HostPort.Of p) : (State.Of.afterReset n h w).gfb = unspecified n 0x0009 := rfl
@[simp] theorem State.Of.afterReset_gfr (n : Nat) (h : HostPort.Of p) : (State.Of.afterReset n h w).gfr = unspecified n 0x000A := rfl
@[simp] theorem State.Of.afterReset_mnCount (n : Nat) (h : HostPort.Of p) : (State.Of.afterReset n h w).mnCount = 0 := rfl
@[simp] theorem State.Of.afterReset_entLen (n : Nat) (h : HostPort.Of p) : (State.Of.afterReset n h w).entLen = 0 := rfl
@[simp] theorem State.Of.afterReset_ent (n : Nat) (h : HostPort.Of p) : (State.Of.afterReset n h w).ent = unspecifiedBlock n Config.entBase := rfl
@[simp] theorem State.Of.afterReset_saIdx (n : Nat) (h : HostPort.Of p) : (State.Of.afterReset n h w).saIdx = 0 := rfl
@[simp] theorem State.Of.afterReset_saLen (n : Nat) (h : HostPort.Of p) : (State.Of.afterReset n h w).saLen = 0 := rfl
@[simp] theorem State.Of.afterReset_sa (n : Nat) (h : HostPort.Of p) : (State.Of.afterReset n h w).sa = unspecifiedBlock n Config.saBase := rfl
@[simp] theorem State.Of.afterReset_sbIdx (n : Nat) (h : HostPort.Of p) : (State.Of.afterReset n h w).sbIdx = 0 := rfl
@[simp] theorem State.Of.afterReset_sbLen (n : Nat) (h : HostPort.Of p) : (State.Of.afterReset n h w).sbLen = 0 := rfl
@[simp] theorem State.Of.afterReset_sb (n : Nat) (h : HostPort.Of p) : (State.Of.afterReset n h w).sb = unspecifiedBlock n Config.sbBase := rfl
@[simp] theorem State.Of.afterReset_secLen (n : Nat) (h : HostPort.Of p) : (State.Of.afterReset n h w).secLen = 0 := rfl
@[simp] theorem State.Of.afterReset_sec (n : Nat) (h : HostPort.Of p) : (State.Of.afterReset n h w).sec = unspecifiedBlock n Config.secBase := rfl
@[simp] theorem State.Of.afterReset_wl (n : Nat) (h : HostPort.Of p) : (State.Of.afterReset n h w).wl = [] := rfl
@[simp] theorem State.Of.afterReset_resets (n : Nat) (h : HostPort.Of p) : (State.Of.afterReset n h w).resets = n := rfl
@[simp] theorem State.Of.afterReset_host (n : Nat) (h : HostPort.Of p) : (State.Of.afterReset n h w).host = h := rfl

theorem State.Of.resetUnit_eq (s : State.Of w p) : s.resetUnit = State.Of.afterReset (s.resets + 1) s.host w := rfl

theorem State.Of.takeEvent_withNextEvent (s : State.Of w p) (e : HostEvent.Of p) :
    (s.withNextEvent e).takeEvent s.host.pending = s := rfl

/-- Raising an error a second time changes nothing. -/
theorem State.Of.raise_raise (s : State.Of w p) (e : ErrorCode) (d : Byte) : (s.raise e d).raise e d = s.raise e d := by
  simp [State.Of.raise, BitVec.or_assoc]

end Sys2Proof.Machine
end

