-- ==== Sys2Proof/Laws/Commands.lean ====
section
/-! SUPPORT. What each shared operation and each command with checks can do, said once: later proofs cite these and unfold
nothing. -/

namespace Sys2Proof.Machine

variable {w p : Nat}

theorem fieldResult_eq (s : State.Of w p) (v : Byte) : fieldResult s v = .next (s.withGfr v).succeed := rfl

@[simp] theorem gfInv_zero : gfInv 0 = none := rfl

/-- A byte that `gf_inv` answers is an inverse. -/
theorem gfMul_of_gfInv {a b : Byte} (h : gfInv a = some b) : gfMul a b = 0x01 := by
  unfold gfInv at h
  split at h
  · cases h
  · simpa using List.find?_some h

/-- `GF_INV`: the error, or the inverse in `GFR`. -/
theorem execGfInv_cases (s : State.Of w p) :
    (gfInv s.gfa = none ∧ execGfInv s = .next (s.raise .undefinedInverse 0)) ∨
    ∃ v, gfInv s.gfa = some v ∧ execGfInv s = .next (s.withGfr v).succeed := by
  unfold execGfInv
  split
  · exact .inl ⟨‹_›, rfl⟩
  · exact .inr ⟨_, ‹_›, rfl⟩

/-- The lookup answers an entry that holds the token. -/
theorem wlIndex_holds {wl : Fin 2048 → Token w} {t : Token w} {i : Fin 2048} (h : wlIndex wl t = some i) : wl i = t := by
  simpa using List.find?_some h

/-- The slot that `UnknownWord` reports holds a token that is absent from the wordlist. -/
theorem firstUnknownSlot_unknown {wl : Fin 2048 → Token w} {mn : Vector (Token w) 12} {slot : Fin 12}
    (h : firstUnknownSlot wl mn = some slot) : wlIndex wl mn[slot] = none := by
  simpa using List.find?_some h

/-- Where no slot is reported, every slot's token has an index. -/
theorem slot_known {wl : Fin 2048 → Token w} {mn : Vector (Token w) 12} (h : firstUnknownSlot wl mn = none) (slot : Fin 12) :
    ∃ i, wlIndex wl mn[slot] = some i := by
  have hs := List.find?_eq_none.mp h slot (List.mem_finRange slot)
  exact Option.ne_none_iff_exists'.mp (by simpa using hs)

/-- Steps 3 to 6 of `MN_DECODE`: the checksum error, or the entropy. -/
theorem decodeKnownWords_cases (hash : List Byte → List Byte) (s : State.Of w p) :
    (s.strict = true ∧ cks hash (entropyOf132 s.mnemonicNumber) ≠ checksumOf132 s.mnemonicNumber ∧
      decodeKnownWords hash s = s.raise .checksumMismatch
        (checksumDetail (checksumOf132 s.mnemonicNumber) (cks hash (entropyOf132 s.mnemonicNumber)))) ∨
    ((s.strict = true → cks hash (entropyOf132 s.mnemonicNumber) = checksumOf132 s.mnemonicNumber) ∧
      decodeKnownWords hash s = (s.withEntropy (entropyOf132 s.mnemonicNumber) Config.entBytes).succeed) := by
  simp only [decodeKnownWords]
  split
  · rename_i h
    exact .inl ⟨h.1, h.2, rfl⟩
  · rename_i h
    exact .inr ⟨fun hs => by_contra fun hc => h ⟨hs, hc⟩, rfl⟩

/-- `MN_DECODE`: the first check that fails, or steps 3 to 6. -/
theorem decodeMnemonic_cases (hash : List Byte → List Byte) (s : State.Of w p) :
    (s.wlLock = false ∧ decodeMnemonic hash s = s.raise .wordlistNotLoaded 0) ∨
    (s.wlLock = true ∧ s.mnCount ≠ 12 ∧ decodeMnemonic hash s = s.raise .invalidMnemonicLength 0) ∨
    (s.wlLock = true ∧ s.mnCount = 12 ∧ ∃ slot, firstUnknownSlot s.wlToken s.mn = some slot ∧
      decodeMnemonic hash s = s.raise .unknownWord (slotDetail slot)) ∨
    (s.wlLock = true ∧ s.mnCount = 12 ∧ firstUnknownSlot s.wlToken s.mn = none ∧
      decodeMnemonic hash s = decodeKnownWords hash s) := by
  unfold decodeMnemonic
  split
  · exact .inl ⟨‹_›, rfl⟩
  · have hl : s.wlLock = true := by simpa using ‹¬s.wlLock = false›
    split
    · exact .inr (.inl ⟨hl, ‹_›, rfl⟩)
    · have hc : s.mnCount = 12 := by simpa [Config.mnWords] using ‹¬s.mnCount ≠ Config.mnWords›
      split
      · exact .inr (.inr (.inl ⟨hl, hc, _, ‹_›, rfl⟩))
      · exact .inr (.inr (.inr ⟨hl, hc, ‹_›, rfl⟩))

/-- `MN_ENCODE`: the first check that fails, or the tokens. -/
theorem encodeMnemonic_cases (hash : List Byte → List Byte) (s : State.Of w p) :
    (s.wlLock = false ∧ encodeMnemonic hash s = s.raise .wordlistNotLoaded 0) ∨
    (s.wlLock = true ∧ s.entLen ≠ 16 ∧ encodeMnemonic hash s = s.raise .invalidEntropyLength 0) ∨
    (s.wlLock = true ∧ s.entLen = 16 ∧
      encodeMnemonic hash s = (s.withMnemonic (s.mnemonicOf hash s.ent) Config.mnWords).succeed) := by
  unfold encodeMnemonic
  split
  · exact .inl ⟨‹_›, rfl⟩
  · have hl : s.wlLock = true := by simpa using ‹¬s.wlLock = false›
    split
    · exact .inr (.inl ⟨hl, ‹_›, rfl⟩)
    · have hc : s.entLen = 16 := by simpa [Config.entBytes] using ‹¬s.entLen ≠ Config.entBytes›
      exact .inr (.inr ⟨hl, hc, rfl⟩)

/-- `SS_RECON`: the first check that fails, or the secret. -/
theorem execSsRecon_cases (s : State.Of w p) :
    (s.saLen ≠ s.sbLen ∧ execSsRecon s = .next (s.raise .shareLengthMismatch 0)) ∨
    (s.saLen = s.sbLen ∧ ¬(s.saIdx = 1 ∧ s.sbIdx = 2) ∧ execSsRecon s = .next (s.raise .unsupportedShareIndices 0)) ∨
    (s.saLen = s.sbLen ∧ s.saIdx = 1 ∧ s.sbIdx = 2 ∧ (s.saLen.toNat = 0 ∨ 16 < s.saLen.toNat) ∧
      execSsRecon s = .next (s.raise .invalidShareLength 0)) ∨
    (s.saLen = s.sbLen ∧ s.saIdx = 1 ∧ s.sbIdx = 2 ∧ 1 ≤ s.saLen.toNat ∧ s.saLen.toNat ≤ 16 ∧
      execSsRecon s = .next (s.withSecret (s.reconstructed s.saLen.toNat) s.saLen).succeed) := by
  unfold execSsRecon
  split
  · exact .inl ⟨‹_›, rfl⟩
  · have hlen : s.saLen = s.sbLen := by simpa using ‹¬s.saLen ≠ s.sbLen›
    split
    · exact .inr (.inl ⟨hlen, ‹_›, rfl⟩)
    · have hidx : s.saIdx = 1 ∧ s.sbIdx = 2 := by
        simpa [Config.x1, Config.x2] using ‹¬¬(s.saIdx = Config.x1 ∧ s.sbIdx = Config.x2)›
      split
      · exact .inr (.inr (.inl ⟨hlen, hidx.1, hidx.2, ‹_›, rfl⟩))
      · rename_i h
        simp only [Config.shareCap, not_or, gt_iff_lt, not_lt] at h
        exact .inr (.inr (.inr ⟨hlen, hidx.1, hidx.2, by omega, h.2, rfl⟩))

/-- The state that a command leaves when it succeeds. -/
def successState (s : State.Of w p) : Instr → State.Of w p
  | .nop => s.succeed
  | .gfAdd => (s.withGfr (gfAdd s.gfa s.gfb)).succeed
  | .gfSub => (s.withGfr (gfSub s.gfa s.gfb)).succeed
  | .gfMul => (s.withGfr (gfMul s.gfa s.gfb)).succeed
  | .gfInv => (s.withGfr ((gfInv s.gfa).getD 0)).succeed
  | .mnDecode => (s.withEntropy (entropyOf132 s.mnemonicNumber) Config.entBytes).succeed
  | .mnEncode => (s.withMnemonic (s.mnemonicOf unitHash s.ent) Config.mnWords).succeed
  | .ssRecon => (s.withSecret (s.reconstructed s.saLen.toNat) s.saLen).succeed
  | .mvEntSa => (s.withShareA s.ent s.entLen).succeed
  | .mvEntSb => (s.withShareB s.ent s.entLen).succeed
  | .mvSecEnt => (s.withEntropy s.sec s.secLen).succeed
  | .sreset => s.resetUnit

/-- Everything a command can do: it succeeds, or it raises an error. -/
theorem exec_cases {i : Instr} {s t : State} (h : exec i s = .next t) :
    t = successState s i ∨ ∃ e d, t = s.raise e d := by
  cases i <;> simp only [exec] at h
  case gfInv =>
    rcases execGfInv_cases s with ⟨-, hh⟩ | ⟨v, hv, hh⟩ <;> rw [hh] at h <;> cases h
    · exact .inr ⟨_, _, rfl⟩
    · exact .inl (by simp [successState, hv])
  case mnDecode =>
    cases h
    rcases decodeMnemonic_cases unitHash s with ⟨-, hh⟩ | ⟨-, -, hh⟩ | ⟨-, -, slot, -, hh⟩ | ⟨-, -, -, hh⟩ <;> rw [hh]
    iterate 3 exact .inr ⟨_, _, rfl⟩
    rcases decodeKnownWords_cases unitHash s with ⟨-, -, hh⟩ | ⟨-, hh⟩ <;> rw [hh]
    · exact .inr ⟨_, _, rfl⟩
    · exact .inl rfl
  case mnEncode =>
    cases h
    rcases encodeMnemonic_cases unitHash s with ⟨-, hh⟩ | ⟨-, -, hh⟩ | ⟨-, -, hh⟩ <;> rw [hh]
    iterate 2 exact .inr ⟨_, _, rfl⟩
    exact .inl rfl
  case ssRecon =>
    rcases execSsRecon_cases s with ⟨-, hh⟩ | ⟨-, -, hh⟩ | ⟨-, -, -, -, hh⟩ | ⟨-, -, -, -, -, hh⟩ <;>
      rw [hh] at h <;> cases h
    iterate 3 exact .inr ⟨_, _, rfl⟩
    exact .inl rfl
  all_goals cases h; exact .inl rfl

/-- An error leaves `ERR` other than 0. -/
theorem State.Of.raise_err_ne (s : State.Of w p) (e : ErrorCode) (d : Byte) : (s.raise e d).err ≠ 0 := by
  cases e <;> simp [ErrorCode.errByte, ErrorCode.code]

/-- A position of `SEC` below the length is reconstructed on its own; the others keep their byte. -/
theorem State.Of.reconstructed_getElem (s : State.Of w p) (len : Nat) (i : Fin 16) :
    (s.reconstructed len)[i] = if i.val < len then reconByte s.sa[i] s.sb[i] else s.sec[i] := by
  simp [State.Of.reconstructed]

/-- A word of the encoded mnemonic. -/
theorem State.Of.mnemonicOf_getElem (s : State.Of w p) (hash : List Byte → List Byte) (e : Block) (k : Fin 12) :
    (s.mnemonicOf hash e)[k] = s.wlToken (unpack132 e (cks hash e))[k] := by
  simp [State.Of.mnemonicOf]

end Sys2Proof.Machine
end

