-- ==== Sys2Proof/Laws/Memory.lean ====
section
/-! SUPPORT. The wordlist memory: what a read gives after a write, and that a write keeps the canonical form. -/

namespace Sys2Proof.Machine

@[simp] theorem Memory.read_nil (n a : Nat) : Memory.read n [] a = unspecified n a := rfl

theorem Memory.read_cons (n a b : Nat) (v : Byte) (m : Memory) :
    Memory.read n ((b, v) :: m) a = if a = b then v else Memory.read n m a := rfl

theorem Memory.wfFrom_cons {top n low a : Nat} {v : Byte} {m : Memory} :
    Memory.wfFrom top n low ((a, v) :: m) = true ↔
      low ≤ a ∧ a < top ∧ v ≠ unspecified n a ∧ Memory.wfFrom top n (a + 1) m = true := by
  simp [Memory.wfFrom, and_assoc]

/-- A form that holds from an address on holds from any lower one. -/
theorem Memory.wfFrom_mono {top n low low' : Nat} {m : Memory} (h : low' ≤ low)
    (w : Memory.wfFrom top n low m = true) : Memory.wfFrom top n low' m = true := by
  cases m with
  | nil => rfl
  | cons c m =>
    obtain ⟨a, v⟩ := c
    rw [Memory.wfFrom_cons] at w ⊢
    exact ⟨h.trans w.1, w.2⟩

/-- An address below all that are listed reads as unlisted. -/
theorem Memory.read_below {top n low a : Nat} {m : Memory} (w : Memory.wfFrom top n low m = true) (h : a < low) :
    Memory.read n m a = unspecified n a := by
  induction m generalizing low with
  | nil => rfl
  | cons c m ih =>
    obtain ⟨b, v⟩ := c
    rw [Memory.wfFrom_cons] at w
    rw [Memory.read_cons, if_neg (by omega)]
    exact ih w.2.2.2 (by omega)

/-- What `put` reads as: the byte put at `a`, the rest elsewhere. -/
theorem Memory.read_put (n a x : Nat) (v : Byte) (m : Memory) (h : Memory.read n m a = unspecified n a) :
    Memory.read n (Memory.put n a v m) x = if x = a then v else Memory.read n m x := by
  unfold Memory.put
  split
  · rename_i hv
    split
    · rename_i hx
      rw [hx, h, hv]
    · rfl
  · rw [Memory.read_cons]

/-- Everything a write does, as reads see it: the byte stored at `a`, every other byte as before. -/
theorem Memory.read_write {top n low : Nat} {m : Memory} (w : Memory.wfFrom top n low m = true) (a x : Nat) (v : Byte) :
    Memory.read n (Memory.write n m a v) x = if x = a then v else Memory.read n m x := by
  induction m generalizing low with
  | nil => exact Memory.read_put n a x v [] rfl
  | cons c m ih =>
    obtain ⟨b, u⟩ := c
    have w' := Memory.wfFrom_cons.mp w
    simp only [Memory.write]
    split
    · rename_i hab
      refine Memory.read_put n a x v _ ?_
      rw [Memory.read_cons, if_neg (by omega)]
      exact Memory.read_below w'.2.2.2 (by omega)
    · split
      · rename_i hab
        subst hab
        rw [Memory.read_put n a x v m (Memory.read_below w'.2.2.2 (by omega)), Memory.read_cons]
        split <;> simp_all
      · rw [Memory.read_cons, ih w'.2.2.2, Memory.read_cons]
        split
        · rename_i hne hxb
          rw [if_neg (by omega)]
        · rfl

/-- `put` keeps the canonical form. -/
theorem Memory.put_wf {top n low a : Nat} {m : Memory} (v : Byte) (hl : low ≤ a) (ha : a < top)
    (w : Memory.wfFrom top n (a + 1) m = true) : Memory.wfFrom top n low (Memory.put n a v m) = true := by
  unfold Memory.put
  split
  · exact Memory.wfFrom_mono (by omega) w
  · rename_i hv
    exact Memory.wfFrom_cons.mpr ⟨hl, ha, hv, w⟩

/-- A write keeps the canonical form, from any bound that the address respects. -/
theorem Memory.write_wfFrom {top n low a : Nat} {m : Memory} (v : Byte) (hl : low ≤ a) (ha : a < top)
    (w : Memory.wfFrom top n low m = true) : Memory.wfFrom top n low (Memory.write n m a v) = true := by
  induction m generalizing low with
  | nil => exact Memory.put_wf v hl ha rfl
  | cons c m ih =>
    obtain ⟨b, u⟩ := c
    have w' := Memory.wfFrom_cons.mp w
    simp only [Memory.write]
    split
    · rename_i hab
      exact Memory.put_wf v hl ha (Memory.wfFrom_cons.mpr ⟨hab, w'.2⟩)
    · split
      · rename_i hab
        exact Memory.put_wf v hl ha (hab ▸ w'.2.2.2)
      · exact Memory.wfFrom_cons.mpr ⟨w'.1, w'.2.1, w'.2.2.1, ih (by omega) w'.2.2.2⟩

/-- A write inside the wordlist region keeps the canonical form. -/
theorem Memory.write_wf {n a w : Nat} {m : Memory} (v : Byte) (hl : Config.wlBase ≤ a) (ha : a < Config.wlTop w)
    (h : Memory.wf n m w = true) : Memory.wf n (Memory.write n m a v) w = true :=
  Memory.write_wfFrom v hl ha h

/-- The empty memory, which every reset leaves, has the canonical form. -/
theorem Memory.nil_wf (n w : Nat) : Memory.wf n [] w = true := rfl

/-- Canonical memories that read the same are the same data. -/
theorem Memory.eq_of_read_eq {top n low : Nat} {m m' : Memory} (w : Memory.wfFrom top n low m = true)
    (w' : Memory.wfFrom top n low m' = true) (h : ∀ a, Memory.read n m a = Memory.read n m' a) : m = m' := by
  induction m generalizing low m' with
  | nil =>
    cases m' with
    | nil => rfl
    | cons c m' =>
      obtain ⟨b, u⟩ := c
      rw [Memory.wfFrom_cons] at w'
      exact absurd ((h b).symm.trans rfl) (by simpa [Memory.read_cons] using w'.2.2.1)
  | cons c m ih =>
    obtain ⟨b, u⟩ := c
    have v := Memory.wfFrom_cons.mp w
    cases m' with
    | nil => exact absurd (h b) (by simpa [Memory.read_cons] using v.2.2.1)
    | cons c' m' =>
      obtain ⟨b', u'⟩ := c'
      have v' := Memory.wfFrom_cons.mp w'
      have hb : b = b' := by
        rcases Nat.lt_trichotomy b b' with hlt | heq | hgt
        · have hr := h b
          rw [Memory.read_cons, if_pos rfl, Memory.read_cons, if_neg (by omega),
            Memory.read_below v'.2.2.2 (by omega)] at hr
          exact absurd hr v.2.2.1
        · exact heq
        · have hr := h b'
          rw [Memory.read_cons, if_neg (by omega), Memory.read_below v.2.2.2 (by omega),
            Memory.read_cons, if_pos rfl] at hr
          exact absurd hr.symm v'.2.2.1
      subst hb
      have hu : u = u' := by simpa [Memory.read_cons] using h b
      subst hu
      congr 1
      refine ih v.2.2.2 v'.2.2.2 fun a => ?_
      by_cases hab : a = b
      · subst hab
        rw [Memory.read_below v.2.2.2 (by omega), Memory.read_below v'.2.2.2 (by omega)]
      · simpa [Memory.read_cons, hab] using h a

end Sys2Proof.Machine
end

