-- ==== Sys2Proof/Laws/PerInstr.lean ====
section
/-! SUPPORT. Statements about a command as syntax, one lemma for each constructor. -/

namespace Sys2Proof.Laws.CommandByte

/-- The command's byte is one of the defined ones, and the decoder reads the command back from it, as a byte and as the
bits of its row of the opcode table (R92). -/
def Statement (i : Instr) : Prop :=
  i.wellFormed = true ∧ commandByteWellFormed (encode i) = true ∧ decode (encode i) = .ok i ∧
    decodeTableWord 8 (encode i).toNat = some i

theorem nop : Statement .nop := ⟨rfl, rfl, rfl, rfl⟩
theorem gfAdd : Statement .gfAdd := ⟨rfl, rfl, rfl, rfl⟩
theorem gfSub : Statement .gfSub := ⟨rfl, rfl, rfl, rfl⟩
theorem gfMul : Statement .gfMul := ⟨rfl, rfl, rfl, rfl⟩
theorem gfInv : Statement .gfInv := ⟨rfl, rfl, rfl, rfl⟩
theorem mnDecode : Statement .mnDecode := ⟨rfl, rfl, rfl, rfl⟩
theorem mnEncode : Statement .mnEncode := ⟨rfl, rfl, rfl, rfl⟩
theorem ssRecon : Statement .ssRecon := ⟨rfl, rfl, rfl, rfl⟩
theorem mvEntSa : Statement .mvEntSa := ⟨rfl, rfl, rfl, rfl⟩
theorem mvEntSb : Statement .mvEntSb := ⟨rfl, rfl, rfl, rfl⟩
theorem mvSecEnt : Statement .mvSecEnt := ⟨rfl, rfl, rfl, rfl⟩
theorem sreset : Statement .sreset := ⟨rfl, rfl, rfl, rfl⟩

end Sys2Proof.Laws.CommandByte
end

