-- ==== Sys2Proof/Laws/Port.lean ====
section
/-! SUPPORT. The host port: where an address of the register map leads, and what a host store leaves alone. -/

namespace Sys2Proof.Machine

variable {w p : Nat}

/-- The register map: no wordlist location, and `CMD` at address 0 alone. -/
theorem registerMap_getD (a : Nat) :
    ((registerMap (w := w)).getD a .reserved = .cmd ↔ a = 0) ∧ ∀ n, (registerMap (w := w)).getD a .reserved ≠ .wl n := by
  by_cases h : a < 32
  · interval_cases a <;> simp [registerMap]
  · have hn : (registerMap (w := w)).getD a .reserved = .reserved := by
      simp only [List.getD_eq_getElem?_getD]
      rw [List.getElem?_eq_none (by simpa [registerMap] using h)]
      rfl
    rw [hn]
    exact ⟨⟨nofun, fun h0 => absurd h0 (by omega)⟩, nofun⟩

/-- The default register map, with its numbers (R35). -/
theorem locate_eq (a : HostAddr) : locate a =
    if a.toNat < 0x0020 then registerMap.getD a.toNat .reserved
    else if a.toNat < 0x0030 then .ent (Fin.ofNat 16 (a.toNat - 0x0020))
    else if a.toNat < 0x0040 then .sa (Fin.ofNat 16 (a.toNat - 0x0030))
    else if a.toNat < 0x0050 then .sb (Fin.ofNat 16 (a.toNat - 0x0040))
    else if a.toNat < 0x0060 then .sec (Fin.ofNat 16 (a.toNat - 0x0050))
    else if a.toNat < 0x0080 then .reserved
    else if a.toNat < 0x00E0 then .mn (Fin.ofNat 12 ((a.toNat - 0x0080) / 8)) (Fin.ofNat 8 ((a.toNat - 0x0080) % 8))
    else if a.toNat < 0x4000 then .reserved
    else .wl a.toNat := by
  have h : a.toNat < Config.wlTop 8 := a.isLt
  simp only [locate, h, if_true]
  rfl

/-- Only address 0 is that of `CMD`. -/
theorem locate_eq_cmd {a : HostAddr} : locate a = .cmd ↔ a = 0 := by
  have hm := (registerMap_getD (w := 8) a.toNat).1
  have ha : a = 0 ↔ a.toNat = 0 := ⟨fun h => by simp [h], fun h => BitVec.eq_of_toNat_eq h⟩
  rw [ha]
  rw [locate_eq]
  split
  · exact hm
  · have hne : a.toNat ≠ 0 := by omega
    repeat' split
    all_goals simp [hne]

/-- A wordlist location is reached from its own address alone, which lies in the wordlist region. -/
theorem locate_eq_wl {a : HostAddr} {n : Nat} : locate a = .wl n ↔ n = a.toNat ∧ Config.wlBase ≤ n := by
  have hm := (registerMap_getD (w := 8) a.toNat).2 n
  simp only [Config.wlBase]
  rw [locate_eq]
  split
  · exact ⟨fun h => absurd h hm, fun h => by omega⟩
  · repeat' split
    all_goals simp only [reduceCtorEq, false_iff, Location.Of.wl.injEq, not_and]
    all_goals omega

/-- The register map, by inversion: every host address lies in one of the rows of R35. -/
theorem locate_cases (a : HostAddr) :
    (a.toNat < 0x20 ∧ locate a = registerMap.getD a.toNat .reserved) ∨
    (∃ i : Fin 16, a.toNat = 0x20 + i.val ∧ locate a = .ent i) ∨
    (∃ i : Fin 16, a.toNat = 0x30 + i.val ∧ locate a = .sa i) ∨
    (∃ i : Fin 16, a.toNat = 0x40 + i.val ∧ locate a = .sb i) ∨
    (∃ i : Fin 16, a.toNat = 0x50 + i.val ∧ locate a = .sec i) ∨
    (0x60 ≤ a.toNat ∧ a.toNat < 0x80 ∧ locate a = .reserved) ∨
    (∃ (k : Fin 12) (j : Fin 8), a.toNat = 0x80 + 8 * k.val + j.val ∧ locate a = .mn k j) ∨
    (0xE0 ≤ a.toNat ∧ a.toNat < 0x4000 ∧ locate a = .reserved) ∨
    (0x4000 ≤ a.toNat ∧ locate a = .wl a.toNat) := by
  have fin16 : ∀ base, base ≤ a.toNat → a.toNat < base + 16 →
      ∃ i : Fin 16, a.toNat = base + i.val ∧ Fin.ofNat 16 (a.toNat - base) = i := fun base h1 h2 =>
    ⟨Fin.ofNat 16 (a.toNat - base), by simp only [Fin.val_ofNat]; omega, rfl⟩
  rw [locate_eq]
  split
  · exact .inl ⟨‹_›, rfl⟩
  refine .inr ?_
  split
  · obtain ⟨i, h, hi⟩ := fin16 0x20 (by omega) (by omega)
    exact .inl ⟨i, h, by rw [hi]⟩
  refine .inr ?_
  split
  · obtain ⟨i, h, hi⟩ := fin16 0x30 (by omega) (by omega)
    exact .inl ⟨i, h, by rw [hi]⟩
  refine .inr ?_
  split
  · obtain ⟨i, h, hi⟩ := fin16 0x40 (by omega) (by omega)
    exact .inl ⟨i, h, by rw [hi]⟩
  refine .inr ?_
  split
  · obtain ⟨i, h, hi⟩ := fin16 0x50 (by omega) (by omega)
    exact .inl ⟨i, h, by rw [hi]⟩
  refine .inr ?_
  split
  · exact .inl ⟨by omega, by omega, rfl⟩
  refine .inr ?_
  split
  · exact .inl ⟨_, _, by simp only [Fin.val_ofNat]; omega, rfl⟩
  refine .inr ?_
  split
  · exact .inl ⟨by omega, by omega, rfl⟩
  · exact .inr ⟨by omega, rfl⟩

theorem State.Of.hostRead_eq (s : State) (a : HostAddr) : s.hostRead a = s.readLocation (locate a) := rfl

/-! A host store changes no outcome register, no result register of a command and none of the model's own fields. -/

@[simp] theorem State.Of.writeLocation_err (s : State.Of w p) (v : Byte) (l : Location.Of w) : (s.writeLocation v l).err = s.err := by
  cases l <;> first
    | rfl
    | (simp only [State.Of.writeLocation]; split <;> rfl)
@[simp] theorem State.Of.writeLocation_einfo (s : State.Of w p) (v : Byte) (l : Location.Of w) : (s.writeLocation v l).einfo = s.einfo := by
  cases l <;> first
    | rfl
    | (simp only [State.Of.writeLocation]; split <;> rfl)
@[simp] theorem State.Of.writeLocation_faults (s : State.Of w p) (v : Byte) (l : Location.Of w) : (s.writeLocation v l).faults = s.faults := by
  cases l <;> first
    | rfl
    | (simp only [State.Of.writeLocation]; split <;> rfl)
@[simp] theorem State.Of.writeLocation_gfr (s : State.Of w p) (v : Byte) (l : Location.Of w) : (s.writeLocation v l).gfr = s.gfr := by
  cases l <;> first
    | rfl
    | (simp only [State.Of.writeLocation]; split <;> rfl)
@[simp] theorem State.Of.writeLocation_secLen (s : State.Of w p) (v : Byte) (l : Location.Of w) : (s.writeLocation v l).secLen = s.secLen := by
  cases l <;> first
    | rfl
    | (simp only [State.Of.writeLocation]; split <;> rfl)
@[simp] theorem State.Of.writeLocation_sec (s : State.Of w p) (v : Byte) (l : Location.Of w) : (s.writeLocation v l).sec = s.sec := by
  cases l <;> first
    | rfl
    | (simp only [State.Of.writeLocation]; split <;> rfl)
@[simp] theorem State.Of.writeLocation_resets (s : State.Of w p) (v : Byte) (l : Location.Of w) : (s.writeLocation v l).resets = s.resets := by
  cases l <;> first
    | rfl
    | (simp only [State.Of.writeLocation]; split <;> rfl)
@[simp] theorem State.Of.writeLocation_host (s : State.Of w p) (v : Byte) (l : Location.Of w) : (s.writeLocation v l).host = s.host := by
  cases l <;> first
    | rfl
    | (simp only [State.Of.writeLocation]; split <;> rfl)

/-- What a host store does to the wordlist memory: a byte of it is written, or it is as before. -/
theorem State.Of.hostStore_wl (s : State) (a : HostAddr) (v : Byte) :
    (s.hostStore a v).wl = s.wl ∨
      (s.wlLock = false ∧ Config.wlBase ≤ a.toNat ∧ (s.hostStore a v).wl = Memory.write s.resets s.wl a.toNat v) := by
  cases h : locate a with
  | wl n =>
    obtain ⟨rfl, hn⟩ := locate_eq_wl.mp h
    simp only [State.Of.hostStore, State.Of.writeLocation, h]
    split
    · exact .inl rfl
    · exact .inr ⟨by simpa using ‹¬s.wlLock = true›, hn, rfl⟩
  | _ => exact .inl (by simp [State.Of.hostStore, State.Of.writeLocation, h])

/-- A host store keeps the wordlist memory canonical. -/
theorem State.Of.hostStore_wf {s : State} (a : HostAddr) (v : Byte) (w : Memory.wf s.resets s.wl = true) :
    Memory.wf (s.hostStore a v).resets (s.hostStore a v).wl = true := by
  have hr : (s.hostStore a v).resets = s.resets := State.Of.writeLocation_resets s v (locate a)
  rcases State.Of.hostStore_wl s a v with h | ⟨-, hlo, h⟩
  · rw [hr, h]
    exact w
  · rw [hr, h]
    exact Memory.write_wf v hlo a.isLt w

end Sys2Proof.Machine
end

