-- ==== Sys2Proof/Laws/Step.lean ====
section
/-! SUPPORT. What one step can do, by the host's next event. -/

namespace Sys2Proof.Machine

theorem step_idle {s : State} (h : s.host.pending = []) : step s = .next s := by
  unfold step runNext
  rw [h]

theorem step_event {s : State} {e : HostEvent} {rest : List HostEvent} (h : s.host.pending = e :: rest) :
    step s = runEvent exec e (s.takeEvent rest) := by
  unfold step runNext
  rw [h]

theorem runWrite_cmd (c : Byte) (s : State) : runWrite exec 0 c s = runCommand exec c s := rfl

theorem runWrite_store {a : HostAddr} (h : a ≠ 0) (v : Byte) (s : State) :
    runWrite exec a v s = .next (s.hostStore a v) := by
  unfold runWrite
  split
  · exact absurd (locate_eq_cmd.mp ‹_›) h
  · rfl

theorem runCommand_ok {c : Byte} {i : Instr} (h : decode c = .ok i) (s : State) : runCommand exec c s = exec i s := by
  simp only [runCommand, h]

theorem runCommand_error {c : Byte} {r : DecodeRejection} (h : decode c = .error r) (s : State) :
    runCommand exec c s = .next (s.rejectCommand r) := by
  simp only [runCommand, h]

/-- The only rejection of the decoder names the byte it was given. -/
theorem decode_error {c : Byte} {r : DecodeRejection} (h : decode c = .error r) : r = .illegalCommand c := by
  unfold decode at h
  split at h
  · cases h
  · cases h
    rfl

/-- The commands of the unit are those of the unit with any hash, at SHA-256. -/
theorem execWith_unitHash : execWith unitHash = exec := by
  funext i s
  cases i <;> rfl

/-- Everything a step can do: stay idle, answer a read, reset, store, run a command, or reject a command byte. -/
theorem step_cases (s : State) :
    (s.host.pending = [] ∧ step s = .next s) ∨
    ∃ e rest, s.host.pending = e :: rest ∧
      ((∃ a, e = .read a ∧ step s = .next ((s.takeEvent rest).deliverRead (s.hostRead a))) ∨
       (e = .hardReset ∧ step s = .next (s.takeEvent rest).resetUnit) ∨
       (∃ a v, e = .write a v ∧ a ≠ 0 ∧ step s = .next ((s.takeEvent rest).hostStore a v)) ∨
       (∃ c i, e = .write 0 c ∧ decode c = .ok i ∧ step s = exec i (s.takeEvent rest)) ∨
       (∃ c, e = .write 0 c ∧ decode c = .error (.illegalCommand c) ∧
          step s = .next ((s.takeEvent rest).raise .illegalCommand c))) := by
  cases hp : s.host.pending with
  | nil => exact .inl ⟨rfl, step_idle hp⟩
  | cons e rest =>
    refine .inr ⟨e, rest, rfl, ?_⟩
    have hs := step_event hp
    cases e with
    | read a => exact .inl ⟨a, rfl, hs⟩
    | hardReset => exact .inr (.inl ⟨rfl, hs⟩)
    | write a v =>
      by_cases ha : a = 0
      · subst ha
        cases hd : decode v with
        | ok i => exact .inr (.inr (.inr (.inl ⟨v, i, rfl, hd, hs.trans (runCommand_ok hd _)⟩)))
        | error r =>
          cases decode_error hd
          exact .inr (.inr (.inr (.inr ⟨v, rfl, hd, hs.trans (runCommand_error hd _)⟩)))
      · exact .inr (.inr (.inl ⟨a, v, rfl, ha, hs.trans (runWrite_store ha v _)⟩))

end Sys2Proof.Machine
end

