-- ==== Sys2Proof/Laws/Script.lean ====
section
/-! SUPPORT. What the lines of a host script do when a run takes them at the port, one event a step: a mnemonic's bytes
written, a byte read, a command. -/

namespace Sys2Proof.Machine

/-- Runs follow one another. -/
theorem runsTo_append {k l : Nat} {s t u : State} (h : runsTo k s t) (g : runsTo l t u) : runsTo (k + l) s u := by
  induction k generalizing s with
  | zero =>
    cases h
    simpa using g
  | succ k ih =>
    obtain ⟨v, hv, h⟩ := h
    rw [Nat.add_right_comm]
    exact ⟨v, hv, ih h⟩

theorem runsTo_one {s t : State} (h : step s = .next t) : runsTo 1 s t := ⟨t, h, rfl⟩

/-- The state with this list of events to come. -/
def State.Of.awaiting (s : State) (es : List HostEvent) : State := s.takeEvent es

theorem State.Of.awaiting_of_pending {s : State} {es : List HostEvent} (h : s.host.pending = es) : s = s.awaiting es := by
  subst h
  rfl

/-- A write that is no command: one step stores it. -/
theorem runsTo_write (s : State) {a : HostAddr} (ha : a ≠ 0) (v : Byte) (rest : List HostEvent) :
    runsTo 1 (s.awaiting (.write a v :: rest)) ((s.hostStore a v).awaiting rest) := by
  refine runsTo_one ((step_event (s := s.awaiting (.write a v :: rest)) rfl).trans ((runWrite_store ha v _).trans ?_))
  refine congrArg Host.Outcome.next ?_
  show ((s.awaiting (.write a v :: rest)).takeEvent rest).writeLocation v (locate a) = (s.writeLocation v (locate a)).awaiting rest
  cases locate a with
  | wl n => cases h : s.wlLock <;> simp [State.Of.writeLocation, State.Of.awaiting, State.Of.takeEvent, h]
  | _ => rfl

/-- A read: one step, and the host has the byte. -/
theorem runsTo_read (s : State) (a : HostAddr) (rest : List HostEvent) :
    runsTo 1 (s.awaiting (.read a :: rest)) ((s.deliverRead (s.hostRead a)).awaiting rest) :=
  runsTo_one ((step_event (s := s.awaiting (.read a :: rest)) rfl).trans (by cases h : locate a <;> simp only
    [runEvent, State.Of.hostRead, h] <;> rfl))

/-- A command whose meaning leaves the host's side alone: one step. -/
theorem runsTo_command {s t : State} {i : Instr} (rest : List HostEvent)
    (h : exec i (s.awaiting rest) = .next (t.awaiting rest)) :
    runsTo 1 (s.awaiting (issueOf (encode i) :: rest)) (t.awaiting rest) := by
  refine runsTo_one ((step_event (s := s.awaiting (issueOf (encode i) :: rest)) rfl).trans (Eq.trans ?_ h))
  cases i <;> rfl

/-- Where the byte of a mnemonic lies (R29). -/
theorem locate_mn (k : Fin 12) (j : Fin 8) :
    locate (BitVec.ofNat 15 (0x0080 + 8 * k.val + j.val)) = .mn k j := by
  have h : (BitVec.ofNat 15 (0x0080 + 8 * k.val + j.val)).toNat = 0x0080 + 8 * k.val + j.val := by
    rw [BitVec.toNat_ofNat]
    omega
  rcases locate_cases (BitVec.ofNat 15 (0x0080 + 8 * k.val + j.val)) with
    ⟨g, -⟩ | ⟨i, g, -⟩ | ⟨i, g, -⟩ | ⟨i, g, -⟩ | ⟨i, g, -⟩ | ⟨-, g, -⟩ | ⟨k', j', g, e⟩ | ⟨g, -, -⟩ | ⟨g, -⟩ <;>
    rw [h] at g <;> first
    | (exfalso; omega)
    | skip
  rw [e, show k' = k from Fin.ext (by omega), show j' = j from Fin.ext (by omega)]

/-- One byte of a mnemonic, written at the port. -/
theorem runsTo_mnByte (s : State) (k : Fin 12) (j : Fin 8) (v : Byte) (rest : List HostEvent) :
    runsTo 1 (s.awaiting (.write (BitVec.ofNat 15 (0x0080 + 8 * k.val + j.val)) v :: rest))
      (State.Of.awaiting { s with mn := s.mn.set k (s.mn[k].set j v) } rest) := by
  have h0 : (BitVec.ofNat 15 (0x0080 + 8 * k.val + j.val)) ≠ 0 := fun h => by
    have h' := locate_mn k j
    rw [h] at h'
    cases h'
  have h := runsTo_write s h0 v rest
  rwa [show s.hostStore (BitVec.ofNat 15 (0x0080 + 8 * k.val + j.val)) v =
    { s with mn := s.mn.set k (s.mn[k].set j v) } by simp only [State.Of.hostStore, locate_mn]; rfl] at h

/-- A mnemonic into which the bytes of `words` at the listed places have been copied. -/
def copyBytes (words : Vector Token 12) (places : List (Fin 12 × Fin 8)) (m : Vector Token 12) : Vector Token 12 :=
  places.foldl (fun m q => m.set q.1 (m[q.1].set q.2 words[q.1][q.2])) m

theorem copyBytes_getElem (words : Vector Token 12) (places : List (Fin 12 × Fin 8)) (m : Vector Token 12)
    (k : Fin 12) (j : Fin 8) :
    (copyBytes words places m)[k][j] = if (k, j) ∈ places then words[k][j] else m[k][j] := by
  induction places generalizing m with
  | nil => simp [copyBytes]
  | cons q places ih =>
    obtain ⟨k', j'⟩ := q
    have h := ih (m.set k' (m[k'].set j' words[k'][j']))
    simp only [copyBytes, List.foldl_cons, List.mem_cons, Prod.mk.injEq] at h ⊢
    rw [h]
    split
    · simp [*]
    · by_cases hk : k = k'
      · subst hk
        by_cases hj : j = j'
        · subst hj
          simp
        · simp [*, Fin.val_inj, Ne.symm hj]
      · simp [*, Fin.val_inj, Ne.symm hk]

/-- Every place of a mnemonic, in the order of the addresses. -/
def mnPlaces : List (Fin 12 × Fin 8) := (List.finRange 12).flatMap fun k => (List.finRange 8).map fun j => (k, j)

theorem mem_mnPlaces (k : Fin 12) (j : Fin 8) : (k, j) ∈ mnPlaces := by simp [mnPlaces]

theorem copyBytes_all {places : List (Fin 12 × Fin 8)} (all : ∀ k j, (k, j) ∈ places) (words m : Vector Token 12) :
    copyBytes words places m = words := by
  ext k hk j hj : 2
  have h := copyBytes_getElem words places m ⟨k, hk⟩ ⟨j, hj⟩
  rw [if_pos (all _ _)] at h
  simpa only [Fin.getElem_fin] using h

/-- The host address of a byte of `MN`. -/
def mnAddr (q : Fin 12 × Fin 8) : HostAddr := BitVec.ofNat 15 (0x0080 + 8 * q.1.val + q.2.val)

/-- Bytes of a mnemonic, written at the port one after another. -/
theorem runsTo_mnBytes (s : State) (words : Vector Token 12) (places : List (Fin 12 × Fin 8)) (rest : List HostEvent) :
    runsTo places.length (s.awaiting (places.map (fun q => .write (mnAddr q) words[q.1][q.2]) ++ rest))
      (State.Of.awaiting { s with mn := copyBytes words places s.mn } rest) := by
  induction places generalizing s with
  | nil => rfl
  | cons q places ih =>
    have h := runsTo_append (runsTo_mnByte s q.1 q.2 words[q.1][q.2] _) (ih _)
    rwa [Nat.add_comm] at h

/-- Bytes read at the port one after another. -/
theorem runsTo_reads (s : State) (addrs : List HostAddr) (rest : List HostEvent) :
    runsTo addrs.length (s.awaiting (addrs.map .read ++ rest))
      (State.Of.awaiting { s with host := { s.host with reads := s.host.reads ++ addrs.map s.hostRead } } rest) := by
  induction addrs generalizing s with
  | nil =>
    show _ = _
    simp [State.Of.awaiting, State.Of.takeEvent]
  | cons a addrs ih =>
    have h := runsTo_append (runsTo_read s a _) (ih _)
    rw [Nat.add_comm] at h
    refine Eq.mp (congrArg (runsTo _ _) ?_) h
    simp only [State.Of.awaiting, State.Of.takeEvent, State.Of.deliverRead, List.append_assoc, List.map_cons,
      List.singleton_append]
    rfl

/-- The writes that load a mnemonic and its count (R197, steps 1 and 4). -/
theorem expand_loadMnemonic (words : Vector Token 12) :
    expandScript (loadMnemonic words) =
      mnPlaces.map (fun q => .write (mnAddr q) words[q.1][q.2]) ++ [.write 0x000C 12] := by
  have token : ∀ k : Fin 12, tokenWrites (Config.mnBase + Config.wordBytes * k.val) words[k] =
      (List.finRange 8).map fun j => .write (mnAddr (k, j)) words[k][j] := fun k => by
    apply List.ext_getElem
    · simp [tokenWrites, writesFrom]
    · intro i h1 h2
      simp [tokenWrites, writesFrom, mnAddr, Config.mnBase, Config.wordBytes]
  simp only [expandScript, loadMnemonic, List.flatMap_append, List.flatMap_map, ScriptLine.expand, token, mnPlaces,
    List.map_flatMap, List.map_map]
  rfl

/-- Loading a mnemonic at the port (R197, steps 1 and 4). -/
theorem runsTo_loadMnemonic (s : State) (words : Vector Token 12) (rest : List HostEvent) :
    runsTo 97 (s.awaiting (expandScript (loadMnemonic words) ++ rest))
      (State.Of.awaiting { s with mn := words, mnCount := 12 } rest) := by
  have h := runsTo_append (runsTo_mnBytes s words mnPlaces (.write 0x000C 12 :: rest))
    (runsTo_write _ (by decide) 12 rest)
  rw [copyBytes_all mem_mnPlaces] at h
  rw [expand_loadMnemonic, List.append_assoc]
  exact h

/-- The reads of `MN[0..11]` (R197, step 10). -/
theorem expand_readMnemonic : expandScript readMnemonic = (mnPlaces.map mnAddr).map .read := by
  simp only [expandScript, readMnemonic, List.flatMap_assoc, List.flatMap_map, ScriptLine.expand, mnPlaces,
    List.map_flatMap, List.map_map]
  rfl

/-- What those reads answer. -/
theorem hostRead_mnemonic (s : State) : (mnPlaces.map mnAddr).map s.hostRead = s.mn.toList.flatMap (fun t => t.toList) := by
  have h : ∀ k : Fin 12, (List.finRange 8).map (fun j => s.hostRead (mnAddr (k, j))) = s.mn[k].toList := fun k => by
    apply List.ext_getElem
    · simp
    · intro i h1 h2
      simp only [List.getElem_map, State.Of.hostRead, mnAddr, locate_mn]
      simp [State.Of.readLocation]
  have g : s.mn.toList = (List.finRange 12).map fun k => s.mn[k] := by
    apply List.ext_getElem
    · simp
    · intro i h1 h2
      simp
  simp only [mnPlaces, List.map_flatMap, List.map_map, g, List.flatMap_map, Function.comp_def, h]

end Sys2Proof.Machine
end

