-- ==== Sys2Proof/Tests/Slice0.lean ====
section
/-! SUPPORT. The model's own tests: well-formedness, decoding of words written out from R92, one step at a time on small
states with results taken from spec/95_test_vectors.md, and a witness for the hypotheses of each statement. -/

namespace Sys2Proof.Tests

open Sys2Proof Sys2Proof.Machine Sys2Proof.Claims

/-! ### Helpers -/

/-- The state of an outcome. -/
def stateOf : Host.Outcome State Fault Refusal → Option State
  | .next s => some s
  | .fault _ => none
  | .refused _ => none

/-- What `f` says of the next state. -/
def after {α : Type} (o : Host.Outcome State Fault Refusal) (f : State → α) : Option α := (stateOf o).map f

/-- The reset state whose host does `es`. -/
def hostDoes (es : List HostEvent) : State := { State.reset with host := ⟨es, []⟩ }

/-- A buffer of the bytes given, then of zeros. -/
def block (bytes : List Byte) : Block := Vector.ofFn fun i => bytes.getD i.val 0

/-- Operands of the field commands. -/
def operands (a b : Byte) : State := { State.reset with gfa := a, gfb := b }

/-- A locked wordlist with `tokT 0` and `tokT 0x0F` as its first entries and zeros after them. -/
def smallWl : State :=
  { State.reset with
    wlLock := true, mnCount := 12, entLen := 16,
    wl := [(0x4000, 0x57), (0x4001, 0x30), (0x4002, 0x30), (0x4003, 0x30),
      (0x4008, 0x57), (0x4009, 0x30), (0x400A, 0x30), (0x400B, 0x46)],
    mn := Vector.ofFn fun _ => tokT 0 }

/-- Two shares with the indices that `SS_RECON` wants. -/
def shares (a b : Block) (len : Byte) : State :=
  { State.reset with saIdx := 1, sbIdx := 2, saLen := len, sbLen := len, sa := a, sb := b }

/-- Consecutive wordlist bytes, `f a` at each of the `n` addresses from `a` on. -/
def fill (f : Nat → Byte) : Nat → Nat → Memory
  | 0, _ => []
  | n + 1, a => Memory.put 0 a (f a) (fill f n (a + 1))

theorem read_fill (f : Nat → Byte) (n a x : Nat) :
    Memory.read 0 (fill f n a) x = if a ≤ x ∧ x < a + n then f x else 0 := by
  induction n generalizing a x with
  | zero =>
    rw [if_neg (by omega)]
    rfl
  | succ n ih =>
    have h0 : Memory.read 0 (fill f n (a + 1)) a = unspecified 0 a := by
      rw [ih, if_neg (by omega)]
      rfl
    simp only [fill, Memory.read_put 0 a x (f a) _ h0, ih]
    split
    · rename_i hx
      rw [if_pos (by omega), hx]
    · by_cases h : a + 1 ≤ x ∧ x < a + 1 + n
      · rw [if_pos h, if_pos (by omega)]
      · rw [if_neg h, if_neg (by omega)]

/-- The bytes of a wordlist whose entry `i` begins with the two bytes of the number `i`. -/
def numberedByte (a : Nat) : Byte :=
  if (a - 0x4000) % 8 = 0 then BitVec.ofNat 8 ((a - 0x4000) / 8)
  else if (a - 0x4000) % 8 = 1 then BitVec.ofNat 8 ((a - 0x4000) / 8 / 256)
  else 0

/-- A locked wordlist of pairwise different entries, with an entropy of 16 bytes and a count of 12 words. -/
def uniqueWl : State :=
  { State.reset with wlLock := true, mnCount := 12, entLen := 16, wl := fill numberedByte 16384 0x4000 }

theorem uniqueWl_byte (i : Fin 2048) (j : Fin 8) : (uniqueWl.wlToken i)[j] = numberedByte (0x4000 + 8 * i.val + j.val) := by
  have h := read_fill numberedByte 16384 0x4000 (0x4000 + 8 * i.val + j.val)
  rw [if_pos (by omega)] at h
  have e : (uniqueWl.wlToken i)[j] = Memory.read 0 (fill numberedByte 16384 0x4000) (wlAddr i j) := by
    simp only [State.Of.wlToken, Fin.getElem_fin, Vector.getElem_ofFn]
    rfl
  exact e.trans h

theorem numberedByte_low (k : Fin 2048) : numberedByte (0x4000 + 8 * k.val + 0) = BitVec.ofNat 8 k.val := by
  have e : 0x4000 + 8 * k.val + 0 - 0x4000 = 8 * k.val := by omega
  simp only [numberedByte, e, Nat.mul_mod_right, if_true, Nat.mul_div_cancel_left k.val (show 0 < 8 by decide)]

theorem numberedByte_high (k : Fin 2048) : numberedByte (0x4000 + 8 * k.val + 1) = BitVec.ofNat 8 (k.val / 256) := by
  have e : 0x4000 + 8 * k.val + 1 - 0x4000 = 8 * k.val + 1 := by omega
  have m : (8 * k.val + 1) % 8 = 1 := by omega
  have d : (8 * k.val + 1) / 8 = k.val := by omega
  simp [numberedByte, e, m, d]

theorem uniqueWl_unique : uniqueWl.wordlistUnique := by
  intro i j h
  have h0 := (uniqueWl_byte i 0).symm.trans ((congrArg (fun t : Token => t[(0 : Fin 8)]) h).trans (uniqueWl_byte j 0))
  have h1 := (uniqueWl_byte i 1).symm.trans ((congrArg (fun t : Token => t[(1 : Fin 8)]) h).trans (uniqueWl_byte j 1))
  have n0 := congrArg BitVec.toNat ((numberedByte_low i).symm.trans (h0.trans (numberedByte_low j)))
  have n1 := congrArg BitVec.toNat ((numberedByte_high i).symm.trans (h1.trans (numberedByte_high j)))
  simp only [BitVec.toNat_ofNat] at n0 n1
  exact Fin.ext (by omega)

/-- An address above all that are listed reads as unlisted. -/
theorem unlisted_above {m : Memory} {a top : Nat} (h : ∀ c ∈ m, c.1 < top) (ha : top ≤ a) : Memory.read 0 m a = 0 := by
  induction m with
  | nil => rfl
  | cons c m ih =>
    obtain ⟨b, v⟩ := c
    have hb := h (b, v) List.mem_cons_self
    exact (if_neg fun e : a = b => by simp only at hb; omega).trans (ih fun c hc => h c (List.mem_cons_of_mem _ hc))

theorem tokT_nine : (tokT 9)[0] ≠ 0 := by decide

/-- No entry of the small wordlist is `tokT 9`: entries 0 and 1 differ in byte 3, the others begin with 0. -/
theorem smallWl_absent (i : Fin 2048) : smallWl.wlToken i ≠ tokT 9 := by
  intro h
  by_cases h0 : i = 0
  · subst h0
    revert h
    decide
  by_cases h1 : i = 1
  · subst h1
    revert h
    decide
  have hi : 2 ≤ i.val := by omega
  have e : (smallWl.wlToken i)[0] = Memory.read 0 smallWl.wl (0x4000 + 8 * i.val) := by
    simp only [State.Of.wlToken, Vector.getElem_ofFn]
    rfl
  have z : Memory.read 0 smallWl.wl (0x4000 + 8 * i.val) = 0 := unlisted_above (top := 0x4010) (by decide) (by omega)
  exact tokT_nine ((congrArg (fun t : Token => t[0]) h).symm.trans (e.trans z))

theorem smallWl_lookup_absent : wlIndex smallWl.wlToken (tokT 9) = none :=
  List.find?_eq_none.mpr fun i _ => by simpa using smallWl_absent i

/-! ### Well-formedness: each check refuses an ill-formed term -/

theorem test_wf_command_byte_low : commandByteWellFormed 0x05 = false := by decide
theorem test_wf_command_byte_codec : commandByteWellFormed 0x12 = false := by decide
theorem test_wf_command_byte_recon : commandByteWellFormed 0x2F = false := by decide
theorem test_wf_command_byte_top : commandByteWellFormed 0xFE = false := by decide
theorem test_wf_transaction_too_wide : transactionWellFormed 0x1000000 = false := by decide
theorem test_wf_transaction_read_with_data : transactionWellFormed 0x000A01 = false := by decide
theorem test_wf_script_buffer_too_long :
    (ScriptLine.ldbuf .ent (List.replicate 17 0)).wellFormed = false := by decide
theorem test_wf_script_token_past_the_end : (ScriptLine.ldtok 0x7FF9 (tokT 0)).wellFormed = false := by decide

/-! ### Decoding: the words of R92, bit by bit -/

theorem test_decode_nop : decode 0b00000000 = .ok .nop := by decide
theorem test_decode_gfAdd : decode 0b00000001 = .ok .gfAdd := by decide
theorem test_decode_gfSub : decode 0b00000010 = .ok .gfSub := by decide
theorem test_decode_gfMul : decode 0b00000011 = .ok .gfMul := by decide
theorem test_decode_gfInv : decode 0b00000100 = .ok .gfInv := by decide
theorem test_decode_mnDecode : decode 0b00010000 = .ok .mnDecode := by decide
theorem test_decode_mnEncode : decode 0b00010001 = .ok .mnEncode := by decide
theorem test_decode_ssRecon : decode 0b00100000 = .ok .ssRecon := by decide
theorem test_decode_mvEntSa : decode 0b00110000 = .ok .mvEntSa := by decide
theorem test_decode_mvEntSb : decode 0b00110001 = .ok .mvEntSb := by decide
theorem test_decode_mvSecEnt : decode 0b00110010 = .ok .mvSecEnt := by decide
theorem test_decode_sreset : decode 0b11111111 = .ok .sreset := by decide
theorem test_decode_illegal : decode 0b00000101 = .error (.illegalCommand 0x05) := by decide
theorem test_opcode_rows_do_not_overlap :
    opcodeMap.Pairwise (fun r q => r.pattern &&& q.mask ≠ q.pattern) := by decide
theorem test_table_word_reaches_the_step :
    after (step (State.reset.withFetchWord 8 0x10)) State.Of.err = some 10 := by decide

/-! ### Commands (expected results: 95_test_vectors.md sections 3 to 6) -/

theorem test_nop_clears_err : after (exec .nop { State.reset with err := 7, faults := 0x0080 })
    (fun t => (t.err, t.faults)) = some (0, 0x0080) := by decide
theorem test_gfAdd : after (exec .gfAdd (operands 0x53 0xCA)) State.Of.gfr = some 0x99 := by decide
theorem test_gfSub : after (exec .gfSub (operands 0x77 0x53)) State.Of.gfr = some 0x24 := by decide
theorem test_gfMul : after (exec .gfMul (operands 0x57 0x83)) State.Of.gfr = some 0xC1 := by decide
theorem test_gfMul_reduces : after (exec .gfMul (operands 0x80 0x80)) State.Of.gfr = some 0x9A := by decide
theorem test_gfInv : after (exec .gfInv (operands 0x53 0)) (fun t => (t.gfr, t.err)) = some (0xCA, 0) := by decide +kernel
theorem test_gfInv_zero : after (exec .gfInv { operands 0 0 with gfr := 0x24 })
    (fun t => (t.gfr, t.err, t.faults)) = some (0x24, 7, 0x0080) := by decide
theorem test_mnDecode_permissive :
    after (exec .mnDecode { smallWl with mn := smallWl.mn.set 11 (tokT 15), ent := block [1, 2, 3], entLen := 0 })
      (fun t => (t.err, t.entLen, t.ent[0], t.ent[15])) = some (0, 16, 0, 0) := by decide +kernel
/-- The small wordlist with two unknown words in `MN`, in slots 5 and 9. -/
def twoUnknown : State := { smallWl with mn := (smallWl.mn.set 9 (tokT 9)).set 5 (tokT 9), ent := block [1] }
theorem twoUnknown_slot : firstUnknownSlot twoUnknown.wlToken twoUnknown.mn = some 5 := by
  show List.find? (fun slot : Fin 12 => (wlIndex twoUnknown.wlToken twoUnknown.mn[slot]).isNone)
    [0, 1, 2, 3, 4, 5, 6, 7, 8, 9, 10, 11] = some 5
  have u : (wlIndex twoUnknown.wlToken twoUnknown.mn[(5 : Fin 12)]).isNone = true :=
    congrArg Option.isNone smallWl_lookup_absent
  iterate 5 rw [List.find?_cons_of_neg (by decide +kernel)]
  exact List.find?_cons_of_pos (p := fun slot : Fin 12 => (wlIndex twoUnknown.wlToken twoUnknown.mn[slot]).isNone) u
theorem test_mnDecode_unknown_lowest_slot :
    exec .mnDecode twoUnknown = .next { twoUnknown with err := 2, einfo := 5, faults := 0x0004 } := by
  have h : decodeMnemonic unitHash twoUnknown = twoUnknown.raise .unknownWord (slotDetail 5) := by
    simp [decodeMnemonic, twoUnknown_slot, Config.mnWords, show twoUnknown.wlLock = true from rfl,
      show twoUnknown.mnCount = 12 from rfl]
  exact congrArg Host.Outcome.next h
theorem test_mnEncode_last_word :
    after (exec .mnEncode { smallWl with mnCount := 0 }) (fun t => (t.err, t.mnCount, t.mn[0], t.mn[11][0])) =
      some (0, 12, tokT 0, 0) := by decide +kernel
theorem test_mnEncode_wrong_length :
    after (exec .mnEncode { smallWl with entLen := 17 }) (fun t => (t.err, t.faults)) = some (3, 8) := by decide
theorem test_ssRecon_short :
    after (exec .ssRecon { shares (block [0x0F, 0x0F, 0x0F]) (block [0x1E, 0x2D, 0x78]) 3 with sec := block [9, 9, 9, 9] })
      (fun t => (t.err, t.secLen, t.sec[0], t.sec[1], t.sec[2], t.sec[3])) = some (0, 3, 0x00, 0x11, 0x22, 9) := by
  decide +kernel
theorem test_ssRecon_length_before_index :
    after (exec .ssRecon { shares (block []) (block []) 16 with sbLen := 15, sbIdx := 3 }) State.Of.err = some 5 := by decide
theorem test_mvEntSa : after (exec .mvEntSa { State.reset with ent := block [5, 6], entLen := 16, saIdx := 7 })
    (fun t => (t.sa[1], t.saLen, t.saIdx)) = some (6, 16, 7) := by decide
theorem test_mvEntSb : after (exec .mvEntSb { State.reset with ent := block [5, 6], entLen := 5 })
    (fun t => (t.sb[1], t.sbLen)) = some (6, 5) := by decide
theorem test_mvSecEnt : after (exec .mvSecEnt { State.reset with sec := block [5, 6], secLen := 3 })
    (fun t => (t.ent[1], t.entLen)) = some (6, 3) := by decide
theorem test_sreset : after (exec .sreset { State.reset with faults := 0x0400, strict := true, wlLock := true })
    (fun t => (t.faults, t.strict, t.wlLock)) = some (0, false, false) := by decide

/-! ### The hash (R216) and the checksum -/

theorem test_sha256_abc : sha256 [0x61, 0x62, 0x63] =
    [0xba, 0x78, 0x16, 0xbf, 0x8f, 0x01, 0xcf, 0xea, 0x41, 0x41, 0x40, 0xde, 0x5d, 0xae, 0x22, 0x23,
     0xb0, 0x03, 0x61, 0xa3, 0x96, 0x17, 0x7a, 0x9c, 0xb4, 0x10, 0xff, 0x61, 0xf2, 0x00, 0x15, 0xad] := by decide +kernel
theorem test_checksum_of_ones : cks unitHash (Vector.ofFn fun _ => 0xFF) = 0x5 := by decide +kernel

/-! ### The host port and its notation (section 6, R97) -/

theorem test_ctrl_lock_is_sticky :
    after (step { hostDoes [.write 0x0005 0x00] with strict := true, wlLock := true }) (fun t => t.hostRead 0x0005) =
      some 0x02 := by decide
theorem test_ctrl_reserved_bits :
    after (step { hostDoes [.write 0x0005 0xFD] with wlLock := true }) (fun t => t.hostRead 0x0005) = some 0x03 := by decide
theorem test_read_only_write : after (step (hostDoes [.write 0x0050 0x55])) (fun t => t.sec[0]) = some 0 := by decide
theorem test_read_returns : after (step { hostDoes [.read 0x00AB] with mn := Vector.ofFn fun k => tokT (Fin.ofNat 2048 k.val) })
    (fun t => t.host.reads) = some [0x35] := by decide
theorem test_locked_wordlist_write :
    after (step { hostDoes [.write 0x4000 0x5A] with wl := [(0x4000, 0x57)], wlLock := true })
      (fun t => t.hostRead 0x4000) = some 0x57 := by decide
theorem test_wordlist_write_zero_unlists :
    after (step { hostDoes [.write 0x4000 0x00] with wl := [(0x4000, 0x57)] }) State.Of.wl = some [] := by decide
theorem test_illegal_command : after (step (hostDoes [.write 0x0000 0xFE])) (fun t => (t.err, t.einfo, t.faults)) =
    some (8, 0xFE, 0x0100) := by decide
theorem test_transaction_write : transactionOf (.write 0x0008 0x03) = some 0x800803 := by decide
theorem test_transaction_read : transactionOf (.read 0x000A) = some 0x000A00 := by decide
theorem test_script_token : (ScriptLine.ldwl 2047 (tokT 2047)).expand.head? = some (.write 0x7FF8 0x57) := by decide
theorem test_word_token : (tokenOfWord [0x61, 0x6E, 0x79]).map Vector.toList = some [0x61, 0x6E, 0x79, 0, 0, 0, 0, 0] := by
  decide

/-! ### Other values of the parameters (R5, P2): tokens of 16 bytes, addresses of 16 bits -/

theorem test_wide_mn_place : locate (0x0091 : HostAddr 16) 16 = .mn 1 1 := by decide
theorem test_wide_wl_end : locate (0xBFFF : HostAddr 16) 16 = .wl 0xBFFF ∧ locate (0xC000 : HostAddr 16) 16 = .reserved := by
  decide
theorem test_wide_addresses_fit : addressesFit 16 16 ∧ addressesFit 8 15 ∧ ¬addressesFit 16 15 := by
  simp [addressesFit, Config.mnBase, Config.wlBase, Config.wlTop]
/-- With a hash of the single byte 0x90 the checksum is 9. -/
theorem test_other_hash : (cks (fun _ => [0x90]) (block [])).toNat = 9 := by decide
theorem test_wide_step :
    (stepWith (fun _ => []) (State.Of.afterReset 0 ⟨[issueOf 0x10], []⟩ 16 : State.Of 16 16)) =
      .next ((State.Of.afterReset 0 ⟨[], []⟩ 16).raise .wordlistNotLoaded 0) := rfl

/-! ### The recovery flow (R197): its length, and its last access -/

theorem test_recovery_reads_last_byte :
    (expandScript (recoveryFlow (Vector.ofFn fun _ => tokT 0) (Vector.ofFn fun _ => tokT 1))).getLast? = some (.read 0x00DF) := by
  decide +kernel

/-! ### Witnesses: the hypotheses of each statement are met, by the boundary values of their ranges -/

/-- StepRunsTheDecodedCommand. -/
theorem witness_step : (hostDoes [.write 0x0000 0xFF]).host.pending = .write 0x0000 0xFF :: [] ∧
    decode 0xFF = .ok .sreset ∧ Instr.sreset.wellFormed = true := ⟨rfl, rfl, rfl⟩
/-- IllegalCommandByteRaises, at both ends of each range. -/
theorem witness_illegal : (hostDoes [.write 0x0000 0x05]).host.pending = .write 0x0000 0x05 :: [] ∧
    illegalByte 0x05 ∧ illegalByte 0x0F ∧ illegalByte 0x12 ∧ illegalByte 0x1F ∧ illegalByte 0x21 ∧ illegalByte 0x2F ∧
    illegalByte 0x33 ∧ illegalByte 0xFE := by
  refine ⟨rfl, ?_⟩
  unfold illegalByte
  decide
/-- FieldLawsHold, InverseIsUnique, GfInvWritesTheInverse, LagrangeAtZeroRecoversTheSecret. -/
theorem witness_field : (0x01 : Byte) ≠ 0 ∧ (0xFF : Byte) ≠ 0 ∧ gfMul 0 0x55 = 0 ∧ gfMul 0x01 0x01 = 0x01 ∧
    State.reset.gfa = 0 ∧ (operands 0x01 0).gfa ≠ 0 ∧ (0x01 : Byte) ≠ 0x02 ∧ (0x02 : Byte) ≠ 0 ∧
    gfInv (0x01 ^^^ 0x02) = some 0xF6 := by decide +kernel
/-- HashFollowsItsScheduleAndRounds, with the first and last words of each range. -/
theorem witness_schedule : (List.replicate 16 (0 : Word32)).length = 16 ∧ 15 < 16 ∧ 16 ≤ 16 ∧ 63 < 64 := by decide
/-- MnDecodeFollowsItsSteps: locked out; a count of 11 and of 13; an unknown word in the first and in the last slot. -/
theorem witness_mnDecode_errors : State.reset.wlLock = false ∧
    ({ smallWl with mnCount := 11 }.wlLock = true ∧ { smallWl with mnCount := 11 }.mnCount ≠ 12) ∧
    { smallWl with mnCount := 13 }.mnCount ≠ 12 ∧ smallWl.mnCount = 12 ∧
    wlIndex smallWl.wlToken (tokT 9) = none ∧ wlIndex smallWl.wlToken (tokT 0) = some 0 :=
  ⟨rfl, ⟨rfl, by decide⟩, by decide, rfl, smallWl_lookup_absent, by decide +kernel⟩
/-- MnDecodeFollowsItsSteps, clause of the unknown word, at slot 11: the words before it are known. -/
theorem witness_mnDecode_unknown :
    (∀ i, smallWl.wlToken i ≠ (smallWl.mn.set 11 (tokT 9))[(11 : Fin 12)]) ∧
    ∀ k : Fin 12, k < 11 → ∃ i, smallWl.wlToken i = (smallWl.mn.set 11 (tokT 9))[k] := by
  refine ⟨smallWl_absent, fun k hk => ⟨0, ?_⟩⟩
  revert k
  decide
/-- MnDecodeFollowsItsSteps, success and checksum clauses: every word is entry 0 or entry 1 of the wordlist. -/
theorem witness_mnDecode_known :
    (∀ k : Fin 12, leastIndex smallWl.wlToken smallWl.mn[k] 0) ∧ smallWl.strict = false ∧
    cks unitHash (Vector.ofFn fun _ => 0) = 0x3 ∧ (0x3 : BitVec 4) ≠ BitVec.ofNat 4 0 ∧
    { smallWl with strict := true }.strict = true := by
  refine ⟨fun k => ⟨?_, fun j hj => absurd hj (by omega)⟩, rfl, by decide +kernel, by decide, rfl⟩
  revert k
  decide
/-- MnEncodeFollowsItsSteps: a hash with a first byte; locked out, lengths 15 and 17, length 16. -/
theorem witness_mnEncode : (fun _ : List Byte => [(0x90 : Byte)]) (block []).toList = 0x90 :: [] ∧ State.reset.wlLock = false ∧ smallWl.wlLock = true ∧ { smallWl with entLen := 15 }.entLen ≠ 16 ∧
    { smallWl with entLen := 17 }.entLen ≠ 16 ∧ smallWl.entLen = 16 := by decide
/-- RecoveryScriptReadsTheMnemonic: the host's script, with more to come after it. -/
def scriptState : State :=
  let a := block [0x0F, 0x0F, 0x0F]
  let b := block [0x1E, 0x2D, 0x78]
  { uniqueWl with
    host := ⟨expandScript (recoveryFlow (uniqueWl.mnemonicOf unitHash a) (uniqueWl.mnemonicOf unitHash b)) ++ [.read 1], []⟩ }
theorem witness_script : scriptState.wlLock = true ∧ scriptState.wordlistUnique ∧
    scriptState.host.pending = expandScript (recoveryFlow (scriptState.mnemonicOf unitHash (block [0x0F, 0x0F, 0x0F]))
      (scriptState.mnemonicOf unitHash (block [0x1E, 0x2D, 0x78]))) ++ [.read 1] ∧
    (∀ i : Fin 16, shareByteAt1 (block [0x00, 0x11, 0x22])[i] (block [0x0F, 0x1E, 0x2D])[i] = (block [0x0F, 0x0F, 0x0F])[i]) ∧
    ∀ i : Fin 16, shareByteAt2 (block [0x00, 0x11, 0x22])[i] (block [0x0F, 0x1E, 0x2D])[i] = (block [0x1E, 0x2D, 0x78])[i] :=
  ⟨rfl, uniqueWl_unique, rfl, by decide, by decide⟩
/-- StrictAcceptsOneLastWordOfSixteen, EncodeThenDecodeReturnsTheEntropy, RecoveryFlowRestoresTheMnemonic. -/
theorem witness_unique : uniqueWl.wordlistUnique ∧ uniqueWl.wlLock = true ∧ uniqueWl.mnCount = 12 ∧ uniqueWl.entLen = 16 ∧
    uniqueWl.strict = false ∧ { uniqueWl with strict := true }.wordlistUnique ∧ { uniqueWl with strict := true }.strict = true :=
  ⟨uniqueWl_unique, rfl, rfl, rfl, rfl, uniqueWl_unique, rfl⟩
/-- DuplicateEntriesBreakTheRoundTrip: entries 2 and 3 of the small wordlist are equal; the first word has index 3. -/
theorem witness_duplicates : (2 : Fin 2048) < 3 ∧ leastIndex smallWl.wlToken (smallWl.wlToken 3) 2 ∧
    smallWl.wlLock = true ∧ smallWl.entLen = 16 ∧ smallWl.strict = false ∧
    (unpack132 (block [0x00, 0x60]) (cks (fun _ => []) (block [0x00, 0x60])))[(0 : Fin 12)] = 3 ∧
    (unpack132 (block (List.replicate 14 0 ++ [0x01, 0x80])) (cks (fun _ => [])
      (block (List.replicate 14 0 ++ [0x01, 0x80]))))[(10 : Fin 12)] = 3 := by
  refine ⟨by decide, ⟨by decide, fun j hj => ?_⟩, rfl, rfl, rfl, by decide +kernel, by decide +kernel⟩
  have h2 : j = 0 ∨ j = 1 := by omega
  rcases h2 with rfl | rfl <;> decide
/-- TestWordlistIsUnique. -/
theorem witness_tokT : tokT 2047 = tokT 2047 := rfl
/-- SsReconFollowsItsSteps: lengths 15 and 16; indices (2, 1) and (1, 3); common lengths 0 and 17; 1 and 16. -/
theorem witness_ssRecon :
    { shares (block []) (block []) 16 with sbLen := 15 }.saLen ≠ { shares (block []) (block []) 16 with sbLen := 15 }.sbLen ∧
    ¬({ shares (block []) (block []) 16 with saIdx := 2, sbIdx := 1 }.saIdx = 1 ∧
      { shares (block []) (block []) 16 with saIdx := 2, sbIdx := 1 }.sbIdx = 2) ∧
    ¬({ shares (block []) (block []) 16 with sbIdx := 3 }.sbIdx = 2) ∧
    (shares (block []) (block []) 0).saLen.toNat = 0 ∧ 16 < (shares (block []) (block []) 17).saLen.toNat ∧
    (shares (block []) (block []) 17).saLen = (shares (block []) (block []) 17).sbLen ∧
    (shares (block []) (block []) 1).saIdx = 1 ∧ (shares (block []) (block []) 1).sbIdx = 2 ∧
    1 ≤ (shares (block []) (block []) 1).saLen.toNat ∧ (shares (block []) (block []) 16).saLen.toNat ≤ 16 := by decide
/-- ReconstructionRecoversTheSecret, on the secret and blinding bytes of section 5.1 (their first three). -/
theorem witness_reconstruction :
    let S := block [0x00, 0x11, 0x22]
    let B := block [0x0F, 0x1E, 0x2D]
    let s := shares (Vector.ofFn fun i => shareByteAt1 S[i] B[i]) (Vector.ofFn fun i => shareByteAt2 S[i] B[i]) 16
    s.saIdx = 1 ∧ s.sbIdx = 2 ∧ s.saLen = 16 ∧ s.sbLen = 16 ∧ s.sa = Vector.ofFn (fun i : Fin 16 => shareByteAt1 S[i] B[i]) ∧
      s.sb = Vector.ofFn (fun i : Fin 16 => shareByteAt2 S[i] B[i]) := ⟨rfl, rfl, rfl, rfl, rfl, rfl⟩
/-- UndefinedInverseOnlyFromGfInv, CommandSucceedsOrRaises, CommandsWriteOnlyTheirResults, CommandsAreIdempotent,
EveryPairIsSomeValidPair: a command that succeeds and commands that fail; a location that is no result. -/
theorem witness_commands : exec .nop State.reset = .next State.reset.succeed ∧ State.reset.succeed.err = 0 ∧
    exec .gfInv State.reset = .next (State.reset.raise .undefinedInverse 0) ∧
    (State.reset.raise .undefinedInverse 0).err ≠ 0 ∧
    exec .ssRecon State.reset = .next (State.reset.raise .unsupportedShareIndices 0) ∧
    isOutcome (locate (0x0003 : HostAddr)) = false ∧ writesOnSuccess State.reset .nop (locate (0x0003 : HostAddr)) = false ∧
    isFaults (locate (0x000A : HostAddr)) = false ∧ Instr.nop ≠ .sreset ∧ Instr.gfInv ≠ .sreset :=
  ⟨rfl, rfl, rfl, by decide, rfl, rfl, rfl, rfl, by decide, by decide⟩
/-- CommandsReadOnlyTheirOperands: states that differ in everything but the operands. -/
theorem witness_reads : agreeOnReads (operands 1 2) { operands 1 2 with gfr := 9, err := 3, wlLock := true } .gfAdd ∧
    exec .gfAdd (operands 1 2) = .next ((operands 1 2).withGfr 3).succeed ∧
    writesOnSuccess (operands 1 2) .gfAdd .gfr = true := ⟨⟨rfl, rfl⟩, rfl, rfl⟩
/-- SresetIsTheHardwareReset, ResetLeavesTheTable. -/
theorem witness_reset : (hostDoes [.hardReset]).host.pending = .hardReset :: [] ∧
    exec .sreset State.reset = .next (State.afterReset 1 ⟨[], []⟩) := ⟨rfl, rfl⟩
/-- HostViewAfterReset, IgnoredWritesChangeNothing: both ends of each range of addresses. -/
theorem witness_addresses : reservedAddress 0x06 ∧ reservedAddress 0x07 ∧ reservedAddress 0x0B ∧ reservedAddress 0x0F ∧
    reservedAddress 0x14 ∧ reservedAddress 0x1F ∧ reservedAddress 0x60 ∧ reservedAddress 0x7F ∧ reservedAddress 0xE0 ∧
    reservedAddress 0x3FFF ∧ readOnlyAddress 0x01 ∧ readOnlyAddress 0x04 ∧ readOnlyAddress 0x0A ∧ readOnlyAddress 0x0E ∧
    readOnlyAddress 0x50 ∧ readOnlyAddress 0x5F := by
  simp [reservedAddress, readOnlyAddress]
/-- HostReadHasNoSideEffect, IgnoredWritesChangeNothing, CtrlWriteSetsTheModeBits, HostAccessesRaiseNoError. -/
theorem witness_accesses : (hostDoes [.read 0x3FFF]).host.pending = .read 0x3FFF :: [] ∧
    (hostDoes [.write 0x0006 0x55]).host.pending = .write 0x0006 0x55 :: [] ∧
    (hostDoes [.write 0x0005 0x02]).host.pending = .write 0x0005 0x02 :: [] ∧ (0x0005 : HostAddr) ≠ 0x0000 ∧
    { hostDoes [.write 0x7FFF 0x55] with wlLock := true }.wlLock = true := ⟨rfl, rfl, rfl, by decide, rfl⟩
/-- HostWriteStoresOneByte: both ends of each range, the wordlist while it is unlocked. -/
theorem witness_writable : Memory.wf (hostDoes [.write 0x4000 0x5A]).resets (hostDoes [.write 0x4000 0x5A]).wl = true ∧
    (hostDoes [.write 0x4000 0x5A]).host.pending = .write 0x4000 0x5A :: [] ∧
    (hostDoes [.write 0x4000 0x5A]).wlLock = false ∧ writable State.reset 0x08 ∧ writable State.reset 0x09 ∧
    writable State.reset 0x10 ∧ writable State.reset 0x13 ∧ writable State.reset 0x20 ∧ writable State.reset 0x4F ∧
    writable State.reset 0x80 ∧ writable State.reset 0xDF ∧ writable State.reset 0x4000 ∧ writable State.reset 0x7FFF := by
  refine ⟨rfl, rfl, rfl, ?_⟩
  simp [writable, State.reset, State.afterReset]
/-- LockedWordlistIsImmutable, FaultsAreSticky: an event that resets and one that does not, with the step of each. -/
theorem witness_events : (.write 0x0000 0xFF : HostEvent).isReset = true ∧ (.hardReset : HostEvent).isReset = true ∧
    (.write 0x4000 0x5A : HostEvent).isReset = false ∧
    { hostDoes [.write 0x4000 0x5A] with wlLock := true, faults := 2 }.host.pending = .write 0x4000 0x5A :: [] ∧
    step { hostDoes [.write 0x4000 0x5A] with wlLock := true, faults := 2 } =
      .next { State.reset with wlLock := true, faults := 2 } ∧
    step (hostDoes [.hardReset]) = .next (State.afterReset 1 ⟨[], []⟩) ∧
    step (hostDoes [.write 0x0000 0x04]) = .next (State.reset.raise .undefinedInverse 0) ∧
    (State.reset.raise .undefinedInverse 0).err ≠ 0 ∧ ¬(State.reset.raise .undefinedInverse 0).noFaultRecorded := by
  refine ⟨rfl, rfl, rfl, rfl, rfl, rfl, rfl, by decide, ?_⟩
  unfold State.Of.noFaultRecorded
  decide
/-- EveryStepKeepsTheInvariant: a state that satisfies it, after an error, with a listed wordlist byte, and its step. -/
theorem witness_invariant :
    { hostDoes [.write 0x0000 0x00] with
      err := 7, faults := 0x0080, secLen := 16, wl := [(0x4000, 0x57)] }.Inv ∧
    step { hostDoes [.write 0x0000 0x00] with err := 7, faults := 0x0080, secLen := 16, wl := [(0x4000, 0x57)] } =
      .next { State.reset with faults := 0x0080, secLen := 16, wl := [(0x4000, 0x57)] } := by
  refine ⟨⟨by decide, by decide, by decide, by decide, ?_, by decide⟩, rfl⟩
  unfold einfoFits
  decide

end Sys2Proof.Tests
end

section
/-! SUPPORT. The state of the unit: what the register map answers and ignores, what a step other than a reset can do, the sticky
bits, the locked wordlist, and the invariant of the machine. -/

namespace Sys2Proof.Machine
open Sys2Proof.Claims

variable {w p : Nat}

/-! ### The decoder, from its answer -/

/-- Every row of the opcode map matches its pattern exactly, and the pattern is the byte of its command (R92). -/
theorem opcodeMap_row : ∀ row ∈ opcodeMap,
    row.mask = BitVec.allOnes 8 ∧ row.pattern = encode row.instr ∧ decode row.pattern = .ok row.instr := by
  decide

/-- The decoder reads a command from that command's own byte alone (R92). -/
theorem eq_encode_of_decode {c : Byte} {i : Instr} (h : decode c = .ok i) : c = encode i := by
  unfold decode at h
  split at h
  · rename_i row hf
    cases h
    obtain ⟨hmask, hpattern, -⟩ := opcodeMap_row row (List.mem_of_find?_eq_some hf)
    have hc : c &&& row.mask = row.pattern := by simpa using List.find?_some hf
    rw [← hpattern, ← hc, hmask, BitVec.and_allOnes]
  · cases h

/-- A byte that the decoder rejects is one of the illegal ones (R93). -/
theorem commandByteWellFormed_of_decode_error {c : Byte} {r : DecodeRejection} (h : decode c = .error r) :
    commandByteWellFormed c = false := by
  have hne : ∀ row ∈ opcodeMap, c.toNat ≠ row.pattern.toNat := fun row hrow hc => by
    rw [BitVec.eq_of_toNat_eq hc, (opcodeMap_row row hrow).2.2] at h
    cases h
  have hlt : c.toNat < 256 := c.isLt
  simp [opcodeMap] at hne
  simp [commandByteWellFormed]
  omega

/-! ### Where an address leads, and what a read there answers (R35) -/

/-- The bytes of the four buffers. -/
theorem locate_buffers (i : Fin 16) :
    locate (BitVec.ofNat 15 (0x0020 + i.val)) = .ent i ∧ locate (BitVec.ofNat 15 (0x0030 + i.val)) = .sa i ∧
    locate (BitVec.ofNat 15 (0x0040 + i.val)) = .sb i ∧ locate (BitVec.ofNat 15 (0x0050 + i.val)) = .sec i := by
  revert i
  decide

/-- Every address from 0x4000 on is one of the wordlist region. -/
theorem locate_wordlist {a : HostAddr} (h : 0x4000 ≤ a.toNat) : locate a = .wl a.toNat :=
  locate_eq_wl.mpr ⟨rfl, h⟩

theorem locate_reserved {a : HostAddr} (h : reservedAddress a.toNat) : locate a = .reserved := by
  unfold reservedAddress at h
  rcases locate_cases a with ⟨hlow, hl⟩ | ⟨i, ha, -⟩ | ⟨i, ha, -⟩ | ⟨i, ha, -⟩ | ⟨i, ha, -⟩ | ⟨-, -, hl⟩ |
    ⟨k, j, ha, -⟩ | ⟨-, -, hl⟩ | ⟨ha, -⟩
  · rw [hl]
    generalize a.toNat = n at h hlow
    interval_cases n <;> simp [registerMap] at h ⊢
  case inr.inr.inr.inr.inr.inl => exact hl
  case inr.inr.inr.inr.inr.inr.inr.inl => exact hl
  all_goals omega

/-- A store at a read-only address is ignored (R36). -/
theorem State.Of.hostStore_readOnly (s : State) {a : HostAddr} (v : Byte) (h : readOnlyAddress a.toNat) :
    s.hostStore a v = s := by
  unfold readOnlyAddress at h
  unfold State.Of.hostStore
  rcases locate_cases a with ⟨hlow, hl⟩ | ⟨i, ha, -⟩ | ⟨i, ha, -⟩ | ⟨i, ha, -⟩ | ⟨i, ha, hl⟩ | ⟨hlo, hhi, -⟩ |
    ⟨k, j, ha, -⟩ | ⟨ha, -, -⟩ | ⟨ha, -⟩
  · rw [hl]
    generalize a.toNat = n at h hlow
    interval_cases n <;> simp [registerMap, State.Of.writeLocation] at h ⊢
  case inr.inr.inr.inr.inl => rw [hl]; rfl
  all_goals omega

/-- A store in the locked wordlist is ignored (R36, R69). -/
theorem State.Of.hostStore_locked {s : State} {a : HostAddr} (v : Byte) (h : 0x4000 ≤ a.toNat) (hl : s.wlLock = true) :
    s.hostStore a v = s := by
  simp [State.Of.hostStore, State.Of.writeLocation, locate_wordlist h, hl]

theorem State.Of.hostStore_reserved (s : State) {a : HostAddr} (v : Byte) (h : reservedAddress a.toNat) :
    s.hostStore a v = s := by
  rw [State.Of.hostStore, locate_reserved h]
  rfl

/-- `FAULTS` is read as two bytes, low byte first (R26). -/
theorem faults_bytes (f : BitVec 16) : (faultsLow f).toNat + 256 * (faultsHigh f).toNat = f.toNat := by
  have := f.isLt
  simp only [faultsLow, faultsHigh, BitVec.extractLsb'_toNat, Nat.shiftRight_eq_div_pow]
  omega

theorem ctrlByte_toNat (strict wlLock : Bool) : (ctrlByte strict wlLock).toNat = strict.toNat + 2 * wlLock.toNat := by
  revert strict wlLock
  decide

/-- A read of `CTRL` answers `(WL_LOCK << 1) or STRICT` (R27). -/
theorem ctrlByte_toNat_or (strict wlLock : Bool) :
    (ctrlByte strict wlLock).toNat = (wlLock.toNat <<< 1) ||| strict.toNat := by
  revert strict wlLock
  decide

/-- A byte of a wordlist entry, at the address where the host reads it (R34). -/
theorem State.Of.hostRead_wlToken (s : State) (i : Fin 2048) (j : Fin 8) :
    s.hostRead (BitVec.ofNat 15 (0x4000 + 8 * i.val + j.val)) = (s.wlToken i)[j] := by
  have ha : (BitVec.ofNat 15 (0x4000 + 8 * i.val + j.val)).toNat = 0x4000 + 8 * i.val + j.val := by
    rw [BitVec.toNat_ofNat]
    omega
  rw [State.Of.hostRead_eq, locate_wordlist (by omega), ha]
  simp [State.Of.readLocation, State.Of.wlToken, wlAddr, Config.wlBase]

/-! ### What a command leaves alone -/

/-- A command other than `SRESET` writes neither `CTRL` nor the wordlist (R71). -/
theorem exec_keeps_ctrl_and_wordlist {i : Instr} {s t : State} (hi : i ≠ .sreset) (h : exec i s = .next t) :
    t.strict = s.strict ∧ t.wlLock = s.wlLock ∧ t.wl = s.wl ∧ t.resets = s.resets := by
  rcases exec_cases h with rfl | ⟨e, d, rfl⟩
  · cases i
    case sreset => exact absurd rfl hi
    all_goals exact ⟨rfl, rfl, rfl, rfl⟩
  · exact ⟨rfl, rfl, rfl, rfl⟩

@[simp] theorem successState_err (s : State) (i : Instr) : (successState s i).err = 0 := by cases i <;> rfl

@[simp] theorem successState_einfo (s : State) (i : Instr) : (successState s i).einfo = 0 := by cases i <;> rfl

theorem successState_faults {i : Instr} (hi : i ≠ .sreset) (s : State) : (successState s i).faults = s.faults := by
  cases i
  case sreset => exact absurd rfl hi
  all_goals rfl

/-! ### The sticky bits of `FAULTS` (R26) -/

/-- Every error code is at most 10 (R24, R230). -/
theorem ErrorCode.errByte_le (e : ErrorCode) : e.errByte.toNat ≤ 10 := by cases e <;> decide

/-- The error's own bit of `FAULTS` is set. -/
theorem State.Of.raise_recorded (s : State.Of w p) (e : ErrorCode) (d : Byte) :
    (s.raise e d).faults.getLsbD (s.raise e d).err.toNat = true := by
  have hbit : e.faultBit.getLsbD e.errByte.toNat = true := by cases e <;> rfl
  simp [hbit]

theorem State.Of.raise_not_noFaultRecorded (s : State.Of w p) (e : ErrorCode) (d : Byte) :
    ¬(s.raise e d).noFaultRecorded := fun h => by
  have hrec := s.raise_recorded e d
  rw [h] at hrec
  simp at hrec

/-- No bit of `FAULTS` is cleared by an error. -/
theorem State.Of.raise_faults_sticky (s : State.Of w p) (e : ErrorCode) (d : Byte) :
    s.faults &&& (s.raise e d).faults = s.faults := by
  ext k
  simp +contextual

/-- A command that leaves an error has recorded it. -/
theorem exec_records_error {i : Instr} {s t : State} (h : exec i s = .next t) (ht : t.err ≠ 0) : ¬t.noFaultRecorded := by
  rcases exec_cases h with rfl | ⟨e, d, rfl⟩
  · exact absurd (successState_err s i) ht
  · exact s.raise_not_noFaultRecorded e d

/-- Only `SRESET` clears a bit of `FAULTS` (R191). -/
theorem exec_faults_sticky {i : Instr} {s t : State} (hi : i ≠ .sreset) (h : exec i s = .next t) :
    s.faults &&& t.faults = s.faults := by
  rcases exec_cases h with rfl | ⟨e, d, rfl⟩
  · rw [successState_faults hi, BitVec.and_self]
  · exact s.raise_faults_sticky e d

/-! ### Steps that reset the unit, and steps that do not -/

/-- A step whose event is a reset, in whichever way, leaves a reset state (R260). -/
theorem step_reset {s : State} {e : HostEvent} {rest : List HostEvent} (h : s.host.pending = e :: rest)
    (hr : e.isReset = true) : step s = .next (State.afterReset (s.resets + 1) ⟨rest, s.host.reads⟩) := by
  rw [step_event h]
  cases e with
  | read a => cases hr
  | hardReset => rfl
  | write a v =>
    obtain ⟨rfl, rfl⟩ : a = 0 ∧ v = 0xFF := by simpa [HostEvent.Of.isReset] using hr
    rfl

/-- Everything a step can do on an event that is no reset. -/
theorem step_cases_of_not_reset {s t : State} {e : HostEvent} {rest : List HostEvent} (h : s.host.pending = e :: rest)
    (hr : e.isReset = false) (hs : step s = .next t) :
    (∃ v, t = (s.takeEvent rest).deliverRead v) ∨ (∃ a v, t = (s.takeEvent rest).hostStore a v) ∨
    (∃ i, i ≠ .sreset ∧ exec i (s.takeEvent rest) = .next t) ∨
    ∃ c, t = (s.takeEvent rest).raise .illegalCommand c := by
  rcases step_cases s with ⟨hp, -⟩ | ⟨e', rest', hp, hcase⟩
  · simp [hp] at h
  obtain ⟨rfl, rfl⟩ : e' = e ∧ rest' = rest := by simpa [hp] using h
  rcases hcase with ⟨a, rfl, ht⟩ | ⟨rfl, -⟩ | ⟨a, v, rfl, -, ht⟩ | ⟨c, i, rfl, hd, ht⟩ | ⟨c, rfl, -, ht⟩
  · cases ht.symm.trans hs
    exact .inl ⟨_, rfl⟩
  · cases hr
  · cases ht.symm.trans hs
    exact .inr (.inl ⟨a, v, rfl⟩)
  · refine .inr (.inr (.inl ⟨i, ?_, ht.symm.trans hs⟩))
    rintro rfl
    rw [eq_encode_of_decode hd] at hr
    cases hr
  · cases ht.symm.trans hs
    exact .inr (.inr (.inr ⟨c, rfl⟩))

/-- No event but a reset clears a bit of `FAULTS`. -/
theorem step_faults_sticky {s t : State} {e : HostEvent} {rest : List HostEvent} (h : s.host.pending = e :: rest)
    (hr : e.isReset = false) (hs : step s = .next t) : s.faults &&& t.faults = s.faults := by
  rcases step_cases_of_not_reset h hr hs with ⟨v, rfl⟩ | ⟨a, v, rfl⟩ | ⟨i, hi, ht⟩ | ⟨c, rfl⟩
  · exact BitVec.and_self
  · simp [State.Of.hostStore]
  · exact exec_faults_sticky (s := s.takeEvent rest) hi ht
  · exact State.Of.raise_faults_sticky (s.takeEvent rest) _ _

/-! ### The locked wordlist (R69) -/

/-- No host store clears `WL_LOCK`. -/
theorem State.Of.hostStore_keeps_lock {s : State} (a : HostAddr) (v : Byte) (h : s.wlLock = true) :
    (s.hostStore a v).wlLock = true := by
  unfold State.Of.hostStore
  cases locate a with
  | ctrl => simp [State.Of.writeLocation, wlLockOfWrite, h]
  | wl n => simp [State.Of.writeLocation, h]
  | _ => exact h

/-- A locked wordlist's memory stays as it is, and locked, on every event but a reset. -/
theorem step_keeps_locked_memory {s t : State} {e : HostEvent} {rest : List HostEvent}
    (h : s.host.pending = e :: rest) (hr : e.isReset = false) (hs : step s = .next t) (hl : s.wlLock = true) :
    t.wlLock = true ∧ t.wl = s.wl ∧ t.resets = s.resets := by
  rcases step_cases_of_not_reset h hr hs with ⟨v, rfl⟩ | ⟨a, v, rfl⟩ | ⟨i, hi, ht⟩ | ⟨c, rfl⟩
  · exact ⟨hl, rfl, rfl⟩
  · have hlock : (s.takeEvent rest).wlLock = true := hl
    refine ⟨State.Of.hostStore_keeps_lock a v hlock, ?_, State.Of.writeLocation_resets _ v _⟩
    rcases State.Of.hostStore_wl (s.takeEvent rest) a v with hwl | ⟨hfree, -, -⟩
    · exact hwl
    · simp [hl] at hfree
  · obtain ⟨-, hlock, hwl, hres⟩ := exec_keeps_ctrl_and_wordlist hi ht
    exact ⟨hlock.trans hl, hwl, hres⟩
  · exact ⟨hl, rfl, rfl⟩

/-! ### The invariant of the machine -/

/-- On success `EINFO` is 0 as R25 asks. -/
theorem einfoFits_success : einfoFits 0 0 := by simp [einfoFits]

/-- The errors that carry no detail leave `EINFO` 0 (R25). -/
theorem einfoFits_noDetail {e : ErrorCode} (h : e ≠ .unknownWord ∧ e ≠ .checksumMismatch ∧ e ≠ .illegalCommand) :
    einfoFits e.errByte 0 := by
  cases e <;> simp_all [einfoFits, ErrorCode.errByte, ErrorCode.code]

theorem einfoFits_slotDetail (slot : Fin 12) : einfoFits ErrorCode.unknownWord.errByte (slotDetail slot) := by
  have hslot : (slotDetail slot).toNat ≤ 11 := by
    rw [slotDetail, BitVec.toNat_ofNat]
    omega
  simpa [einfoFits, ErrorCode.errByte, ErrorCode.code] using hslot

theorem checksumDetail_toNat (embedded computed : BitVec 4) :
    (checksumDetail embedded computed).toNat = 16 * embedded.toNat + computed.toNat := by
  have he := embedded.isLt
  have hc := computed.isLt
  simp only [checksumDetail, BitVec.toNat_or, BitVec.toNat_shiftLeft, BitVec.toNat_setWidth]
  rw [Nat.mod_eq_of_lt (by omega : embedded.toNat < 2 ^ 8), Nat.mod_eq_of_lt (by omega : computed.toNat < 2 ^ 8),
    Nat.mod_eq_of_lt (by omega), ← Nat.shiftLeft_add_eq_or_of_lt hc]
  omega

theorem einfoFits_checksumDetail {embedded computed : BitVec 4} (h : computed ≠ embedded) :
    einfoFits ErrorCode.checksumMismatch.errByte (checksumDetail embedded computed) := by
  have hne : computed.toNat ≠ embedded.toNat := fun he => h (BitVec.eq_of_toNat_eq he)
  have he := embedded.isLt
  have hc := computed.isLt
  have hd : (checksumDetail embedded computed).toNat / 16 ≠ (checksumDetail embedded computed).toNat % 16 := by
    rw [checksumDetail_toNat]
    omega
  simpa [einfoFits, ErrorCode.errByte, ErrorCode.code] using hd

theorem einfoFits_illegalCommand {c : Byte} (h : commandByteWellFormed c = false) :
    einfoFits ErrorCode.illegalCommand.errByte c := by
  simpa [einfoFits, ErrorCode.errByte, ErrorCode.code] using h

/-- `MN_DECODE` leaves a detail that fits its error (R144). -/
theorem decodeMnemonic_einfoFits (hash : List Byte → List Byte) (s : State) :
    einfoFits (decodeMnemonic hash s).err (decodeMnemonic hash s).einfo := by
  rcases decodeMnemonic_cases hash s with ⟨-, h⟩ | ⟨-, -, h⟩ | ⟨-, -, slot, -, h⟩ | ⟨-, -, -, h⟩ <;> rw [h]
  · exact einfoFits_noDetail (by decide)
  · exact einfoFits_noDetail (by decide)
  · exact einfoFits_slotDetail slot
  · rcases decodeKnownWords_cases hash s with ⟨-, hne, h⟩ | ⟨-, h⟩ <;> rw [h]
    · exact einfoFits_checksumDetail hne
    · exact einfoFits_success

/-- `MN_ENCODE` leaves a detail that fits its error (R145). -/
theorem encodeMnemonic_einfoFits (hash : List Byte → List Byte) (s : State) :
    einfoFits (encodeMnemonic hash s).err (encodeMnemonic hash s).einfo := by
  rcases encodeMnemonic_cases hash s with ⟨-, h⟩ | ⟨-, -, h⟩ | ⟨-, -, h⟩ <;> rw [h]
  · exact einfoFits_noDetail (by decide)
  · exact einfoFits_noDetail (by decide)
  · exact einfoFits_success

/-- Every command leaves in `EINFO` the detail of what it leaves in `ERR`, whatever they held before (R25). -/
theorem exec_einfoFits {i : Instr} {s t : State} (h : exec i s = .next t) : einfoFits t.err t.einfo := by
  cases i <;> simp only [exec] at h
  case gfInv =>
    rcases execGfInv_cases s with ⟨-, hh⟩ | ⟨v, -, hh⟩ <;> rw [hh] at h <;> cases h
    · exact einfoFits_noDetail (by decide)
    · exact einfoFits_success
  case mnDecode => cases h; exact decodeMnemonic_einfoFits unitHash s
  case mnEncode => cases h; exact encodeMnemonic_einfoFits unitHash s
  case ssRecon =>
    rcases execSsRecon_cases s with ⟨-, hh⟩ | ⟨-, -, hh⟩ | ⟨-, -, -, -, hh⟩ | ⟨-, -, -, -, -, hh⟩ <;>
      rw [hh] at h <;> cases h
    iterate 3 exact einfoFits_noDetail (by decide)
    exact einfoFits_success
  all_goals cases h; exact einfoFits_success

/-- `SEC_LEN` stays at most 16: only `SS_RECON` gives it another value than 0, and checks the length first (R33, R172). -/
theorem exec_secLen_le {i : Instr} {s t : State} (h : exec i s = .next t) (hs : s.secLen.toNat ≤ 16) :
    t.secLen.toNat ≤ 16 := by
  cases i
  case ssRecon =>
    rcases execSsRecon_cases s with ⟨-, hh⟩ | ⟨-, -, hh⟩ | ⟨-, -, -, -, hh⟩ | ⟨-, -, -, -, hlen, hh⟩ <;>
      cases hh.symm.trans h
    iterate 3 exact hs
    exact hlen
  case sreset =>
    cases h
    exact Nat.zero_le 16
  all_goals
    rcases exec_cases h with rfl | ⟨e, d, rfl⟩ <;> exact hs

/-- The reset state, whatever its unspecified bytes, satisfies the invariant. -/
theorem inv_afterReset (n : Nat) (h : HostPort) : (State.afterReset n h).Inv where
  memory_wf := Memory.nil_wf n 8
  faults_reserved := by simp
  err_code := Nat.zero_le 10
  err_recorded := fun hne => absurd rfl hne
  einfo_fits := einfoFits_success
  secLen_fits := Nat.zero_le 16

/-- The invariant says nothing of the host's side. -/
theorem State.Of.Inv.withHost {s : State} (h : s.Inv) (port : HostPort) : State.Of.Inv { s with host := port } where
  memory_wf := h.memory_wf
  faults_reserved := h.faults_reserved
  err_code := h.err_code
  err_recorded := h.err_recorded
  einfo_fits := h.einfo_fits
  secLen_fits := h.secLen_fits

/-- A host store keeps the invariant. -/
theorem State.Of.Inv.hostStore {s : State} (h : s.Inv) (a : HostAddr) (v : Byte) : (s.hostStore a v).Inv where
  memory_wf := State.Of.hostStore_wf a v h.memory_wf
  faults_reserved := by simpa [State.Of.hostStore] using h.faults_reserved
  err_code := by simpa [State.Of.hostStore] using h.err_code
  err_recorded := by simpa [State.Of.hostStore] using h.err_recorded
  einfo_fits := by simpa [State.Of.hostStore] using h.einfo_fits
  secLen_fits := by simpa [State.Of.hostStore] using h.secLen_fits

/-- No error has a reserved bit of `FAULTS` as its own (R26). -/
theorem raise_faults_reserved {s : State.Of w p} (h : s.faults &&& 0xF801 = 0) (e : ErrorCode) (d : Byte) :
    (s.raise e d).faults &&& 0xF801 = 0 := by
  have hbit : e.faultBit &&& 0xF801 = 0 := by cases e <;> rfl
  rw [State.Of.raise_faults, BitVec.and_comm, BitVec.and_or_distrib_left, BitVec.and_comm _ s.faults, h,
    BitVec.and_comm _ e.faultBit, hbit]
  rfl

/-- An error keeps the invariant, where its detail is the one R25 gives it. -/
theorem State.Of.Inv.raise {s : State} (h : s.Inv) {e : ErrorCode} {d : Byte} (hd : einfoFits e.errByte d) :
    (s.raise e d).Inv where
  memory_wf := h.memory_wf
  faults_reserved := raise_faults_reserved h.faults_reserved e d
  err_code := e.errByte_le
  err_recorded := fun _ => s.raise_recorded e d
  einfo_fits := hd
  secLen_fits := h.secLen_fits

/-- Every command keeps the invariant. -/
theorem State.Of.Inv.of_exec {i : Instr} {s t : State} (h : s.Inv) (ht : exec i s = .next t) : t.Inv := by
  by_cases hi : i = .sreset
  · subst hi
    cases ht
    exact inv_afterReset _ _
  have hfits := exec_einfoFits ht
  have hlen := exec_secLen_le ht h.secLen_fits
  obtain ⟨-, -, hwl, hres⟩ := exec_keeps_ctrl_and_wordlist hi ht
  rcases exec_cases ht with rfl | ⟨e, d, rfl⟩
  · have hfaults := successState_faults hi s
    exact {
      memory_wf := by rw [hwl, hres]; exact h.memory_wf
      faults_reserved := by rw [hfaults]; exact h.faults_reserved
      err_code := by simp
      err_recorded := fun hne => absurd (successState_err s i) hne
      einfo_fits := hfits
      secLen_fits := hlen }
  · exact h.raise hfits

/-- Every step keeps the invariant. -/
theorem State.Of.Inv.of_step {s t : State} (h : s.Inv) (ht : step s = .next t) : t.Inv := by
  rcases step_cases s with ⟨-, hs⟩ | ⟨e, rest, -, ⟨a, -, hs⟩ | ⟨-, hs⟩ | ⟨a, v, -, -, hs⟩ | ⟨c, i, -, -, hs⟩ | ⟨c, -, hd, hs⟩⟩
  case inr.inr.inr.inr.inl => exact (h.withHost _).of_exec (hs.symm.trans ht)
  all_goals cases hs.symm.trans ht
  · exact h
  · exact h.withHost _
  · exact inv_afterReset _ _
  · exact (h.withHost _).hostStore a v
  · exact (h.withHost _).raise (einfoFits_illegalCommand (commandByteWellFormed_of_decode_error hd))

end Sys2Proof.Machine

namespace Sys2Proof.Proofs
open Sys2Proof.Machine Sys2Proof.Claims

/-- Settles O58, by the lemma of each kind of step: a read and an idle step leave the unit alone, a store and an error
keep each clause, a reset establishes them all, and a command writes a fitting detail whatever was there before. -/
theorem everyStepKeepsTheInvariant : Obligations.EveryStepKeepsTheInvariant := fun _ _ h ht => h.of_step ht

/-- Settles O57. -/
theorem resetSatisfiesTheInvariant : Obligations.ResetSatisfiesTheInvariant := ⟨inv_afterReset 0 _, inv_afterReset⟩

/-- Settles O48: each address leads to its row of the register map, and the row names the state that is read. -/
theorem registerMapReads : Obligations.RegisterMapReads := by
  intro s
  have buffers : ∀ i : Fin 16, s.hostRead (BitVec.ofNat 15 (0x0020 + i.val)) = s.ent[i] ∧
      s.hostRead (BitVec.ofNat 15 (0x0030 + i.val)) = s.sa[i] ∧
      s.hostRead (BitVec.ofNat 15 (0x0040 + i.val)) = s.sb[i] ∧
      s.hostRead (BitVec.ofNat 15 (0x0050 + i.val)) = s.sec[i] := fun i => by
    obtain ⟨hent, hsa, hsb, hsec⟩ := locate_buffers i
    simp only [State.Of.hostRead_eq, hent, hsa, hsb, hsec, State.Of.readLocation, and_self]
  have mnemonic : ∀ (k : Fin 12) (j : Fin 8),
      s.hostRead (BitVec.ofNat 15 (0x0080 + 8 * k.val + j.val)) = s.mn[k][j] := fun k j => by
    rw [State.Of.hostRead_eq, locate_mn, State.Of.readLocation]
  exact ⟨rfl, rfl, rfl, faults_bytes s.faults, ctrlByte_toNat s.strict s.wlLock, rfl, rfl, rfl, rfl, rfl, rfl, rfl, rfl,
    rfl, rfl, buffers, mnemonic, s.hostRead_wlToken⟩

/-- Settles O51. -/
theorem ignoredWritesChangeNothing : Obligations.IgnoredWritesChangeNothing := by
  refine ⟨fun s a rest ha hp => ?_, fun s a v rest hp ha => ?_⟩
  · have hread : (s.takeEvent rest).hostRead a = 0x00 := by
      rw [State.Of.hostRead_eq, locate_reserved ha, State.Of.readLocation]
    rw [step_event hp, runEvent, hread]
    rfl
  · have hne : a ≠ 0 := by
      rintro rfl
      simp [reservedAddress, readOnlyAddress] at ha
    rw [step_event hp, runEvent, runWrite_store hne]
    have ignored : (s.takeEvent rest).hostStore a v = s.takeEvent rest := by
      rcases ha with hres | hro | ⟨hlo, hlock⟩
      · exact State.Of.hostStore_reserved _ v hres
      · exact State.Of.hostStore_readOnly _ v hro
      · exact State.Of.hostStore_locked v hlo hlock
    rw [ignored]
    rfl

/-- Settles O54: an event that is no reset leaves the locked wordlist memory as it is, and what is read of it is a function
of that memory. -/
theorem lockedWordlistIsImmutable : Obligations.LockedWordlistIsImmutable := by
  intro s t e rest hp hs
  refine ⟨fun hr hl => ?_, fun hr => ?_⟩
  · obtain ⟨hlock, hwl, hres⟩ := step_keeps_locked_memory hp hr hs hl
    refine ⟨hlock, fun i => ?_, fun a ha => ?_⟩
    · simp only [State.Of.wlToken, hwl, hres]
    · simp only [State.Of.hostRead_eq, locate_wordlist ha, State.Of.readLocation, hwl, hres]
  · cases (step_reset hp hr).symm.trans hs
    rfl

/-- Settles O55. -/
theorem faultsAreSticky : Obligations.FaultsAreSticky := by
  intro s t e rest hp hs
  refine ⟨fun hr => ?_, fun hr => ?_, ?_⟩
  · have hsticky := step_faults_sticky hp hr hs
    refine ⟨hsticky, fun ht => ?_⟩
    unfold State.Of.noFaultRecorded at *
    rw [← hsticky, ht]
    exact BitVec.and_zero
  · cases (step_reset hp hr).symm.trans hs
    rfl
  · rintro c rfl ht
    rw [step_event hp, runEvent, runWrite_cmd] at hs
    cases hd : decode c with
    | ok i => exact exec_records_error ((runCommand_ok hd _).symm.trans hs) ht
    | error r =>
      cases (runCommand_error hd _).symm.trans hs
      exact State.Of.raise_not_noFaultRecorded _ _ _

/-- Settles O42: the hardware reset and `SRESET` both leave a state of the form `State.afterReset`, with the table's
values. -/
theorem resetLeavesTheTable : Obligations.ResetLeavesTheTable := by
  have faults_reset : faultsLow 0 = 0x00 ∧ faultsHigh 0 = 0x00 := by decide
  have ctrl_reset : ctrlByte false false = 0x00 := by decide
  refine ⟨fun n h => ⟨?_, faults_reset.1, faults_reset.2, ctrl_reset⟩, ⟨_, _, rfl⟩, fun s => ⟨_, _, rfl⟩, fun s rest hp => ⟨_, _, step_reset hp rfl⟩⟩
  exact ⟨rfl, rfl, rfl, rfl, rfl, rfl, rfl, rfl, rfl, rfl, rfl, rfl⟩

/-- Settles O52. -/
theorem ctrlWriteSetsTheModeBits : Obligations.CtrlWriteSetsTheModeBits := by
  refine ⟨fun s v rest hp => ?_, fun s => ?_, fun n h => ⟨rfl, rfl⟩, fun i s t ht => ⟨fun hi => ?_, ?_⟩⟩
  · rw [step_event hp, runEvent, runWrite_store (by decide)]
    rfl
  · exact ctrlByte_toNat_or s.strict s.wlLock
  · obtain ⟨hstrict, hlock, -, -⟩ := exec_keeps_ctrl_and_wordlist hi ht
    exact ⟨hstrict, hlock⟩
  · rintro rfl
    cases ht
    exact ⟨rfl, rfl⟩

end Sys2Proof.Proofs
end

section
/-! SUPPORT. Memory and the port: a buffer as a number, what a command reads and writes, and a host store as reads see it. -/

namespace Sys2Proof.Machine
open Sys2Proof.Claims

variable {w p : Nat}

/-! ### A buffer as a number (R66) -/

/-- Horner's rule, as the sum of the digits at their places, the first digit the most significant. -/
theorem horner_eq_sum {α : Type} (b : Nat) (d : α → Nat) {n : Nat} (f : Fin n → α) :
    (List.ofFn f).foldl (fun m x => m * b + d x) 0 = ∑ i : Fin n, d (f i) * b ^ (n - 1 - i.val) := by
  induction n with
  | zero => simp
  | succ n ih =>
    have shift : ∀ i : Fin n, d (f i.castSucc) * b ^ (n - 1 - i.val) * b = d (f i.castSucc) * b ^ (n - i.val) := fun i => by
      rw [mul_assoc, ← pow_succ, show n - 1 - i.val + 1 = n - i.val by omega]
    rw [List.ofFn_succ', List.concat_eq_append, List.foldl_append, ih, Fin.sum_univ_castSucc]
    simp [Finset.sum_mul, shift]

/-- Horner's rule, read back: a digit is found at its place. -/
theorem horner_digit {α : Type} {b : Nat} {d : α → Nat} (hd : ∀ x, d x < b) {n : Nat} (f : Fin n → α) (i : Fin n) :
    (List.ofFn f).foldl (fun m x => m * b + d x) 0 / b ^ (n - 1 - i.val) % b = d (f i) := by
  induction n with
  | zero => exact i.elim0
  | succ n ih =>
    have hlast := hd (f (Fin.last n))
    rw [List.ofFn_succ', List.concat_eq_append, List.foldl_append]
    cases i using Fin.lastCases with
    | last => simp [Nat.mod_eq_of_lt hlast]
    | cast i =>
      have hpow : b ^ (n - i.val) = b * b ^ (n - 1 - i.val) := by
        rw [← pow_succ', show n - 1 - i.val + 1 = n - i.val by omega]
      have hdrop : ∀ m, (m * b + d (f (Fin.last n))) / b = m := fun m => by
        rw [mul_comm, Nat.mul_add_div (by omega), Nat.div_eq_of_lt hlast, Nat.add_zero]
      simpa [hpow, ← Nat.div_div_eq_div_mul, hdrop] using ih (fun j => f j.castSucc) i

theorem blockNumber_eq_horner (e : Block) :
    blockNumber e = (List.ofFn fun i : Fin 16 => e[i]).foldl (fun m v => m * 256 + v.toNat) 0 := by
  have hlist : e.toList = List.ofFn fun i : Fin 16 => e[i] := List.ext_getElem (by simp) fun i _ _ => by
    simp only [Vector.getElem_toList, List.getElem_ofFn]
    rfl
  rw [blockNumber, hlist]

/-- The entropy is the big-endian number of its bytes. -/
theorem blockNumber_eq_sum (e : Block) : blockNumber e = ∑ i : Fin 16, e[i].toNat * 2 ^ (8 * (15 - i.val)) := by
  rw [blockNumber_eq_horner, horner_eq_sum]
  simp only [pow_mul]
  rfl

/-- Byte `i` of a buffer stands at bit `8 * (15 - i)` of its number. -/
theorem blockNumber_shiftRight (e : Block) (i : Fin 16) : (blockNumber e >>> (8 * (15 - i.val))) % 256 = e[i].toNat := by
  rw [blockNumber_eq_horner, Nat.shiftRight_eq_div_pow, pow_mul]
  exact horner_digit (fun v : Byte => v.isLt) (fun i : Fin 16 => e[i]) i

theorem blockOfNumber_blockNumber (e : Block) : blockOfNumber (blockNumber e) = e := by
  ext i hi : 1
  apply BitVec.eq_of_toNat_eq
  simpa [blockOfNumber] using blockNumber_shiftRight e ⟨i, hi⟩

/-- Bit 0 of the string is the most significant bit of byte 0. -/
theorem blockNumber_testBit (e : Block) (i : Fin 16) (j : Fin 8) :
    (blockNumber e).testBit (127 - (8 * i.val + j.val)) = e[i].getLsbD (7 - j.val) := by
  have hplace : 127 - (8 * i.val + j.val) = 8 * (15 - i.val) + (7 - j.val) := by omega
  rw [BitVec.getLsbD, ← blockNumber_shiftRight, hplace, ← Nat.testBit_shiftRight,
    show 256 = 2 ^ 8 from rfl, Nat.testBit_mod_two_pow]
  simp [show 7 - j.val < 8 by omega]

/-! ### The frame of each state operation, as the port reads it (R71) -/

theorem State.Of.succeed_readLocation (s : State.Of w p) {l : Location.Of w} (herr : l ≠ .err) (heinfo : l ≠ .einfo) :
    s.succeed.readLocation l = s.readLocation l := by
  cases l with
  | err => exact absurd rfl herr
  | einfo => exact absurd rfl heinfo
  | _ => rfl

/-- An error changes the port at `ERR`, `EINFO` and `FAULTS` (R231). -/
theorem State.Of.raise_readLocation (s : State) (e : ErrorCode) (d : Byte) {l : Location} (ho : isOutcome l = false)
    (hf : isFaults l = false) : (s.raise e d).readLocation l = s.readLocation l := by
  cases l with
  | err => cases ho
  | einfo => cases ho
  | faultsLo => cases hf
  | faultsHi => cases hf
  | _ => rfl

theorem State.Of.withGfr_readLocation (s : State.Of w p) (v : Byte) {l : Location.Of w} (h : l ≠ .gfr) :
    (s.withGfr v).readLocation l = s.readLocation l := by
  cases l with
  | gfr => exact absurd rfl h
  | _ => rfl

theorem State.Of.withMnemonic_readLocation (s : State.Of w p) (words : Vector (Token w) 12) (count : Byte)
    {l : Location.Of w} (hmn : ∀ k j, l ≠ .mn k j) (hcount : l ≠ .mnCount) :
    (s.withMnemonic words count).readLocation l = s.readLocation l := by
  cases l with
  | mn k j => exact absurd rfl (hmn k j)
  | mnCount => exact absurd rfl hcount
  | _ => rfl

theorem State.Of.withEntropy_readLocation (s : State.Of w p) (bytes : Block) (len : Byte) {l : Location.Of w}
    (hent : ∀ i, l ≠ .ent i) (hlen : l ≠ .entLen) : (s.withEntropy bytes len).readLocation l = s.readLocation l := by
  cases l with
  | ent i => exact absurd rfl (hent i)
  | entLen => exact absurd rfl hlen
  | _ => rfl

theorem State.Of.withShareA_readLocation (s : State.Of w p) (bytes : Block) (len : Byte) {l : Location.Of w}
    (hsa : ∀ i, l ≠ .sa i) (hlen : l ≠ .saLen) : (s.withShareA bytes len).readLocation l = s.readLocation l := by
  cases l with
  | sa i => exact absurd rfl (hsa i)
  | saLen => exact absurd rfl hlen
  | _ => rfl

theorem State.Of.withShareB_readLocation (s : State.Of w p) (bytes : Block) (len : Byte) {l : Location.Of w}
    (hsb : ∀ i, l ≠ .sb i) (hlen : l ≠ .sbLen) : (s.withShareB bytes len).readLocation l = s.readLocation l := by
  cases l with
  | sb i => exact absurd rfl (hsb i)
  | sbLen => exact absurd rfl hlen
  | _ => rfl

/-- A secret changes the port at `SEC_LEN` and where its byte is a new one: `SS_RECON` keeps the bytes past the length. -/
theorem State.Of.withSecret_readLocation (s : State.Of w p) (bytes : Block) (len : Byte) {l : Location.Of w}
    (hsec : ∀ i, l = .sec i → bytes[i] = s.sec[i]) (hlen : l ≠ .secLen) :
    (s.withSecret bytes len).readLocation l = s.readLocation l := by
  cases l with
  | sec i => exact hsec i rfl
  | secLen => exact absurd rfl hlen
  | _ => rfl

/-! ### What a command writes -/

/-- The columns "writes on success" of R71 name every location that a success changes. -/
theorem successState_readLocation {s : State} {i : Instr} {l : Location} (hi : i ≠ .sreset) (ho : isOutcome l = false)
    (hw : writesOnSuccess s i l = false) : (successState s i).readLocation l = s.readLocation l := by
  have herr : l ≠ .err := by rintro rfl; cases ho
  have heinfo : l ≠ .einfo := by rintro rfl; cases ho
  have delivered : ∀ t : State, t.readLocation l = s.readLocation l → t.succeed.readLocation l = s.readLocation l :=
    fun t h => (t.succeed_readLocation herr heinfo).trans h
  cases i with
  | sreset => exact absurd rfl hi
  | nop => exact delivered s rfl
  | gfAdd | gfSub | gfMul | gfInv => exact delivered _ (s.withGfr_readLocation _ (by rintro rfl; cases hw))
  | mnDecode | mvSecEnt =>
    exact delivered _ (s.withEntropy_readLocation _ _ (by rintro k rfl; cases hw) (by rintro rfl; cases hw))
  | mnEncode =>
    exact delivered _ (s.withMnemonic_readLocation _ _ (by rintro k j rfl; cases hw) (by rintro rfl; cases hw))
  | mvEntSa => exact delivered _ (s.withShareA_readLocation _ _ (by rintro k rfl; cases hw) (by rintro rfl; cases hw))
  | mvEntSb => exact delivered _ (s.withShareB_readLocation _ _ (by rintro k rfl; cases hw) (by rintro rfl; cases hw))
  | ssRecon =>
    refine delivered _ (s.withSecret_readLocation _ _ ?_ (by rintro rfl; cases hw))
    rintro k rfl
    rw [State.Of.reconstructed_getElem, if_neg (of_decide_eq_false hw)]

/-- No command but `SRESET` touches what is the model's own (log 2, log 3). -/
theorem exec_keeps_host {i : Instr} {s t : State} (hi : i ≠ .sreset) (h : exec i s = .next t) : t.host = s.host := by
  rcases exec_cases h with rfl | ⟨e, d, rfl⟩
  · cases i with
    | sreset => exact absurd rfl hi
    | _ => rfl
  · rfl

/-! ### What a command reads -/

/-- The string of a mnemonic depends on `MN` and the wordlist alone. -/
theorem State.Of.mnemonicNumber_of_agree {s u : State.Of w p} (hmn : s.mn = u.mn) (htoken : ∀ i, s.wlToken i = u.wlToken i) :
    s.mnemonicNumber = u.mnemonicNumber := by
  simp only [State.Of.mnemonicNumber, funext htoken, hmn]

/-- Steps 3 to 6 of `MN_DECODE` end alike where the mnemonic's number and `STRICT` are the same. -/
theorem decodeKnownWords_of_agree (hash : List Byte → List Byte) {s u : State.Of w p} (hstrict : s.strict = u.strict)
    (hnumber : s.mnemonicNumber = u.mnemonicNumber) :
    (decodeKnownWords hash s = (s.withEntropy (entropyOf132 s.mnemonicNumber) Config.entBytes).succeed ∧
      decodeKnownWords hash u = (u.withEntropy (entropyOf132 u.mnemonicNumber) Config.entBytes).succeed) ∨
    ∃ e d, decodeKnownWords hash s = s.raise e d ∧ decodeKnownWords hash u = u.raise e d := by
  simp only [decodeKnownWords, hstrict, hnumber]
  split
  · exact .inr ⟨_, _, rfl, rfl⟩
  · exact .inl ⟨rfl, rfl⟩

/-- In two states that agree on what a command reads, it succeeds in both, or raises the same error with the same detail. -/
theorem exec_of_agreeOnReads {i : Instr} {s u : State} (h : agreeOnReads s u i) :
    (exec i s = .next (successState s i) ∧ exec i u = .next (successState u i)) ∨
    ∃ e d, exec i s = .next (s.raise e d) ∧ exec i u = .next (u.raise e d) := by
  cases i with
  | gfInv =>
    have hgfa : s.gfa = u.gfa := h
    cases hv : gfInv u.gfa with
    | none => exact .inr ⟨.undefinedInverse, noDetail, by simp [exec, execGfInv, hgfa, hv]⟩
    | some v => exact .inl (by simp [exec, execGfInv, successState, fieldResult, hgfa, hv])
  | mnDecode =>
    obtain ⟨hlock, hstrict, hcount, hmn, htoken⟩ := h
    have hwl : s.wlToken = u.wlToken := funext htoken
    simp only [exec, execMnDecode, successState, Host.Outcome.next.injEq]
    simp only [decodeMnemonic, hlock, hcount, hmn, hwl]
    split
    · exact .inr ⟨_, _, rfl, rfl⟩
    split
    · exact .inr ⟨_, _, rfl, rfl⟩
    split
    · exact .inr ⟨_, _, rfl, rfl⟩
    · exact decodeKnownWords_of_agree unitHash hstrict (State.Of.mnemonicNumber_of_agree hmn htoken)
  | mnEncode =>
    obtain ⟨hlock, hlen, -, -⟩ := h
    simp only [exec, execMnEncode, successState, Host.Outcome.next.injEq]
    simp only [encodeMnemonic, hlock, hlen]
    split
    · exact .inr ⟨_, _, rfl, rfl⟩
    split
    · exact .inr ⟨_, _, rfl, rfl⟩
    · exact .inl ⟨rfl, rfl⟩
  | ssRecon =>
    obtain ⟨haIdx, haLen, hbIdx, hbLen, -⟩ := h
    simp only [exec, execSsRecon, successState, haIdx, haLen, hbIdx, hbLen]
    split
    · exact .inr ⟨_, _, rfl, rfl⟩
    split
    · exact .inr ⟨_, _, rfl, rfl⟩
    split
    · exact .inr ⟨_, _, rfl, rfl⟩
    · exact .inl ⟨rfl, rfl⟩
  | _ => exact .inl ⟨rfl, rfl⟩

/-! What a read of a result returns, after a success. -/

@[simp] theorem State.Of.withGfr_read_gfr (s : State.Of w p) (v : Byte) : (s.withGfr v).succeed.readLocation .gfr = v := rfl
@[simp] theorem State.Of.withMnemonic_read_mn (s : State.Of w p) (m : Vector (Token w) 12) (n : Byte) (k : Fin 12)
    (j : Fin w) : (s.withMnemonic m n).succeed.readLocation (.mn k j) = m[k][j] := rfl
@[simp] theorem State.Of.withMnemonic_read_mnCount (s : State.Of w p) (m : Vector (Token w) 12) (n : Byte) :
    (s.withMnemonic m n).succeed.readLocation .mnCount = n := rfl
@[simp] theorem State.Of.withEntropy_read_ent (s : State.Of w p) (b : Block) (n : Byte) (k : Fin 16) :
    (s.withEntropy b n).succeed.readLocation (.ent k) = b[k] := rfl
@[simp] theorem State.Of.withEntropy_read_entLen (s : State.Of w p) (b : Block) (n : Byte) :
    (s.withEntropy b n).succeed.readLocation .entLen = n := rfl
@[simp] theorem State.Of.withShareA_read_sa (s : State.Of w p) (b : Block) (n : Byte) (k : Fin 16) :
    (s.withShareA b n).succeed.readLocation (.sa k) = b[k] := rfl
@[simp] theorem State.Of.withShareA_read_saLen (s : State.Of w p) (b : Block) (n : Byte) :
    (s.withShareA b n).succeed.readLocation .saLen = n := rfl
@[simp] theorem State.Of.withShareB_read_sb (s : State.Of w p) (b : Block) (n : Byte) (k : Fin 16) :
    (s.withShareB b n).succeed.readLocation (.sb k) = b[k] := rfl
@[simp] theorem State.Of.withShareB_read_sbLen (s : State.Of w p) (b : Block) (n : Byte) :
    (s.withShareB b n).succeed.readLocation .sbLen = n := rfl
@[simp] theorem State.Of.withSecret_read_sec (s : State.Of w p) (b : Block) (n : Byte) (k : Fin 16) :
    (s.withSecret b n).succeed.readLocation (.sec k) = b[k] := rfl
@[simp] theorem State.Of.withSecret_read_secLen (s : State.Of w p) (b : Block) (n : Byte) :
    (s.withSecret b n).succeed.readLocation .secLen = n := rfl

/-- The results of a command depend on nothing but what it reads. -/
theorem successState_results {i : Instr} {s u : State} {l : Location} (h : agreeOnReads s u i) (hi : i ≠ .sreset)
    (hw : writesOnSuccess s i l = true) : (successState s i).readLocation l = (successState u i).readLocation l := by
  cases i with
  | sreset => exact absurd rfl hi
  | nop => cases hw
  | gfAdd | gfSub | gfMul =>
    obtain rfl : l = .gfr := by simpa only [writesOnSuccess, beq_iff_eq] using hw
    obtain ⟨hgfa, hgfb⟩ := h
    simp only [successState, State.Of.withGfr_read_gfr, hgfa, hgfb]
  | gfInv =>
    obtain rfl : l = .gfr := by simpa only [writesOnSuccess, beq_iff_eq] using hw
    have hgfa : s.gfa = u.gfa := h
    simp only [successState, State.Of.withGfr_read_gfr, hgfa]
  | mnDecode =>
    obtain ⟨-, -, -, hmn, htoken⟩ := h
    cases l with
    | ent k => simp only [successState, State.Of.withEntropy_read_ent,
        State.Of.mnemonicNumber_of_agree hmn htoken]
    | entLen => simp only [successState, State.Of.withEntropy_read_entLen]
    | _ => cases hw
  | mnEncode =>
    obtain ⟨-, -, hent, htoken⟩ := h
    cases l with
    | mn k j =>
      simp only [successState, State.Of.withMnemonic_read_mn, State.Of.mnemonicOf_getElem, htoken k, ← hent]
    | mnCount => simp only [successState, State.Of.withMnemonic_read_mnCount]
    | _ => cases hw
  | ssRecon =>
    obtain ⟨-, hlen, -, -, hbytes⟩ := h
    cases l with
    | sec k =>
      have hk : k.val < s.saLen.toNat := of_decide_eq_true hw
      obtain ⟨hsa, hsb⟩ := hbytes k hk
      simp only [successState, State.Of.withSecret_read_sec, State.Of.reconstructed_getElem, ← hlen, if_pos hk, hsa, hsb]
    | secLen => simp only [successState, State.Of.withSecret_read_secLen, hlen]
    | _ => cases hw
  | mvEntSa =>
    obtain ⟨hent, hlen⟩ := h
    cases l with
    | sa k => simp only [successState, State.Of.withShareA_read_sa, hent]
    | saLen => simp only [successState, State.Of.withShareA_read_saLen, hlen]
    | _ => cases hw
  | mvEntSb =>
    obtain ⟨hent, hlen⟩ := h
    cases l with
    | sb k => simp only [successState, State.Of.withShareB_read_sb, hent]
    | sbLen => simp only [successState, State.Of.withShareB_read_sbLen, hlen]
    | _ => cases hw
  | mvSecEnt =>
    obtain ⟨hsec, hlen⟩ := h
    cases l with
    | ent k => simp only [successState, State.Of.withEntropy_read_ent, hsec]
    | entLen => simp only [successState, State.Of.withEntropy_read_entLen, hlen]
    | _ => cases hw

/-! ### A command again -/

/-- No command but `SRESET` writes what it reads itself (R71). -/
theorem agreeOnReads_of_exec {i : Instr} {s t : State} (hi : i ≠ .sreset) (h : exec i s = .next t) :
    agreeOnReads s t i := by
  rcases exec_cases h with rfl | ⟨e, d, rfl⟩
  · cases i with
    | sreset => exact absurd rfl hi
    | _ => simp [agreeOnReads, successState]
  · cases i <;> simp [agreeOnReads]

/-- A second reconstruction finds in `SEC` what the first one left there. -/
theorem State.Of.reconstructed_again (s : State.Of w p) (n : Nat) (len : Byte) :
    (s.withSecret (s.reconstructed n) len).succeed.reconstructed n = s.reconstructed n := by
  ext k hk : 1
  by_cases hlt : k < n <;> simp [State.Of.reconstructed, hlt]

theorem successState_successState {i : Instr} (hi : i ≠ .sreset) (s : State) :
    successState (successState s i) i = successState s i := by
  cases i with
  | sreset => exact absurd rfl hi
  | ssRecon =>
    have h := s.reconstructed_again s.saLen.toNat s.saLen
    simp only [successState, State.Of.succeed_saLen, State.Of.withSecret_saLen, h]
    rfl
  | _ => rfl

/-! ### A host store, as reads see it (R64) -/

/-- The host address of a location (R35); the reserved addresses share one location and have none of their own. -/
def addressOf : Location → Nat
  | .ent i => 0x20 + i.val
  | .sa i => 0x30 + i.val
  | .sb i => 0x40 + i.val
  | .sec i => 0x50 + i.val
  | .mn k j => 0x80 + 8 * k.val + j.val
  | .wl n => n
  | l => registerMap.idxOf l

/-- The registers of the map, each at its own place (R35). -/
theorem addressOf_registerMap : ∀ n < 32, registerMap.getD n .reserved ≠ (.reserved : Location) →
    addressOf (registerMap.getD n .reserved) = n := by
  decide

theorem addressOf_locate {a : HostAddr} (h : locate a ≠ .reserved) : addressOf (locate a) = a.toNat := by
  rcases locate_cases a with ⟨hlow, hl⟩ | ⟨i, ha, hl⟩ | ⟨i, ha, hl⟩ | ⟨i, ha, hl⟩ | ⟨i, ha, hl⟩ | ⟨-, -, hl⟩ |
    ⟨k, j, ha, hl⟩ | ⟨-, -, hl⟩ | ⟨-, hl⟩
  · rw [hl] at h ⊢
    exact addressOf_registerMap a.toNat hlow h
  case inr.inr.inr.inr.inr.inl => exact absurd hl h
  case inr.inr.inr.inr.inr.inr.inr.inl => exact absurd hl h
  case inr.inr.inr.inr.inr.inr.inr.inr => rw [hl, addressOf]
  all_goals rw [hl, addressOf, ha]

/-- Two addresses lead to one location only where it is the reserved one. -/
theorem eq_of_locate_eq {a b : HostAddr} (h : locate a = locate b) (hr : locate a ≠ .reserved) : a = b := by
  apply BitVec.eq_of_toNat_eq
  rw [← addressOf_locate hr, h, addressOf_locate (h ▸ hr)]

/-- The locations that a host write stores its byte in: the RW rows of R35 but `CTRL`, the wordlist while it is unlocked. -/
def storesHostByte (s : State) : Location → Bool
  | .gfa | .gfb | .mnCount | .entLen | .saIdx | .saLen | .sbIdx | .sbLen => true
  | .ent _ | .sa _ | .sb _ | .mn _ _ => true
  | .wl _ => !s.wlLock
  | _ => false

theorem storesHostByte_of_writable {s : State} {a : HostAddr} (h : writable s a.toNat) :
    storesHostByte s (locate a) = true := by
  unfold writable at h
  rcases locate_cases a with ⟨hlow, hl⟩ | ⟨i, -, hl⟩ | ⟨i, -, hl⟩ | ⟨i, -, hl⟩ | ⟨i, ha, -⟩ | ⟨hlo, hhi, -⟩ |
    ⟨k, j, -, hl⟩ | ⟨hlo, hhi, -⟩ | ⟨ha, hl⟩
  · rw [hl]
    generalize a.toNat = n at h hlow
    interval_cases n <;> simp [registerMap, storesHostByte] at h ⊢
  case inr.inr.inr.inr.inr.inr.inr.inr =>
    rw [hl]
    have hlock : s.wlLock = false := by
      by_contra hlock
      simp only [hlock, and_false, or_false] at h
      omega
    simp [storesHostByte, hlock]
  case inr.inr.inr.inr.inl => omega
  case inr.inr.inr.inr.inr.inl => omega
  case inr.inr.inr.inr.inr.inr.inr.inl => omega
  all_goals rw [hl]; rfl

/-- A stored byte is what the next read returns. -/
theorem State.Of.readLocation_writeLocation {s : State} (v : Byte) {l : Location} (hwf : Memory.wf s.resets s.wl = true)
    (hl : storesHostByte s l = true) : (s.writeLocation v l).readLocation l = v := by
  cases l with
  | ent i | sa i | sb i => exact Vector.getElem_set_self i.isLt
  | mn k j => simp [State.Of.writeLocation, State.Of.readLocation]
  | wl n =>
    have hlock : s.wlLock = false := by simpa [storesHostByte] using hl
    simp [State.Of.writeLocation, State.Of.readLocation, hlock, Memory.read_write hwf]
  | gfa | gfb | mnCount | entLen | saIdx | saLen | sbIdx | sbLen => rfl
  | _ => cases hl

theorem getElem_set_of_ne {α : Type} {n : Nat} (xs : Vector α n) (x : α) {i k : Fin n} (h : k ≠ i) :
    (xs.set i x)[k] = xs[k] :=
  Vector.getElem_set_ne i.isLt k.isLt fun hik => h (Fin.ext hik.symm)

/-- A byte stored in one token of a mnemonic is found neither in another place of it nor in another token. -/
theorem getElem_set_token_of_ne (mn : Vector (Token w) 12) (v : Byte) {k k' : Fin 12} {j j' : Fin w}
    (h : ¬(k' = k ∧ j' = j)) : (mn.set k (mn[k].set j v))[k'][j'] = mn[k'][j'] := by
  by_cases hk : k' = k
  · subst hk
    have hset : (mn.set k' (mn[k'].set j v))[k'] = mn[k'].set j v := Vector.getElem_set_self k'.isLt
    rw [hset, getElem_set_of_ne _ _ fun hj => h ⟨rfl, hj⟩]
  · rw [getElem_set_of_ne _ _ hk]

/-- A host write changes what is read at its own location alone. -/
theorem State.Of.readLocation_writeLocation_ne {s : State} (v : Byte) {l l' : Location}
    (hwf : Memory.wf s.resets s.wl = true) (hne : l' ≠ l) : (s.writeLocation v l).readLocation l' = s.readLocation l' := by
  cases l with
  | ent i =>
    cases l' with
    | ent k => exact getElem_set_of_ne s.ent v fun h => hne (by rw [h])
    | _ => rfl
  | sa i =>
    cases l' with
    | sa k => exact getElem_set_of_ne s.sa v fun h => hne (by rw [h])
    | _ => rfl
  | sb i =>
    cases l' with
    | sb k => exact getElem_set_of_ne s.sb v fun h => hne (by rw [h])
    | _ => rfl
  | mn k j =>
    cases l' with
    | mn k' j' => exact getElem_set_token_of_ne s.mn v fun ⟨hk, hj⟩ => hne (by rw [hk, hj])
    | _ => rfl
  | wl n =>
    simp only [State.Of.writeLocation]
    split
    · rfl
    cases l' with
    | wl n' =>
      have hn : n' ≠ n := fun h => hne (by rw [h])
      simp [State.Of.readLocation, Memory.read_write hwf, hn]
    | _ => rfl
  | ctrl | gfa | gfb | mnCount | entLen | saIdx | saLen | sbIdx | sbLen =>
    cases l' <;> simp_all [State.Of.writeLocation, State.Of.readLocation]
  | _ => rfl

end Sys2Proof.Machine

namespace Sys2Proof.Proofs
open Sys2Proof.Machine Sys2Proof.Claims

/-- Settles O22. -/
theorem entropyBitsAreMostSignificantFirst : Obligations.EntropyBitsAreMostSignificantFirst := fun e =>
  ⟨blockNumber_eq_sum e, blockNumber_testBit e, blockOfNumber_blockNumber e⟩

/-- Settles O45: a success changes the locations of its column of R71, an error those of `FAULTS`. -/
theorem commandsWriteOnlyTheirResults : Obligations.CommandsWriteOnlyTheirResults := by
  intro i s t hi ht
  obtain ⟨-, -, hwl, hresets⟩ := exec_keeps_ctrl_and_wordlist hi ht
  refine ⟨fun a ho => ?_, hwl, hresets, exec_keeps_host hi ht⟩
  rcases exec_cases ht with rfl | ⟨e, d, rfl⟩
  · exact ⟨fun _ hw => successState_readLocation hi ho hw, fun hne => absurd (successState_err s i) hne⟩
  · exact ⟨fun hok => absurd hok (s.raise_err_ne e d), fun _ hf => s.raise_readLocation e d ho hf⟩

/-- Settles O46: the two executions end alike, and the results of a success are functions of what was read. -/
theorem commandsReadOnlyTheirOperands : Obligations.CommandsReadOnlyTheirOperands := by
  intro i s u t v h ht hv
  rcases exec_of_agreeOnReads h with ⟨hs, hu⟩ | ⟨e, d, hs, hu⟩ <;> cases hs.symm.trans ht <;> cases hu.symm.trans hv
  · exact ⟨by simp only [successState_err], by simp only [successState_einfo], fun hi _ l hw => successState_results h hi hw⟩
  · exact ⟨rfl, rfl, fun _ hok => absurd hok (s.raise_err_ne e d)⟩

/-- Settles O47: the second execution finds the operands of the first, so it ends alike, and writes what is there. -/
theorem commandsAreIdempotent : Obligations.CommandsAreIdempotent := by
  intro i s t hi ht
  rcases exec_of_agreeOnReads (agreeOnReads_of_exec hi ht) with ⟨hs, hagain⟩ | ⟨e, d, hs, hagain⟩ <;>
    cases hs.symm.trans ht
  · rw [hagain, successState_successState hi]
  · rw [hagain, State.Of.raise_raise]

/-- Settles O49. -/
theorem hostReadHasNoSideEffect : Obligations.HostReadHasNoSideEffect := fun _ _ _ hp => step_event hp

/-- Settles O50: no other address leads to the location that the byte is stored in. -/
theorem hostWriteStoresOneByte : Obligations.HostWriteStoresOneByte := by
  intro s a v rest hwf hp ha
  have hstores : storesHostByte (s.takeEvent rest) (locate a) = true := storesHostByte_of_writable ha
  have hne : a ≠ 0 := by
    rintro rfl
    cases hstores
  have hloc : locate a ≠ .reserved := fun h => by
    rw [h] at hstores
    cases hstores
  refine ⟨(s.takeEvent rest).hostStore a v, ?_, ?_, fun b hb => ?_, ?_, ?_⟩
  · rw [step_event hp, runEvent, runWrite_store hne]
  · exact State.Of.readLocation_writeLocation v hwf hstores
  · exact State.Of.readLocation_writeLocation_ne (s := s.takeEvent rest) v hwf fun h => hb (eq_of_locate_eq h.symm hloc).symm
  · exact State.Of.writeLocation_resets _ v _
  · exact State.Of.writeLocation_host _ v _

end Sys2Proof.Proofs
end

section
/-! SUPPORT. The encodings: the command byte and its decoder, the step at a write to `CMD`, and transaction words. -/

namespace Sys2Proof.Machine
open Sys2Proof.Claims

/-! ### The command byte (R92) -/

/-- What Laws/PerInstr.lean says of each command, for every command. -/
theorem commandByte_statement (i : Instr) : Laws.CommandByte.Statement i := by
  cases i with
  | nop => exact Laws.CommandByte.nop
  | gfAdd => exact Laws.CommandByte.gfAdd
  | gfSub => exact Laws.CommandByte.gfSub
  | gfMul => exact Laws.CommandByte.gfMul
  | gfInv => exact Laws.CommandByte.gfInv
  | mnDecode => exact Laws.CommandByte.mnDecode
  | mnEncode => exact Laws.CommandByte.mnEncode
  | ssRecon => exact Laws.CommandByte.ssRecon
  | mvEntSa => exact Laws.CommandByte.mvEntSa
  | mvEntSb => exact Laws.CommandByte.mvEntSb
  | mvSecEnt => exact Laws.CommandByte.mvSecEnt
  | sreset => exact Laws.CommandByte.sreset

theorem commandByteWellFormed_encode (i : Instr) : commandByteWellFormed (encode i) = true := by
  obtain ⟨-, hbyte, -, -⟩ := commandByte_statement i
  exact hbyte

theorem decode_encode (i : Instr) : decode (encode i) = .ok i := by
  obtain ⟨-, -, hdecode, -⟩ := commandByte_statement i
  exact hdecode

theorem decodeTableWord_encode (i : Instr) : decodeTableWord 8 (encode i).toNat = some i := by
  obtain ⟨-, -, -, hword⟩ := commandByte_statement i
  exact hword

/-- The decoder is the inverse of the encoder. -/
theorem decode_eq_ok_iff {c : Byte} {i : Instr} : decode c = .ok i ↔ c = encode i :=
  ⟨eq_encode_of_decode, fun h => h ▸ decode_encode i⟩

/-- A command byte given as eight bits is that byte. -/
theorem commandByteOfBits_toNat (c : Byte) : commandByteOfBits 8 c.toNat = c := by
  rw [commandByteOfBits, Nat.mod_eq_of_lt c.isLt, BitVec.ofNat_toNat, BitVec.setWidth_eq]

/-! ### The illegal bytes (R93) -/

/-- The ranges of R93 are those that the model's own check refuses. -/
theorem illegalByte_iff {c : Byte} : illegalByte c ↔ commandByteWellFormed c = false := by
  simp [illegalByte, commandByteWellFormed]
  omega

theorem encode_ne_of_illegalByte {c : Byte} (h : illegalByte c) (i : Instr) : encode i ≠ c := by
  rintro rfl
  cases (commandByteWellFormed_encode i).symm.trans (illegalByte_iff.mp h)

theorem decode_of_illegalByte {c : Byte} (h : illegalByte c) : decode c = .error (.illegalCommand c) := by
  cases hd : decode c with
  | ok i => exact absurd (eq_encode_of_decode hd).symm (encode_ne_of_illegalByte h i)
  | error r => rw [decode_error hd]

/-! ### The step at a write to `CMD` (R91, R93) -/

theorem step_command {s : State} {c : Byte} {rest : List HostEvent} {i : Instr} (hp : s.host.pending = .write 0 c :: rest)
    (hd : decode c = .ok i) : step s = exec i (s.takeEvent rest) := by
  rw [step_event hp, runEvent, runWrite_cmd, runCommand_ok hd]

theorem step_illegal {s : State} {c : Byte} {rest : List HostEvent} (hp : s.host.pending = .write 0 c :: rest)
    (hc : illegalByte c) : step s = .next ((s.takeEvent rest).raise .illegalCommand c) := by
  rw [step_event hp, runEvent, runWrite_cmd, runCommand_error (decode_of_illegalByte hc)]
  rfl

/-! ### Transaction words (R97) -/

/-- The transaction word with the fields `W`, `ADDR` and `DATA`. -/
def transactionWord (w : Bool) (a : HostAddr) (v : Byte) : BitVec 24 := BitVec.ofBool w ++ a ++ v

theorem transactionOf_write (a : HostAddr) (v : Byte) : transactionOf (.write a v) = some (transactionWord true a v) := rfl

theorem transactionOf_read (a : HostAddr) : transactionOf (.read a) = some (transactionWord false a 0) := rfl

theorem transactionWord_toNat (w : Bool) (a : HostAddr) (v : Byte) :
    (transactionWord w a v).toNat = (w.toNat <<< 23) ||| (a.toNat <<< 8) ||| v.toNat := by
  rw [transactionWord, BitVec.toNat_append, BitVec.toNat_append, BitVec.toNat_ofBool, Nat.shiftLeft_or_distrib,
    ← Nat.shiftLeft_add]

/-- Bit 23 is the field `W`. -/
theorem transactionWord_kind (w : Bool) (a : HostAddr) (v : Byte) : (transactionWord w a v).getLsbD 23 = w := by
  rw [transactionWord, BitVec.getLsbD_append, BitVec.getLsbD_append]
  simp

/-- Bits 8 to 22 are the field `ADDR`. -/
theorem transactionWord_addr (w : Bool) (a : HostAddr) (v : Byte) :
    (transactionWord w a v).extractLsb' 8 15 = a :=
  (BitVec.extractLsb'_append_eq_of_le le_rfl).trans BitVec.extractLsb'_append_eq_right

/-- Bits 0 to 7 are the field `DATA`. -/
theorem transactionWord_data (w : Bool) (a : HostAddr) (v : Byte) : (transactionWord w a v).extractLsb' 0 8 = v :=
  BitVec.extractLsb'_append_eq_right

/-- Every word of 24 bits is made of its three fields. -/
theorem exists_transactionWord (t : BitVec 24) : ∃ w a v, t = transactionWord w a v := by
  refine ⟨t.getLsbD 23, t.extractLsb' 8 15, t.extractLsb' 0 8, ?_⟩
  have hkind : BitVec.ofBool (t.getLsbD 23) = t.extractLsb' 23 1 := by
    ext k hk
    obtain rfl : k = 0 := by omega
    simp
  have hhigh : t.extractLsb' 23 1 ++ t.extractLsb' 8 15 = t.extractLsb' 8 16 :=
    BitVec.extractLsb'_append_extractLsb'_eq_extractLsb' rfl
  have hword : t.extractLsb' 8 16 ++ t.extractLsb' 0 8 = t.extractLsb' 0 24 :=
    BitVec.extractLsb'_append_extractLsb'_eq_extractLsb' rfl
  rw [transactionWord, hkind, hhigh, hword, BitVec.extractLsb'_eq_self]

theorem eventOfTransaction_word (w : Bool) (a : HostAddr) (v : Byte) :
    eventOfTransaction (transactionWord w a v) =
      if w then some (.write a v) else if v = 0 then some (.read a) else none := by
  simp only [eventOfTransaction, transactionWord_kind, transactionWord_addr, transactionWord_data]

theorem transactionWellFormed_word_iff (w : Bool) (a : HostAddr) (v : Byte) :
    transactionWellFormed (transactionWord w a v).toNat = true ↔ w = true ∨ v = 0 := by
  have hsize : (transactionWord w a v).toNat < 2 ^ 24 := (transactionWord w a v).isLt
  have hkind : (transactionWord w a v).toNat.testBit 23 = w := transactionWord_kind w a v
  have hdata : (transactionWord w a v).toNat % 256 = v.toNat := by
    conv_rhs => rw [← transactionWord_data w a v, BitVec.extractLsb'_toNat, Nat.shiftRight_zero]
  rw [transactionWellFormed, decide_eq_true hsize, hkind, hdata, BitVec.toNat_eq]
  simp

theorem eventOfTransaction_of_transactionOf {e : HostEvent} {t : BitVec 24} (h : transactionOf e = some t) :
    eventOfTransaction t = some e := by
  cases e with
  | write a v =>
    cases h
    exact eventOfTransaction_word true a v
  | read a =>
    cases h
    exact eventOfTransaction_word false a 0
  | hardReset => cases h

theorem transactionOf_of_eventOfTransaction {e : HostEvent} {t : BitVec 24} (h : eventOfTransaction t = some e) :
    transactionOf e = some t := by
  obtain ⟨w, a, v, rfl⟩ := exists_transactionWord t
  rw [eventOfTransaction_word] at h
  split_ifs at h with hw hv
  · cases h
    rw [hw, transactionOf_write]
  · cases h
    rw [Bool.eq_false_of_not_eq_true hw, hv, transactionOf_read]

/-- The words that list an access are the well-formed ones: only a read with data lists none. -/
theorem eventOfTransaction_isSome (t : BitVec 24) : (eventOfTransaction t).isSome = transactionWellFormed t.toNat := by
  obtain ⟨w, a, v, rfl⟩ := exists_transactionWord t
  rw [Bool.eq_iff_iff, transactionWellFormed_word_iff, eventOfTransaction_word]
  cases w <;> simp

end Sys2Proof.Machine

namespace Sys2Proof.Proofs
open Sys2Proof.Machine Sys2Proof.Claims

/-- Settles O4: the decoder rejects an illegal byte, and the rejection is the error delivery of `IllegalCommand`; a byte
that is not illegal is one that the decoder reads a command from. -/
theorem illegalCommandByteRaises : Obligations.IllegalCommandByteRaises := by
  refine ⟨fun s c rest hp hc => step_illegal hp hc, fun c => ⟨encode_ne_of_illegalByte, fun h => ?_⟩⟩
  cases hd : decode c with
  | ok i => exact absurd (eq_encode_of_decode hd).symm (h i)
  | error r => exact illegalByte_iff.mpr (commandByteWellFormed_of_decode_error hd)

/-- Settles O5: a word is its three fields, and both translations are known on words given by their fields. -/
theorem transactionWordsListAccesses : Obligations.TransactionWordsListAccesses := by
  refine ⟨fun a v => ?_, fun a => ?_,
    fun e t => ⟨eventOfTransaction_of_transactionOf, transactionOf_of_eventOfTransaction⟩, eventOfTransaction_isSome⟩
  · rw [transactionOf_write, Option.map_some, transactionWord_toNat, Bool.toNat_true]
  · rw [transactionOf_read, Option.map_some, transactionWord_toNat]
    simp

/-- Settles O1: the rows are the commands, each with its own byte. -/
theorem opcodeMapIsTheTable : Obligations.OpcodeMapIsTheTable := by
  intro c i
  rw [decode_eq_ok_iff]
  cases i <;> simp [encode]

/-- Settles O2, by the law of each command's byte. -/
theorem encodedCommandDecodesBack : Obligations.EncodedCommandDecodesBack := fun i _ =>
  ⟨decode_encode i, decodeTableWord_encode i⟩

/-- Settles O3: `withFetchWord` makes the command's own byte the next write to `CMD`. -/
theorem stepRunsTheDecodedCommand : Obligations.StepRunsTheDecodedCommand := by
  refine ⟨fun s c rest i hp hd _ => step_command hp hd, fun s i => ?_⟩
  have hp : (s.withFetchWord 8 (encode i).toNat).host.pending = .write 0 (encode i) :: s.host.pending := by
    rw [State.withFetchWord, commandByteOfBits_toNat]
    rfl
  exact step_command hp (decode_encode i)

end Sys2Proof.Proofs
end

section
/-! SUPPORT. The field: bytes as polynomials over GF(2) and as elements of the quotient by `POLY`, where the field functions
are the ring's operations; inverses and the log tables from that. -/

namespace Sys2Proof.Machine
open Sys2Proof.Claims Polynomial

variable {w : Nat}

/-! ### Bits as polynomials over GF(2) (R110) -/

/-- The polynomial of the lowest `n` bits of `v`. -/
noncomputable def lowBitsPoly (n : Nat) (v : BitVec w) : (ZMod 2)[X] :=
  ∑ k ∈ Finset.range n, if v.getLsbD k then X ^ k else 0

theorem bytePoly_eq (a : Byte) : bytePoly a = lowBitsPoly 8 a := rfl

@[simp] theorem lowBitsPoly_zero (v : BitVec w) : lowBitsPoly 0 v = 0 := rfl

theorem lowBitsPoly_succ (n : Nat) (v : BitVec w) :
    lowBitsPoly (n + 1) v = lowBitsPoly n v + if v.getLsbD n then X ^ n else 0 :=
  Finset.sum_range_succ _ n

/-- The lowest bit, then the bits above it shifted down. -/
theorem lowBitsPoly_succ_shift (n : Nat) (v : BitVec w) :
    lowBitsPoly (n + 1) v = X * lowBitsPoly n (v >>> 1) + if v.getLsbD 0 then 1 else 0 := by
  rw [lowBitsPoly, Finset.sum_range_succ', pow_zero, lowBitsPoly, Finset.mul_sum]
  refine congrArg (· + _) (Finset.sum_congr rfl fun k _ => ?_)
  rw [BitVec.getLsbD_ushiftRight, Nat.add_comm 1 k, mul_ite, mul_zero, pow_succ']

/-- Bit `k` is the coefficient of `x^k`. -/
theorem lowBitsPoly_coeff (n : Nat) (v : BitVec w) (k : Nat) :
    (lowBitsPoly n v).coeff k = if k < n ∧ v.getLsbD k then 1 else 0 := by
  induction n with
  | zero => simp
  | succ n ih =>
    rw [lowBitsPoly_succ, coeff_add, ih, apply_ite (coeff · k), coeff_X_pow, coeff_zero]
    rcases lt_trichotomy k n with h | rfl | h
    · simp [h, h.ne, h.le]
    · simp
    · simp [h.ne', h.not_gt, h.not_ge]

/-- Words with the same bits have the same polynomial. -/
theorem lowBitsPoly_congr {w' m n : Nat} {u : BitVec w} {v : BitVec w'}
    (h : ∀ k, k < m ∧ u.getLsbD k ↔ k < n ∧ v.getLsbD k) : lowBitsPoly m u = lowBitsPoly n v := by
  ext k
  rw [lowBitsPoly_coeff, lowBitsPoly_coeff, if_congr (h k) rfl rfl]

theorem lowBitsPoly_degree_lt (n : Nat) (v : BitVec w) : (lowBitsPoly n v).degree < n := by
  rw [degree_lt_iff_coeff_zero]
  intro k hk
  rw [lowBitsPoly_coeff, if_neg fun h => absurd h.1 hk.not_gt]

/-- A word is determined by its polynomial. -/
theorem lowBitsPoly_injective : Function.Injective (lowBitsPoly w : BitVec w → (ZMod 2)[X]) := by
  intro u v h
  ext k hk
  have hcoeff := congrArg (coeff · k) h
  simp only [lowBitsPoly_coeff, hk, true_and, BitVec.getLsbD_eq_getElem] at hcoeff
  cases hu : u[k] <;> cases hv : v[k] <;> simp [hu, hv] at hcoeff ⊢

/-- Addition is xor. -/
theorem lowBitsPoly_xor (n : Nat) (u v : BitVec w) : lowBitsPoly n (u ^^^ v) = lowBitsPoly n u + lowBitsPoly n v := by
  rw [lowBitsPoly, lowBitsPoly, lowBitsPoly, ← Finset.sum_add_distrib]
  refine Finset.sum_congr rfl fun k _ => ?_
  rw [BitVec.getLsbD_xor]
  cases u.getLsbD k <;> cases v.getLsbD k <;> simp [CharTwo.add_self_eq_zero]

/-- A shift to the left multiplies what is not shifted out. -/
theorem lowBitsPoly_shiftLeft (v : BitVec w) {i : Nat} (hi : i ≤ w) :
    lowBitsPoly w (v <<< i) = X ^ i * lowBitsPoly (w - i) v := by
  ext k
  rw [coeff_X_pow_mul', lowBitsPoly_coeff, lowBitsPoly_coeff, BitVec.getLsbD_shiftLeft, ← ite_and]
  refine if_congr ?_ rfl rfl
  simp only [Bool.and_eq_true, decide_eq_true_eq, Bool.not_eq_true', decide_eq_false_iff_not]
  grind

/-! ### The quotient by `POLY` -/

theorem fieldPoly_monic : fieldPoly.Monic := by
  unfold fieldPoly
  monicity!

theorem fieldPoly_degree : fieldPoly.degree = 8 := by
  unfold fieldPoly
  compute_degree!

/-- A word as an element of the polynomials over GF(2) modulo `POLY`. -/
noncomputable def residue (v : BitVec w) : AdjoinRoot fieldPoly := AdjoinRoot.mk fieldPoly (lowBitsPoly w v)

theorem bytePoly_eq_modByMonicHom (a : Byte) : bytePoly a = AdjoinRoot.modByMonicHom fieldPoly_monic (residue a) := by
  rw [residue, AdjoinRoot.modByMonicHom_mk, bytePoly_eq,
    (modByMonic_eq_self_iff fieldPoly_monic).mpr (fieldPoly_degree ▸ lowBitsPoly_degree_lt 8 a)]

/-- Different bytes are different elements of the quotient. -/
theorem residue_injective : Function.Injective (residue : Byte → AdjoinRoot fieldPoly) := fun a b h =>
  lowBitsPoly_injective <| by
    rw [← bytePoly_eq, ← bytePoly_eq, bytePoly_eq_modByMonicHom, bytePoly_eq_modByMonicHom, h]

@[simp] theorem residue_zero : residue 0#w = 0 := by simp [residue, lowBitsPoly]

@[simp] theorem residue_one : residue 1#8 = 1 := by simp [residue, lowBitsPoly]

@[simp] theorem residue_xor (u v : BitVec w) : residue (u ^^^ v) = residue u + residue v := by
  rw [residue, lowBitsPoly_xor, map_add, residue, residue]

@[simp] theorem residue_gfAdd (a b : Byte) : residue (gfAdd a b) = residue a + residue b := residue_xor a b

/-! ### Shifts -/

theorem lowBitsPoly_polyLow : lowBitsPoly 8 Config.polyLow = X ^ 4 + X ^ 3 + X + 1 :=
  calc lowBitsPoly 8 Config.polyLow
    _ = 1 + X + X ^ 3 + X ^ 4 := by simp [lowBitsPoly, Finset.sum_range_succ, Config.polyLow]
    _ = X ^ 4 + X ^ 3 + X + 1 := by ring

/-- The bit that is shifted out is `x^8`, which `POLY` takes away. -/
theorem lowBitsPoly_gfShift (a : Byte) :
    lowBitsPoly 8 (gfShift a) = X * lowBitsPoly 8 a + if a.getLsbD 7 then fieldPoly else 0 := by
  have hshift : lowBitsPoly 8 (a <<< 1) = X * lowBitsPoly 7 a := by
    rw [lowBitsPoly_shiftLeft a (by omega), pow_one]
  rw [lowBitsPoly_succ 7 a, gfShift]
  split
  · rw [lowBitsPoly_xor, hshift, lowBitsPoly_polyLow, fieldPoly]
    linear_combination -CharTwo.add_self_eq_zero (X ^ 8 : (ZMod 2)[X])
  · rw [hshift, add_zero, add_zero]

@[simp] theorem residue_gfShift (a : Byte) : residue (gfShift a) = AdjoinRoot.root fieldPoly * residue a := by
  rw [residue, lowBitsPoly_gfShift, map_add, map_mul, AdjoinRoot.mk_X, apply_ite (AdjoinRoot.mk fieldPoly), AdjoinRoot.mk_self,
    map_zero, ite_self, add_zero, residue]

/-- The loop of R112, definition 2: each round adds the next multiple of `a`. -/
theorem residue_gfMulLoop (n : Nat) (p a b : Byte) :
    residue (gfMulLoop n p a b) = residue p + residue a * AdjoinRoot.mk fieldPoly (lowBitsPoly n b) := by
  induction n generalizing p a b with
  | zero => rw [gfMulLoop, lowBitsPoly_zero, map_zero, mul_zero, add_zero]
  | succ n ih =>
    rw [gfMulLoop, ih, lowBitsPoly_succ_shift, residue_gfShift, map_add, map_mul, AdjoinRoot.mk_X]
    cases b.getLsbD 0
    · simp
      ring
    · simp
      ring

/-- `gf_mul` is the product of the quotient. -/
@[simp] theorem residue_gfMul (a b : Byte) : residue (gfMul a b) = residue a * residue b := by
  rw [gfMul, residue_gfMulLoop, BitVec.ofNat_eq_ofNat, residue_zero, zero_add, ← residue]

/-! ### Definition 1 of `gf_mul` (R112) -/

/-- The carry-less product with the lowest `n` bits of `b`. -/
def carrylessBelow (a b : Byte) : Nat → BitVec 15
  | 0 => 0
  | n + 1 => if b.getLsbD n then carrylessBelow a b n ^^^ (a.setWidth 15 <<< n) else carrylessBelow a b n

theorem carrylessProduct_eq (a b : Byte) : carrylessProduct a b = carrylessBelow a b 8 := rfl

/-- A byte moved up within fifteen bits loses no bit. -/
theorem lowBitsPoly_setWidth_shiftLeft (a : Byte) {i : Nat} (hi : i < 8) :
    lowBitsPoly 15 (a.setWidth 15 <<< i) = X ^ i * lowBitsPoly 8 a := by
  rw [lowBitsPoly_shiftLeft _ (by omega)]
  refine congrArg _ (lowBitsPoly_congr fun k => ?_)
  have hk : a.getLsbD k = true → k < 8 := BitVec.lt_of_getLsbD
  simp only [BitVec.getLsbD_setWidth, Bool.and_eq_true, decide_eq_true_eq]
  grind

/-- The carry-less product is the product of the polynomials, before any reduction. -/
theorem lowBitsPoly_carrylessBelow (a b : Byte) {n : Nat} (hn : n ≤ 8) :
    lowBitsPoly 15 (carrylessBelow a b n) = lowBitsPoly 8 a * lowBitsPoly n b := by
  induction n with
  | zero => simp [carrylessBelow, lowBitsPoly]
  | succ n ih =>
    rw [carrylessBelow, lowBitsPoly_succ n b, mul_add, ← ih (by omega)]
    split
    · rw [lowBitsPoly_xor, lowBitsPoly_setWidth_shiftLeft a hn, mul_comm (X ^ n)]
    · rw [mul_zero, add_zero]

theorem residue_carrylessProduct (a b : Byte) : residue (carrylessProduct a b) = residue a * residue b := by
  rw [residue, carrylessProduct_eq, lowBitsPoly_carrylessBelow a b le_rfl, map_mul, ← residue, ← residue]

/-- `POLY` as a word of fifteen bits. -/
def polyWord : BitVec 15 := BitVec.ofNat 15 Config.poly

theorem polyWord_bit {k : Nat} (hk : 8 < k) : polyWord.getLsbD k = false :=
  Nat.testBit_lt_two_pow <|
    calc polyWord.toNat < 2 ^ 9 := by decide
      _ ≤ 2 ^ k := Nat.pow_le_pow_right (by norm_num) hk

theorem lowBitsPoly_polyWord {n : Nat} (hn : 8 < n) : lowBitsPoly n polyWord = fieldPoly := by
  calc lowBitsPoly n polyWord
    _ = lowBitsPoly 9 polyWord := lowBitsPoly_congr fun k => by
      rcases le_or_gt k 8 with hk | hk
      · simp [hk.trans_lt hn, Nat.lt_succ_of_le hk]
      · simp [polyWord_bit hk]
    _ = 1 + X + X ^ 3 + X ^ 4 + X ^ 8 := by
      simp [lowBitsPoly, Finset.sum_range_succ, polyWord, Config.poly]
    _ = fieldPoly := by
      rw [fieldPoly]
      ring

/-- One step of the reduction: a bit `k` that is 1 takes `POLY << (k - 8)` away. -/
def reduceBit (c : BitVec 15) (k : Nat) : BitVec 15 :=
  if c.getLsbD k then c ^^^ (polyWord <<< (k - 8)) else c

/-- The steps of the reduction for the bits `n + 7` down to 8. -/
def reduceBelow : Nat → BitVec 15 → BitVec 15
  | 0, c => c
  | n + 1, c => reduceBelow n (reduceBit c (n + 8))

theorem reducePoly_eq (c : BitVec 15) : reducePoly c = (reduceBelow 7 c).setWidth 8 := rfl

theorem residue_reduceBit (c : BitVec 15) {n : Nat} (hn : n < 7) : residue (reduceBit c (n + 8)) = residue c := by
  have hpoly : residue (polyWord <<< n) = 0 := by
    rw [residue, lowBitsPoly_shiftLeft _ (by omega), lowBitsPoly_polyWord (by omega), map_mul, AdjoinRoot.mk_self, mul_zero]
  rw [reduceBit]
  split
  · rw [residue_xor, Nat.add_sub_cancel, hpoly, add_zero]
  · rfl

/-- The step for a bit clears it, and sets none above it. -/
theorem reduceBit_clears {c : BitVec 15} {n : Nat} (hc : ∀ k, n + 8 < k → c.getLsbD k = false) {k : Nat} (hk : n + 8 ≤ k) :
    (reduceBit c (n + 8)).getLsbD k = false := by
  rcases hk.eq_or_lt with rfl | hlt
  · rw [reduceBit]
    split
    · next hbit =>
      rw [BitVec.getLsbD_xor, hbit, BitVec.getLsbD_shiftLeft]
      have h15 := BitVec.lt_of_getLsbD hbit
      simp [h15, polyWord, Config.poly]
    · next hbit => simpa using hbit
  · rw [reduceBit]
    split
    · rw [BitVec.getLsbD_xor, hc k hlt, BitVec.getLsbD_shiftLeft, polyWord_bit (by omega), Bool.and_false, Bool.xor_false]
    · exact hc k hlt

theorem residue_reduceBelow {n : Nat} (hn : n ≤ 7) (c : BitVec 15) : residue (reduceBelow n c) = residue c := by
  induction n generalizing c with
  | zero => rfl
  | succ n ih => rw [reduceBelow, ih (by omega), residue_reduceBit c hn]

/-- The whole reduction leaves eight bits. -/
theorem reduceBelow_bit (n : Nat) {c : BitVec 15} (hc : ∀ k, n + 8 ≤ k → c.getLsbD k = false) {k : Nat} (hk : 8 ≤ k) :
    (reduceBelow n c).getLsbD k = false := by
  induction n generalizing c with
  | zero => exact hc k (by omega)
  | succ n ih => exact ih fun k hk => reduceBit_clears (fun j hj => hc j (by omega)) hk

theorem residue_reducePoly (c : BitVec 15) : residue (reducePoly c) = residue c := by
  have hbit : ∀ k, 8 ≤ k → (reduceBelow 7 c).getLsbD k = false := fun k =>
    reduceBelow_bit 7 fun j hj => BitVec.getLsbD_of_ge c j hj
  rw [← residue_reduceBelow le_rfl c, residue, reducePoly_eq, residue]
  refine congrArg _ (lowBitsPoly_congr fun k => ?_)
  simp only [BitVec.getLsbD_setWidth, Bool.and_eq_true, decide_eq_true_eq]
  grind

/-- The two definitions of `gf_mul` are the product of the quotient. -/
theorem gfMulPoly_eq_gfMul (a b : Byte) : gfMulPoly a b = gfMul a b :=
  residue_injective <| by rw [gfMulPoly, residue_reducePoly, residue_carrylessProduct, residue_gfMul]

/-! ### The laws of the field (R120) -/

theorem gfMul_comm (a b : Byte) : gfMul a b = gfMul b a := residue_injective <| by simp [mul_comm]

theorem gfMul_assoc (a b c : Byte) : gfMul (gfMul a b) c = gfMul a (gfMul b c) := residue_injective <| by simp [mul_assoc]

theorem gfMul_gfAdd (a b c : Byte) : gfMul a (gfAdd b c) = gfAdd (gfMul a b) (gfMul a c) :=
  residue_injective <| by simp [mul_add]

theorem gfMul_zero (a : Byte) : gfMul a 0 = 0 := residue_injective <| by simp

theorem zero_gfMul (a : Byte) : gfMul 0 a = 0 := residue_injective <| by simp

theorem gfMul_one (a : Byte) : gfMul a 1 = a := residue_injective <| by simp

theorem one_gfMul (a : Byte) : gfMul 1 a = a := residue_injective <| by simp

/-! ### Inverses (R113, R114) -/

/-- Two inverses of one byte are equal. -/
theorem eq_of_gfMul_eq_one {a b c : Byte} (hb : gfMul a b = 1) (hc : gfMul a c = 1) : b = c :=
  calc b = gfMul (gfMul a c) b := by rw [hc, one_gfMul]
    _ = gfMul (gfMul a b) c := by rw [gfMul_assoc, gfMul_comm c b, gfMul_assoc]
    _ = c := by rw [hb, one_gfMul]

/-- The search of `gf_inv` finds an inverse wherever one exists, and no other byte. -/
theorem gfInv_eq_some_iff {a b : Byte} : gfInv a = some b ↔ gfMul a b = 1 := by
  refine ⟨gfMul_of_gfInv, fun h => ?_⟩
  cases hinv : gfInv a with
  | some c => rw [eq_of_gfMul_eq_one (gfMul_of_gfInv hinv) h]
  | none =>
    have ha : a ≠ 0 := by
      rintro rfl
      rw [zero_gfMul] at h
      cases h
    have hb : b ∈ (List.range 256).map (BitVec.ofNat 8) :=
      List.mem_map.mpr ⟨b.toNat, List.mem_range.mpr b.isLt, by rw [BitVec.ofNat_toNat, BitVec.setWidth_eq]⟩
    rw [gfInv, if_neg ha, List.find?_eq_none] at hinv
    exact absurd h (by simpa using hinv b hb)

/-- The products with the entries of the table of R114. -/
theorem gfInvByTable_products : ∀ a : Byte, a ≠ 0 → (gfInvByTable a).map (gfMul a) = some 1 := by
  decide +kernel

theorem exists_gfInvByTable {a : Byte} (ha : a ≠ 0) : ∃ b, gfInvByTable a = some b ∧ gfMul a b = 1 :=
  Option.map_eq_some_iff.mp (gfInvByTable_products a ha)

theorem gfInvByTable_eq_gfInv (a : Byte) : gfInvByTable a = gfInv a := by
  rcases eq_or_ne a 0 with rfl | ha
  · rw [gfInv_zero, gfInvByTable, if_pos rfl]
  · obtain ⟨b, htable, hb⟩ := exists_gfInvByTable ha
    rw [htable, gfInv_eq_some_iff.mpr hb]

/-- Every byte but 0 has an inverse: the table's. -/
theorem exists_gfInv {a : Byte} (ha : a ≠ 0) : ∃ b, gfInv a = some b ∧ gfMul a b = 1 :=
  gfInvByTable_eq_gfInv a ▸ exists_gfInvByTable ha

theorem eq_zero_or_eq_zero_of_gfMul {a b : Byte} (h : gfMul a b = 0) : a = 0 ∨ b = 0 := by
  rcases eq_or_ne a 0 with ha | ha
  · exact .inl ha
  · obtain ⟨c, -, hc⟩ := exists_gfInv ha
    right
    calc b = gfMul (gfMul a c) b := by rw [hc, one_gfMul]
      _ = gfMul c (gfMul a b) := by rw [gfMul_comm a c, gfMul_assoc]
      _ = 0 := by rw [h, gfMul_zero]

/-! ### The log tables (R121) -/

/-- `EXP[n mod 255]`. -/
def expEntry (n : Nat) : Byte := expTable.getD (n % 255) 0

/-- `LOG[a]`. -/
def logEntry (a : Byte) : Nat := logTable.getD a.toNat 0

theorem gfMulByTables_eq_expEntry {a b : Byte} (ha : a ≠ 0) (hb : b ≠ 0) :
    gfMulByTables a b = expEntry (logEntry a + logEntry b) :=
  if_neg (not_or_intro ha hb)

theorem gfInvByTables_eq_expEntry {a : Byte} (ha : a ≠ 0) : gfInvByTables a = some (expEntry (255 - logEntry a)) :=
  if_neg ha

/-- Each entry of `EXP` is the one before it times the generator, and the first comes after the last. -/
theorem expTable_entries : ∀ n < 255, expTable.getD ((n + 1) % 255) 0 = gfMul 0x03 (expTable.getD n 0) := by
  decide +kernel

/-- `LOG` is the inverse map of `EXP`. -/
theorem expEntry_logEntry : ∀ a : Byte, a ≠ 0 → expEntry (logEntry a) = a := by
  decide +kernel

theorem logEntry_le : ∀ a : Byte, logEntry a ≤ 255 := by
  decide +kernel

theorem expEntry_succ (n : Nat) : expEntry (n + 1) = gfMul 0x03 (expEntry n) := by
  rw [expEntry, expEntry, ← expTable_entries _ (Nat.mod_lt n (by norm_num)), Nat.mod_add_mod]

/-- The entries are powers of one byte: exponents add. -/
theorem expEntry_add (m n : Nat) : expEntry (m + n) = gfMul (expEntry m) (expEntry n) := by
  induction m with
  | zero => rw [show expEntry 0 = 1 from rfl, one_gfMul, zero_add]
  | succ m ih => rw [Nat.succ_add, expEntry_succ, ih, expEntry_succ, gfMul_assoc]

theorem gfMulByTables_eq_gfMul (a b : Byte) : gfMulByTables a b = gfMul a b := by
  rcases eq_or_ne a 0 with rfl | ha
  · rw [zero_gfMul, gfMulByTables, if_pos (.inl rfl)]
  rcases eq_or_ne b 0 with rfl | hb
  · rw [gfMul_zero, gfMulByTables, if_pos (.inr rfl)]
  · rw [gfMulByTables_eq_expEntry ha hb, expEntry_add, expEntry_logEntry a ha, expEntry_logEntry b hb]

theorem gfInvByTables_eq_gfInv (a : Byte) : gfInvByTables a = gfInv a := by
  rcases eq_or_ne a 0 with rfl | ha
  · rw [gfInv_zero, gfInvByTables, if_pos rfl]
  · rw [gfInvByTables_eq_expEntry ha, eq_comm, gfInv_eq_some_iff]
    calc gfMul a (expEntry (255 - logEntry a))
      _ = expEntry (logEntry a + (255 - logEntry a)) := by rw [expEntry_add, expEntry_logEntry a ha]
      _ = expEntry 255 := by rw [Nat.add_sub_cancel' (logEntry_le a)]
      _ = 1 := rfl

/-! ### The field commands (R116 to R119) -/

theorem exec_gfAdd (s : State) : exec .gfAdd s = .next (s.withGfr (gfAdd s.gfa s.gfb)).succeed := rfl

theorem exec_gfSub (s : State) : exec .gfSub s = .next (s.withGfr (gfSub s.gfa s.gfb)).succeed := rfl

theorem exec_gfMul (s : State) : exec .gfMul s = .next (s.withGfr (gfMul s.gfa s.gfb)).succeed := rfl

theorem exec_gfInv_none {s : State} (h : gfInv s.gfa = none) : exec .gfInv s = .next (s.raise .undefinedInverse 0) := by
  obtain ⟨-, hexec⟩ | ⟨v, hv, -⟩ := execGfInv_cases s
  · exact hexec
  · cases h.symm.trans hv

theorem exec_gfInv_some {s : State} {v : Byte} (h : gfInv s.gfa = some v) :
    exec .gfInv s = .next (s.withGfr v).succeed := by
  obtain ⟨hn, -⟩ | ⟨v', hv, hexec⟩ := execGfInv_cases s
  · cases h.symm.trans hn
  · cases h.symm.trans hv
    exact hexec

end Sys2Proof.Machine

namespace Sys2Proof.Proofs
open Sys2Proof.Machine Sys2Proof.Claims

/-- Settles O6: `gf_mul` is the product of the quotient, and a byte is the remainder of its own class. -/
theorem gfMulIsThePolynomialProduct : Obligations.GfMulIsThePolynomialProduct := by
  intro a b
  rw [bytePoly_eq_modByMonicHom, residue_gfMul, residue, residue, ← map_mul, AdjoinRoot.modByMonicHom_mk, ← bytePoly_eq,
    ← bytePoly_eq]

/-- Settles O7: both definitions are the product of the quotient. -/
theorem gfMulDefinitionsAgree : Obligations.GfMulDefinitionsAgree := gfMulPoly_eq_gfMul

/-- Settles O8: the laws are those of the quotient, which the bytes embed in; inverses are the table's. -/
theorem fieldLawsHold : Obligations.FieldLawsHold :=
  ⟨fun a b => BitVec.xor_comm a b, gfMul_comm, fun a b c => (gfMul_assoc a b c).symm, gfMul_gfAdd,
    fun _ ha => exists_gfInv ha, fun a => ⟨gfMul_zero a, zero_gfMul a, gfMul_one a, one_gfMul a⟩,
    fun _ _ h => eq_zero_or_eq_zero_of_gfMul h⟩

/-- Settles O9: `gf_inv` answers exactly the inverses, and being an inverse is symmetric. -/
theorem inverseIsUnique : Obligations.InverseIsUnique := by
  refine ⟨fun a ha => ?_, gfInv_eq_some_iff.mpr (gfMul_one 1), gfInv_zero, fun b => ?_, fun s hs => ?_⟩
  · obtain ⟨b, hinv, hb⟩ := exists_gfInv ha
    refine ⟨b, hinv, hb, ?_, fun c hc => eq_of_gfMul_eq_one hc hb, gfInv_eq_some_iff.mpr (gfMul_comm b a ▸ hb)⟩
    rintro rfl
    rw [gfMul_zero] at hb
    cases hb
  · rw [zero_gfMul]
    decide
  · exact exec_gfInv_none (hs ▸ gfInv_zero)

/-- Settles O12: the tables hold the powers of 0x03 and their exponents. -/
theorem logTablesAgree : Obligations.LogTablesAgree := ⟨gfMulByTables_eq_gfMul, gfInvByTables_eq_gfInv⟩

/-- Settles O16, by whether `gf_inv` has a value. -/
theorem gfInvWritesTheInverse : Obligations.GfInvWritesTheInverse := by
  refine ⟨decode_encode .gfInv, fun s => ⟨fun hs => exec_gfInv_none (hs ▸ gfInv_zero), fun hs => ?_⟩⟩
  obtain ⟨v, hinv, hv⟩ := exists_gfInv hs
  exact ⟨v, hv, hinv, exec_gfInv_some hinv⟩

/-- Settles O10: an inverse that the table lists is the only one. -/
theorem inverseTableIsRight : Obligations.InverseTableIsRight := ⟨gfInvByTable_eq_gfInv, rfl⟩

/-- Settles O11: the two inverses are given by their products. -/
theorem inverseOfThree : Obligations.InverseOfThree :=
  ⟨rfl, gfInv_eq_some_iff.mpr rfl, rfl, rfl, rfl, gfInv_eq_some_iff.mpr rfl⟩

/-- Settles O13. -/
theorem gfAddWritesTheXor : Obligations.GfAddWritesTheXor := ⟨decode_encode .gfAdd, exec_gfAdd⟩

/-- Settles O14: `gf_sub` is the xor that `gf_add` is (R111). -/
theorem gfSubWritesTheXor : Obligations.GfSubWritesTheXor := ⟨decode_encode .gfSub, fun s => ⟨exec_gfSub s, rfl⟩⟩

/-- Settles O15. -/
theorem gfMulWritesTheProduct : Obligations.GfMulWritesTheProduct :=
  ⟨decode_encode .gfMul, exec_gfMul, fun a => ⟨gfMul_zero a, zero_gfMul a, gfMul_one a, one_gfMul a⟩,
    by decide⟩

end Sys2Proof.Proofs
end

section
/-! SUPPORT. The codec: fields of bits of a number, the 132-bit string of a mnemonic, the lookup, and what the codec commands
do with them. -/

namespace Sys2Proof.Machine
open Sys2Proof.Claims

variable {w p : Nat}

/-! ### Fields of bits -/

/-- The `width` bits of `n` from bit `place` on, as a number. The bytes and the indices of the codec are such fields
(`entropyOf132_getElem`, `unpack132_getElem`). -/
def bitField (n place width : Nat) : Nat := (n >>> place) % 2 ^ width

theorem bitField_eq_and (n place width : Nat) : bitField n place width = (n >>> place) &&& (2 ^ width - 1) :=
  (Nat.and_two_pow_sub_one_eq_mod _ _).symm

theorem bitField_lt (n place width : Nat) : bitField n place width < 2 ^ width := Nat.mod_lt _ (by positivity)

theorem testBit_bitField (n place width i : Nat) :
    (bitField n place width).testBit i = (decide (i < width) && n.testBit (place + i)) := by
  rw [bitField, Nat.testBit_mod_two_pow, Nat.testBit_shiftRight]

theorem bitField_shiftRight (n k place width : Nat) : bitField (n >>> k) place width = bitField n (k + place) width := by
  rw [bitField, bitField, Nat.shiftRight_add]

section
variable {n place width d : Nat}

/-- A field inside a field. -/
theorem bitField_inside (h : bitField n place width = d) (r : Nat) {m : Nat} (hm : r + m ≤ width := by decide) :
    bitField n (place + r) m = (d >>> r) &&& (2 ^ m - 1) := by
  rw [← h, ← bitField_eq_and]
  refine Nat.eq_of_testBit_eq fun i => ?_
  simp only [testBit_bitField, Nat.add_assoc]
  by_cases hi : i < m <;> simp [hi, show i < m → r + i < width by omega]

/-- The low bits of a field. -/
theorem bitField_low (h : bitField n place width = d) (m : Nat) (hm : m ≤ width := by decide) :
    bitField n place m = d &&& (2 ^ m - 1) :=
  bitField_inside h 0 (by omega)

/-- The bits of a field from bit `r` up. -/
theorem bitField_high (h : bitField n place width = d) (r : Nat) (hr : r ≤ width := by decide) :
    bitField n (place + r) (width - r) = d >>> r := by
  have hd : d >>> r < 2 ^ (width - r) := by
    rw [Nat.shiftRight_eq_div_pow, Nat.div_lt_iff_lt_mul (by positivity), ← pow_add, Nat.sub_add_cancel hr, ← h]
    exact bitField_lt ..
  rw [bitField_inside h r (by omega), Nat.and_two_pow_sub_one_of_lt_two_pow hd]

/-- Two fields side by side are one. -/
theorem bitField_concat (j : Nat) {m hi lo : Nat} (hhi : bitField n (place + j) m = hi) (hlo : bitField n place j = lo) :
    bitField n place (j + m) = hi <<< j ||| lo := by
  rw [← hhi, ← hlo]
  refine Nat.eq_of_testBit_eq fun i => ?_
  simp only [Nat.testBit_or, Nat.testBit_shiftLeft, testBit_bitField]
  by_cases hij : i < j
  · simp [hij, show ¬ j ≤ i by omega, show i < j + m by omega]
  · simp [hij, show j ≤ i by omega, show place + j + (i - j) = place + i by omega, show i - j < m ↔ i < j + m by omega]

/-- Three fields side by side are one. -/
theorem bitField_concat₃ (k j : Nat) {m hi mid lo : Nat} (hhi : bitField n (place + j + k) m = hi)
    (hmid : bitField n (place + j) k = mid) (hlo : bitField n place j = lo) :
    bitField n place (j + (k + m)) = hi <<< (k + j) ||| mid <<< j ||| lo := by
  rw [bitField_concat j (bitField_concat k hhi hmid) hlo, Nat.shiftLeft_or_distrib, Nat.shiftLeft_add]

end

/-! ### Numbers by their digits -/

/-- Horner's rule on `n` digits stays below `b ^ n`. -/
theorem horner_lt {α : Type} {b : Nat} {d : α → Nat} (hd : ∀ x, d x < b) {n : Nat} (f : Fin n → α) :
    (List.ofFn f).foldl (fun m x => m * b + d x) 0 < b ^ n := by
  induction n with
  | zero => simp
  | succ n ih =>
    have hlast := hd (f (Fin.last n))
    have hinit := ih fun i => f i.castSucc
    rw [List.ofFn_succ', List.concat_eq_append, List.foldl_append, pow_succ]
    calc _ < (List.ofFn fun i : Fin n => f i.castSucc).foldl (fun m x => m * b + d x) 0 * b + b :=
          Nat.add_lt_add_left hlast _
      _ ≤ b ^ n * b := by
          rw [← Nat.succ_mul]
          exact Nat.mul_le_mul_right b hinit

/-- Horner's rule on the digits of a number gives the number back. -/
theorem horner_digits {α : Type} {b : Nat} {d : α → Nat} {n m : Nat} (hm : m < b ^ n) (f : Fin n → α)
    (hf : ∀ i : Fin n, d (f i) = m / b ^ (n - 1 - i.val) % b) : (List.ofFn f).foldl (fun m x => m * b + d x) 0 = m := by
  induction n generalizing m with
  | zero => simpa [Nat.lt_one_iff, eq_comm] using hm
  | succ n ih =>
    have hinit : ∀ i : Fin n, d (f i.castSucc) = m / b / b ^ (n - 1 - i.val) % b := fun i => by
      rw [hf, Nat.div_div_eq_div_mul, ← pow_succ']
      simp [show n - 1 - i.val + 1 = n - i.val by omega]
    have hlast : d (f (Fin.last n)) = m % b := by simp [hf]
    rw [List.ofFn_succ', List.concat_eq_append, List.foldl_append, ih (Nat.div_lt_of_lt_mul (pow_succ' b n ▸ hm)) _ hinit]
    simpa [hlast] using Nat.div_add_mod' m b

theorem blockNumber_lt (e : Block) : blockNumber e < 2 ^ 128 := by
  rw [blockNumber_eq_horner]
  exact horner_lt (fun v : Byte => v.isLt) _

theorem blockOfNumber_getElem (n : Nat) (i : Fin 16) : (blockOfNumber n)[i].toNat = bitField n (8 * (15 - i.val)) 8 := by
  simp [blockOfNumber, bitField]

theorem blockNumber_blockOfNumber {n : Nat} (hn : n < 2 ^ 128) : blockNumber (blockOfNumber n) = n := by
  rw [blockNumber_eq_horner]
  refine horner_digits (n := 16) (b := 256) hn _ fun i => ?_
  rw [blockOfNumber_getElem, bitField, Nat.shiftRight_eq_div_pow, pow_mul]
  rfl

/-! ### The string of twelve indices (R141) -/

theorem pack132_eq_horner (idx : Vector (Fin 2048) 12) :
    pack132 idx = (List.ofFn fun k : Fin 12 => idx[k]).foldl (fun m i => m * 2048 + i.val) 0 := by
  have hlist : idx.toList = List.ofFn fun k : Fin 12 => idx[k] := List.ext_getElem (by simp) fun k _ _ => by
    simp only [Vector.getElem_toList, List.getElem_ofFn]
    rfl
  rw [pack132, hlist]

theorem pack132_eq_sum (idx : Vector (Fin 2048) 12) : pack132 idx = ∑ k : Fin 12, idx[k].val * 2 ^ (11 * (11 - k.val)) := by
  rw [pack132_eq_horner, horner_eq_sum]
  simp only [pow_mul]
  rfl

theorem pack132_lt (idx : Vector (Fin 2048) 12) : pack132 idx < 2 ^ 132 := by
  rw [pack132_eq_horner]
  exact horner_lt (fun i : Fin 2048 => i.isLt) _

/-- Index `k` is the field of 11 bits at its place. -/
theorem pack132_index (idx : Vector (Fin 2048) 12) (k : Fin 12) :
    bitField (pack132 idx) (11 * (11 - k.val)) 11 = idx[k].val := by
  rw [pack132_eq_horner, bitField, Nat.shiftRight_eq_div_pow, pow_mul]
  exact horner_digit (fun i : Fin 2048 => i.isLt) (fun k : Fin 12 => idx[k]) k

theorem pack132_testBit (idx : Vector (Fin 2048) 12) (k : Fin 12) (j : Fin 11) :
    (pack132 idx).testBit (131 - (11 * k.val + j.val)) = idx[k].val.testBit (10 - j.val) := by
  rw [← pack132_index, testBit_bitField, show 131 - (11 * k.val + j.val) = 11 * (11 - k.val) + (10 - j.val) by omega]
  simp [show 10 - j.val < 11 by omega]

/-! ### The string of an entropy and a checksum (R142, R147) -/

theorem entropyOf132_getElem (n : Nat) (i : Fin 16) : (entropyOf132 n)[i].toNat = bitField n (4 + 8 * (15 - i.val)) 8 := by
  rw [entropyOf132, blockOfNumber_getElem, bitField_shiftRight]

theorem checksumOf132_toNat (n : Nat) : (checksumOf132 n).toNat = bitField n 0 4 := by simp [checksumOf132, bitField]

theorem unpack132_getElem (e : Block) (cs : BitVec 4) (k : Fin 12) :
    (unpack132 e cs)[k].val = bitField (join132 e cs) (11 * (11 - k.val)) 11 := by
  simp [unpack132, bitField]

theorem join132_eq_add (e : Block) (cs : BitVec 4) : join132 e cs = blockNumber e * 16 + cs.toNat := by
  rw [join132, ← Nat.shiftLeft_add_eq_or_of_lt cs.isLt, Nat.shiftLeft_eq]

theorem join132_lt (e : Block) (cs : BitVec 4) : join132 e cs < 2 ^ 132 := by
  have he := blockNumber_lt e
  have hcs := cs.isLt
  rw [join132_eq_add]
  omega

theorem join132_shiftRight (e : Block) (cs : BitVec 4) : join132 e cs >>> 4 = blockNumber e := by
  have hcs := cs.isLt
  rw [join132_eq_add, Nat.shiftRight_eq_div_pow]
  omega

@[simp] theorem entropyOf132_join132 (e : Block) (cs : BitVec 4) : entropyOf132 (join132 e cs) = e := by
  rw [entropyOf132, join132_shiftRight, blockOfNumber_blockNumber]

@[simp] theorem checksumOf132_join132 (e : Block) (cs : BitVec 4) : checksumOf132 (join132 e cs) = cs := by
  have hcs := cs.isLt
  apply BitVec.eq_of_toNat_eq
  rw [checksumOf132, BitVec.toNat_ofNat, join132_eq_add]
  omega

/-- A string of 132 bits is its entropy followed by its checksum. -/
theorem join132_split {n : Nat} (hn : n < 2 ^ 132) : join132 (entropyOf132 n) (checksumOf132 n) = n := by
  have he : n >>> 4 = n / 16 := Nat.shiftRight_eq_div_pow n 4
  rw [join132_eq_add, entropyOf132, blockNumber_blockOfNumber (by omega), he, checksumOf132, BitVec.toNat_ofNat]
  omega

theorem pack132_unpack132 (e : Block) (cs : BitVec 4) : pack132 (unpack132 e cs) = join132 e cs := by
  rw [pack132_eq_horner]
  refine horner_digits (n := 12) (b := 2048) (join132_lt e cs) _ fun k => ?_
  rw [unpack132_getElem, bitField, Nat.shiftRight_eq_div_pow, pow_mul]
  rfl

theorem unpack132_split (idx : Vector (Fin 2048) 12) :
    unpack132 (entropyOf132 (pack132 idx)) (checksumOf132 (pack132 idx)) = idx := by
  ext k hk
  exact (unpack132_getElem _ _ ⟨k, hk⟩).trans (by rw [join132_split (pack132_lt idx), pack132_index]; rfl)

/-- Byte `i` of the entropy is the field of 8 bits at its place in the string. -/
theorem join132_byte (e : Block) (cs : BitVec 4) (i : Fin 16) :
    bitField (join132 e cs) (4 + 8 * (15 - i.val)) 8 = e[i].toNat := by
  rw [← entropyOf132_getElem, entropyOf132_join132]

/-- The checksum is the field of the low 4 bits of the string. -/
theorem join132_checksum (e : Block) (cs : BitVec 4) : bitField (join132 e cs) 0 4 = cs.toNat := by
  rw [← checksumOf132_toNat, checksumOf132_join132]

/-- Only the last word depends on the checksum (R147). -/
theorem unpack132_getElem_of_lt (e : Block) (c d : BitVec 4) {k : Fin 12} (hk : k.val < 11) :
    (unpack132 e c)[k] = (unpack132 e d)[k] := by
  have hplace : 11 * (11 - k.val) = 4 + (11 * (11 - k.val) - 4) := by omega
  apply Fin.ext
  simp only [unpack132_getElem]
  rw [hplace, ← bitField_shiftRight, ← bitField_shiftRight, join132_shiftRight, join132_shiftRight]

/-- The last word is the last 7 bits of the entropy and the checksum (R147). -/
theorem unpack132_last (e : Block) (cs : BitVec 4) : (unpack132 e cs)[11].val = ((e[15].toNat &&& 0x7F) <<< 4) ||| cs.toNat :=
  (unpack132_getElem e cs 11).trans (bitField_concat 4 (bitField_low (join132_byte e cs 15) 7) (join132_checksum e cs))

/-- A string with the same entropy has the same indices but for the last. -/
theorem unpack132_getElem_of_entropy {idx : Vector (Fin 2048) 12} {e : Block} (h : entropyOf132 (pack132 idx) = e)
    (cs : BitVec 4) {k : Fin 12} (hk : k.val < 11) : (unpack132 e cs)[k] = idx[k] := by
  rw [← h, unpack132_getElem_of_lt _ cs (checksumOf132 (pack132 idx)) hk, unpack132_split]

/-- Another value in the low four bits of the last index is another checksum for the same entropy (R148). -/
theorem unpack132_withLast (idx : Vector (Fin 2048) 12) (c : BitVec 4) (k : Fin 12) :
    (unpack132 (entropyOf132 (pack132 idx)) c)[k] =
      if k.val = 11 then Fin.ofNat 2048 (idx[11].val / 16 * 16 + c.toNat) else idx[k] := by
  split
  case isTrue hk =>
    obtain rfl : k = 11 := Fin.ext hk
    have hlast : ∀ cs, (unpack132 (entropyOf132 (pack132 idx)) cs)[11].val =
        (blockNumber (entropyOf132 (pack132 idx)) * 16 + cs.toNat) % 2048 := fun cs =>
      (unpack132_getElem _ cs 11).trans (by rw [join132_eq_add]; rfl)
    have hidx := hlast (checksumOf132 (pack132 idx))
    rw [unpack132_split] at hidx
    have hc := c.isLt
    have hd := (checksumOf132 (pack132 idx)).isLt
    apply Fin.ext
    refine (hlast c).trans ?_
    rw [Fin.val_ofNat, hidx]
    omega
  case isFalse hk => exact unpack132_getElem_of_entropy rfl c (by omega)

/-! ### The lookup (R140) -/

theorem wlIndex_eq_some_iff {wl : Fin 2048 → Token w} {t : Token w} {i : Fin 2048} :
    wlIndex wl t = some i ↔ wl i = t ∧ ∀ j, j < i → wl j ≠ t := by
  rw [wlIndex, ← Fin.find?_eq_find?_finRange, Fin.find?_eq_some_iff]
  simp

theorem wlIndex_eq_none_iff {wl : Fin 2048 → Token w} {t : Token w} : wlIndex wl t = none ↔ ∀ i, wl i ≠ t := by
  simp [wlIndex]

theorem wlIndex_of_unique {s : State.Of w p} (h : s.wordlistUnique) (i : Fin 2048) :
    wlIndex s.wlToken (s.wlToken i) = some i :=
  wlIndex_eq_some_iff.mpr ⟨rfl, fun j hj he => hj.ne (h j i he)⟩

theorem firstUnknownSlot_eq_some {wl : Fin 2048 → Token w} {mn : Vector (Token w) 12} {slot : Fin 12}
    (hslot : wlIndex wl mn[slot] = none) (hbefore : ∀ k : Fin 12, k < slot → ∃ i, wl i = mn[k]) :
    firstUnknownSlot wl mn = some slot := by
  rw [firstUnknownSlot, ← Fin.find?_eq_find?_finRange, Fin.find?_eq_some_iff]
  refine ⟨Option.isNone_iff_eq_none.mpr hslot, fun k hk => ?_⟩
  obtain ⟨i, hi⟩ := hbefore k hk
  exact Option.isNone_eq_false_iff.mpr (Option.isSome_iff_ne_none.mpr fun hnone => wlIndex_eq_none_iff.mp hnone i hi)

theorem slotIndices_getElem (wl : Fin 2048 → Token w) (mn : Vector (Token w) 12) (k : Fin 12) :
    (slotIndices wl mn)[k] = (wlIndex wl mn[k]).getD 0 := by
  simp [slotIndices]

/-- A slot whose token is in the wordlist has its index in the string. -/
theorem wlIndex_slot {wl : Fin 2048 → Token w} {mn : Vector (Token w) 12} {k : Fin 12} (h : ∃ i, wl i = mn[k]) :
    wlIndex wl mn[k] = some (slotIndices wl mn)[k] := by
  obtain ⟨i, hi⟩ := h
  obtain ⟨j, hj⟩ := Option.ne_none_iff_exists'.mp fun hnone => wlIndex_eq_none_iff.mp hnone i hi
  rw [slotIndices_getElem, hj, Option.getD_some]

section
variable {wl : Fin 2048 → Token w} {mn : Vector (Token w) 12} {idx : Vector (Fin 2048) 12}
  (h : ∀ k : Fin 12, wlIndex wl mn[k] = some idx[k])
include h

theorem firstUnknownSlot_eq_none : firstUnknownSlot wl mn = none := by
  refine List.find?_eq_none.mpr fun k _ => ?_
  rw [h k]
  simp

theorem slotIndices_eq : slotIndices wl mn = idx := by
  ext k hk : 1
  refine (slotIndices_getElem wl mn ⟨k, hk⟩).trans ?_
  rw [h ⟨k, hk⟩]
  rfl

end

/-! ### The checksum (R143) -/

theorem cks_toNat (hash : List Byte → List Byte) (e : Block) :
    (cks hash e).toNat = ((hash e.toList).headD 0).toNat >>> 4 := by
  have hb := ((hash e.toList).headD 0).isLt
  rw [cks, blockBytes, BitVec.extractLsb'_toNat, Nat.mod_eq_of_lt]
  rw [Nat.shiftRight_eq_div_pow]
  omega

theorem checksumOf_eq (e : Block) : checksumOf e = (cks unitHash e).toNat := (cks_toNat unitHash e).symm

/-! ### `MN_DECODE` (R144), an equation for each of its ends -/

theorem exec_mnDecode (s : State) : exec .mnDecode s = .next (decodeMnemonic unitHash s) := rfl

theorem decodeMnemonic_unlocked (hash : List Byte → List Byte) {s : State.Of w p} (hl : s.wlLock = false) :
    decodeMnemonic hash s = s.raise .wordlistNotLoaded 0 := if_pos hl

theorem decodeMnemonic_wrongCount (hash : List Byte → List Byte) {s : State.Of w p} (hl : s.wlLock = true)
    (hc : s.mnCount ≠ 12) :
    decodeMnemonic hash s = s.raise .invalidMnemonicLength 0 := by
  rw [decodeMnemonic, if_neg (by simp [hl])]
  exact if_pos hc

section
variable {hash : List Byte → List Byte} {s : State.Of w p} (hl : s.wlLock = true) (hc : s.mnCount = 12)
include hl hc

theorem decodeMnemonic_unknown {slot : Fin 12} (h : firstUnknownSlot s.wlToken s.mn = some slot) :
    decodeMnemonic hash s = s.raise .unknownWord (slotDetail slot) := by
  simp [decodeMnemonic, hl, hc, Config.mnWords, h]

theorem decodeMnemonic_known (h : firstUnknownSlot s.wlToken s.mn = none) :
    decodeMnemonic hash s = decodeKnownWords hash s := by
  simp [decodeMnemonic, hl, hc, Config.mnWords, h]

variable {idx : Vector (Fin 2048) 12} (h : ∀ k : Fin 12, wlIndex s.wlToken s.mn[k] = some idx[k])
include h

/-- Where the lookup finds all twelve words, the string is that of the indices it answers. -/
theorem decodeMnemonic_indices : decodeMnemonic hash s = decodeKnownWords hash s ∧ s.mnemonicNumber = pack132 idx :=
  ⟨decodeMnemonic_known hl hc (firstUnknownSlot_eq_none h), congrArg pack132 (slotIndices_eq h)⟩

theorem decodeMnemonic_mismatch (hs : s.strict = true)
    (hne : cks hash (entropyOf132 (pack132 idx)) ≠ checksumOf132 (pack132 idx)) :
    decodeMnemonic hash s = s.raise .checksumMismatch
      (checksumDetail (checksumOf132 (pack132 idx)) (cks hash (entropyOf132 (pack132 idx)))) := by
  obtain ⟨hdecode, hnumber⟩ := decodeMnemonic_indices (hash := hash) hl hc h
  rw [hdecode, ← hnumber]
  exact if_pos ⟨hs, hnumber ▸ hne⟩

theorem decodeMnemonic_succeeds
    (hcs : s.strict = true → cks hash (entropyOf132 (pack132 idx)) = checksumOf132 (pack132 idx)) :
    decodeMnemonic hash s = (s.withEntropy (entropyOf132 (pack132 idx)) 16).succeed := by
  obtain ⟨hdecode, hnumber⟩ := decodeMnemonic_indices (hash := hash) hl hc h
  rw [hdecode, ← hnumber]
  exact if_neg fun hbad => hbad.2 (hnumber ▸ hcs hbad.1)

end

/-! ### `MN_ENCODE` (R145), an equation for each of its ends -/

theorem exec_mnEncode (s : State) : exec .mnEncode s = .next (encodeMnemonic unitHash s) := rfl

theorem encodeMnemonic_unlocked (hash : List Byte → List Byte) {s : State.Of w p} (hl : s.wlLock = false) :
    encodeMnemonic hash s = s.raise .wordlistNotLoaded 0 := if_pos hl

theorem encodeMnemonic_wrongLength (hash : List Byte → List Byte) {s : State.Of w p} (hl : s.wlLock = true)
    (hlen : s.entLen ≠ 16) :
    encodeMnemonic hash s = s.raise .invalidEntropyLength 0 := by
  rw [encodeMnemonic, if_neg (by simp [hl])]
  exact if_pos hlen

theorem encodeMnemonic_succeeds (hash : List Byte → List Byte) {s : State.Of w p} (hl : s.wlLock = true)
    (hlen : s.entLen = 16) :
    encodeMnemonic hash s = (s.withMnemonic (s.mnemonicOf hash s.ent) 12).succeed := by
  rw [encodeMnemonic, if_neg (by simp [hl])]
  exact if_neg (not_not.mpr hlen)

/-- The words of an entropy, by the number of its string. -/
theorem State.Of.mnemonicOf_eq (s : State.Of w p) (hash : List Byte → List Byte) (e : Block) :
    s.mnemonicOf hash e = Vector.ofFn fun k : Fin 12 =>
      s.wlToken (Fin.ofNat 2048 ((join132 e (cks hash e) >>> (11 * (11 - k.val))) &&& 0x7FF)) := by
  refine congrArg Vector.ofFn (funext fun k => congrArg s.wlToken (Fin.ext ?_))
  have hlt := bitField_lt (join132 e (cks hash e)) (11 * (11 - k.val)) 11
  rw [unpack132_getElem, ← Nat.mod_eq_of_lt hlt, bitField_eq_and]
  rfl

/-- Decoding what was encoded (R146). -/
theorem decodeMnemonic_encodeMnemonic (hash : List Byte → List Byte) {s : State.Of w p} (hl : s.wlLock = true)
    (hlen : s.entLen = 16) (hu : s.wordlistUnique) :
    decodeMnemonic hash (encodeMnemonic hash s) = ((encodeMnemonic hash s).withEntropy s.ent 16).succeed := by
  have hindex : ∀ k : Fin 12, wlIndex s.wlToken (s.mnemonicOf hash s.ent)[k] = some (unpack132 s.ent (cks hash s.ent))[k] :=
    fun k => by rw [State.Of.mnemonicOf_getElem, wlIndex_of_unique hu]
  have hdecode := decodeMnemonic_succeeds (hash := hash) (s := (s.withMnemonic (s.mnemonicOf hash s.ent) 12).succeed)
    hl rfl hindex
  rw [encodeMnemonic_succeeds hash hl hlen]
  simpa [pack132_unpack132] using hdecode

/-! ### Sixteen last words (R148), and duplicate entries (R150) -/

/-- `MN_DECODE` of the words that an entropy and a checksum stand for: the checksum counts in strict mode only (R148). -/
theorem decodeMnemonic_of_words (hash : List Byte → List Byte) {s : State.Of w p} (hl : s.wlLock = true)
    (hc : s.mnCount = 12) (hu : s.wordlistUnique) {e : Block} {cs : BitVec 4}
    (hmn : ∀ k : Fin 12, s.mn[k] = s.wlToken (unpack132 e cs)[k]) :
    ((decodeMnemonic hash s).err = 0 ↔ (s.strict = true → cks hash e = cs)) ∧
    (s.strict = false → (decodeMnemonic hash s).ent = e) := by
  have hindex : ∀ k : Fin 12, wlIndex s.wlToken s.mn[k] = some (unpack132 e cs)[k] := fun k => by
    rw [hmn, wlIndex_of_unique hu]
  have hmismatch := decodeMnemonic_mismatch (hash := hash) hl hc hindex
  have hsucceeds := decodeMnemonic_succeeds (hash := hash) hl hc hindex
  rw [pack132_unpack132, entropyOf132_join132, checksumOf132_join132] at hmismatch hsucceeds
  refine ⟨⟨fun herr hs => by_contra fun hne => ?_, fun hcs => ?_⟩, fun hs => ?_⟩
  · rw [hmismatch hs hne] at herr
    exact s.raise_err_ne _ _ herr
  · rw [hsucceeds hcs]
    rfl
  · rw [hsucceeds (by simp [hs])]
    rfl

end Sys2Proof.Machine

namespace Sys2Proof.Proofs
open Sys2Proof.Machine Sys2Proof.Claims

/-- Settles O18. -/
theorem packedStringHasTheIndexBits : Obligations.PackedStringHasTheIndexBits := fun idx =>
  ⟨pack132_eq_sum idx, pack132_lt idx, pack132_testBit idx⟩

/-- Settles O21. -/
theorem packAndUnpackAreInverse : Obligations.PackAndUnpackAreInverse := by
  refine ⟨fun e cs => ?_, unpack132_split⟩
  rw [pack132_unpack132]
  exact ⟨rfl, entropyOf132_join132 e cs, checksumOf132_join132 e cs⟩

/-- Settles O19: the table says which bits of which indices a byte is made of. -/
theorem splitByteByByte : Obligations.SplitByteByByte := by
  intro idx n e v
  have byte : ∀ i : Fin 16, e[i].toNat = bitField n (4 + 8 * (15 - i.val)) 8 := entropyOf132_getElem n
  have index : ∀ k : Fin 12, bitField n (11 * (11 - k.val)) 11 = v k := pack132_index idx
  refine ⟨fun i => ?_,
    (byte 0).trans (bitField_high (index 0) 3),
    (byte 1).trans (bitField_concat 5 (bitField_low (index 0) 3) (bitField_high (index 1) 6)),
    (byte 2).trans (bitField_concat 2 (bitField_low (index 1) 6) (bitField_high (index 2) 9)),
    (byte 3).trans (bitField_inside (index 2) 1),
    (byte 4).trans (bitField_concat 7 (bitField_low (index 2) 1) (bitField_high (index 3) 4)),
    (byte 5).trans (bitField_concat 4 (bitField_low (index 3) 4) (bitField_high (index 4) 7)),
    (byte 6).trans (bitField_concat 1 (bitField_low (index 4) 7) (bitField_high (index 5) 10)),
    (byte 7).trans (bitField_inside (index 5) 2),
    (byte 8).trans (bitField_concat 6 (bitField_low (index 5) 2) (bitField_high (index 6) 5)),
    (byte 9).trans (bitField_concat 3 (bitField_low (index 6) 5) (bitField_high (index 7) 8)),
    (byte 10).trans (bitField_low (index 7) 8),
    (byte 11).trans (bitField_high (index 8) 3),
    (byte 12).trans (bitField_concat 5 (bitField_low (index 8) 3) (bitField_high (index 9) 6)),
    (byte 13).trans (bitField_concat 2 (bitField_low (index 9) 6) (bitField_high (index 10) 9)),
    (byte 14).trans (bitField_inside (index 10) 1),
    (byte 15).trans (bitField_concat 7 (bitField_low (index 10) 1) (bitField_high (index 11) 4)),
    (checksumOf132_toNat n).trans (bitField_eq_and n 0 4),
    (checksumOf132_toNat n).trans (bitField_low (index 11) 4)⟩
  rw [byte, bitField_eq_and, Nat.shiftRight_add]
  rfl

/-- Settles O20: the table says which bits of which bytes an index is made of. -/
theorem unpackIndexByIndex : Obligations.UnpackIndexByIndex := by
  intro e cs idx b n
  have hn : n = join132 e cs := by simp only [n, b, join132, blockNumber_eq_sum]
  have index : ∀ k : Fin 12, idx k = bitField n (11 * (11 - k.val)) 11 := fun k => hn ▸ unpack132_getElem e cs k
  have byte : ∀ i : Fin 16, bitField n (4 + 8 * (15 - i.val)) 8 = b i := fun i => hn ▸ join132_byte e cs i
  exact ⟨fun k => (index k).trans (bitField_eq_and ..),
    (index 0).trans (bitField_concat 3 (byte 0) (bitField_high (byte 1) 5)),
    (index 1).trans (bitField_concat 6 (bitField_low (byte 1) 5) (bitField_high (byte 2) 2)),
    (index 2).trans (bitField_concat₃ 8 1 (bitField_low (byte 2) 2) (byte 3) (bitField_high (byte 4) 7)),
    (index 3).trans (bitField_concat 4 (bitField_low (byte 4) 7) (bitField_high (byte 5) 4)),
    (index 4).trans (bitField_concat 7 (bitField_low (byte 5) 4) (bitField_high (byte 6) 1)),
    (index 5).trans (bitField_concat₃ 8 2 (bitField_low (byte 6) 1) (byte 7) (bitField_high (byte 8) 6)),
    (index 6).trans (bitField_concat 5 (bitField_low (byte 8) 6) (bitField_high (byte 9) 3)),
    (index 7).trans (bitField_concat 8 (bitField_low (byte 9) 3) (byte 10)),
    (index 8).trans (bitField_concat 3 (byte 11) (bitField_high (byte 12) 5)),
    (index 9).trans (bitField_concat 6 (bitField_low (byte 12) 5) (bitField_high (byte 13) 2)),
    (index 10).trans (bitField_concat₃ 8 1 (bitField_low (byte 13) 2) (byte 14) (bitField_high (byte 15) 7)),
    unpack132_last e cs⟩

/-- Settles O17. -/
theorem lookupIsTheLeastIndex : Obligations.LookupIsTheLeastIndex := fun _ _ =>
  ⟨fun _ => wlIndex_eq_some_iff, wlIndex_eq_none_iff⟩

/-- Settles O25. -/
theorem mnDecodeFollowsItsSteps : Obligations.MnDecodeFollowsItsSteps := by
  refine ⟨decode_encode .mnDecode, fun s => ⟨fun hl => ?_, fun hl hc => ?_, fun hl hc slot hslot hbefore => ?_,
    fun hl hc idx hidx => ?_⟩⟩
  · rw [exec_mnDecode, decodeMnemonic_unlocked _ hl]
    rfl
  · rw [exec_mnDecode, decodeMnemonic_wrongCount _ hl hc]
    rfl
  · rw [exec_mnDecode, decodeMnemonic_unknown hl hc (firstUnknownSlot_eq_some (wlIndex_eq_none_iff.mpr hslot) hbefore)]
    rfl
  · intro n e cs c2
    have hindex : ∀ k : Fin 12, wlIndex s.wlToken s.mn[k] = some (Vector.ofFn idx)[k] := fun k => by
      simpa using wlIndex_eq_some_iff.mpr (hidx k)
    have hn : pack132 (Vector.ofFn idx) = n := by simp [pack132_eq_sum, n]
    have hcs : (checksumOf132 n).toNat = cs := checksumOf132_toNat n
    have hc2 : (cks unitHash (entropyOf132 n)).toNat = c2 := (checksumOf_eq e).symm
    have hdetail : checksumDetail (checksumOf132 n) (cks unitHash (entropyOf132 n)) = BitVec.ofNat 8 (16 * cs + c2) := by
      rw [← hcs, ← hc2, ← checksumDetail_toNat, BitVec.ofNat_toNat, BitVec.setWidth_eq]
    rw [exec_mnDecode]
    refine ⟨fun hs hne => ?_, fun h => ?_⟩
    · have hmismatch : cks unitHash (entropyOf132 n) ≠ checksumOf132 n := fun he => hne (by rw [← hc2, ← hcs, he])
      rw [decodeMnemonic_mismatch hl hc hindex hs (hn ▸ hmismatch), hn, hdetail]
      rfl
    · have hmatch : s.strict = true → cks unitHash (entropyOf132 n) = checksumOf132 n := fun hs => by
        refine BitVec.eq_of_toNat_eq (hc2.trans (Eq.trans ?_ hcs.symm))
        simpa [hs] using h
      rw [decodeMnemonic_succeeds hl hc hindex (hn ▸ hmatch), hn]
      rfl

/-- Settles O26. -/
theorem mnEncodeFollowsItsSteps : Obligations.MnEncodeFollowsItsSteps := by
  refine ⟨decode_encode .mnEncode, fun hash e b bs hb => ?_,
    fun s => ⟨fun hl => ?_, fun hl hlen => ?_, fun hl hlen => ?_⟩⟩
  · rw [cks_toNat, hb]
    rfl
  · rw [exec_mnEncode, encodeMnemonic_unlocked _ hl]
    rfl
  · rw [exec_mnEncode, encodeMnemonic_wrongLength _ hl hlen]
    rfl
  · intro n
    have hn : n = join132 s.ent (cks unitHash s.ent) := by simp only [n, join132, blockNumber_eq_sum, checksumOf_eq]
    rw [exec_mnEncode, encodeMnemonic_succeeds _ hl hlen, State.Of.mnemonicOf_eq, ← hn]
    rfl

/-- Settles O28. -/
theorem encodeThenDecodeReturnsTheEntropy : Obligations.EncodeThenDecodeReturnsTheEntropy := by
  refine ⟨fun w p hash s hl hlen hu => ?_, fun s hl hlen hu => ⟨_, _, exec_mnEncode s, exec_mnDecode _, ?_⟩⟩
  · rw [decodeMnemonic_encodeMnemonic hash hl hlen hu]
    exact ⟨rfl, rfl, rfl⟩
  · rw [decodeMnemonic_encodeMnemonic unitHash hl hlen hu, encodeMnemonic_succeeds _ hl hlen]
    exact ⟨rfl, rfl, rfl, rfl⟩

/-- Settles O27: the sixteen mnemonics are those of one entropy with each checksum. -/
theorem strictAcceptsOneLastWordOfSixteen : Obligations.StrictAcceptsOneLastWordOfSixteen := by
  intro hash s idx hu hl hc last withLast
  have hmn : ∀ (c : BitVec 4) (k : Fin 12),
      (withLast c).mn[k] = s.wlToken (unpack132 (entropyOf132 (pack132 idx)) c)[k] := fun c k => by
    rw [unpack132_withLast]
    simp [withLast, last]
  have hdecode := fun hash' c => decodeMnemonic_of_words hash' (s := withLast c) hl hc hu (hmn c)
  refine ⟨fun hs c d hash' => ?_, fun hs => ?_⟩
  · obtain ⟨herr, hent⟩ := hdecode hash c
    obtain ⟨-, hent'⟩ := hdecode hash' d
    exact ⟨herr.mpr (by simp [withLast, hs]), (hent hs).trans (hent' hs).symm⟩
  · refine ⟨cks hash (entropyOf132 (pack132 idx)), (hdecode hash _).1.mpr fun _ => rfl, fun c herr => ?_⟩
    exact ((hdecode hash c).1.mp herr hs).symm

/-- Settles O29: the lookup answers the lower index, so the word decodes to other bits. -/
theorem duplicateEntriesBreakTheRoundTrip : Obligations.DuplicateEntriesBreakTheRoundTrip := by
  intro s i j hij hleast
  have hlookup := wlIndex_eq_some_iff.mpr hleast
  refine ⟨hlookup, fun hash hl hlen k hk => ?_⟩
  rw [encodeMnemonic_succeeds hash hl hlen]
  have hword : (s.mnemonicOf hash s.ent)[k] = s.wlToken j := by rw [State.Of.mnemonicOf_getElem, hk]
  refine ⟨hword, rfl, fun hs hlast => ?_⟩
  have hindex : ∀ m : Fin 12, wlIndex s.wlToken (s.mnemonicOf hash s.ent)[m] =
      some (slotIndices s.wlToken (s.mnemonicOf hash s.ent))[m] := fun m =>
    wlIndex_slot ⟨_, (s.mnemonicOf_getElem hash s.ent m).symm⟩
  have hi : (slotIndices s.wlToken (s.mnemonicOf hash s.ent))[k] = i :=
    Option.some_inj.mp ((hindex k).symm.trans (hword ▸ hlookup))
  have hdecode := decodeMnemonic_succeeds (hash := hash) (s := (s.withMnemonic (s.mnemonicOf hash s.ent) 12).succeed)
    hl rfl hindex (by simp [hs])
  rw [hdecode]
  refine ⟨rfl, fun hent => hij.ne ?_⟩
  rw [← hi, ← hk]
  exact (unpack132_getElem_of_entropy hent (cks hash s.ent) hlast).symm

end Sys2Proof.Proofs
end

section
/-! SUPPORT. The share reconstructor: interpolation at zero over the field, an equation for each end of `SS_RECON`, and which
errors a command can raise. -/

namespace Sys2Proof.Machine
open Sys2Proof.Claims

/-! ### Interpolation at zero (R171, R177) -/

/-- The quotient has characteristic 2. -/
theorem residue_add_self (a : Byte) : residue a + residue a = 0 := by
  rw [← residue_xor, BitVec.xor_self, residue_zero]

/-- The inverse of a sum, in the quotient. -/
theorem residue_inverse {x1 x2 d : Byte} (hd : gfMul (x1 ^^^ x2) d = 1) : (residue x1 + residue x2) * residue d = 1 := by
  rw [← residue_xor, ← residue_gfMul, hd]
  exact residue_one

/-- The two points of a line give its constant back, whatever its slope. -/
theorem lagrangeAtZero_line (a b : Byte) {x1 x2 d : Byte} (hd : gfMul (x1 ^^^ x2) d = 1) :
    lagrangeAtZero x1 x2 d (a ^^^ gfMul b x1) (a ^^^ gfMul b x2) = a := by
  apply residue_injective
  simp only [lagrangeAtZero, residue_xor, residue_gfMul]
  linear_combination residue a * residue_inverse hd + residue x1 * residue x2 * residue d * residue_add_self b

/-- The form of R177 is the first value plus slope times `x1`, the form of R171. -/
theorem lagrangeAtZero_eq_slope (y1 y2 : Byte) {x1 x2 d : Byte} (hd : gfMul (x1 ^^^ x2) d = 1) :
    lagrangeAtZero x1 x2 d y1 y2 = gfAdd y1 (gfMul (gfMul (gfAdd y1 y2) d) x1) := by
  apply residue_injective
  simp only [lagrangeAtZero, residue_xor, residue_gfAdd, residue_gfMul]
  linear_combination residue y1 * residue_inverse hd - residue d * residue x1 * residue_add_self y1

/-- `INV3` is the inverse of `X1 xor X2` (R115). -/
theorem gfMul_inv3 : gfMul (0x01 ^^^ 0x02) 0xF6 = 1 := rfl

theorem lagrangeAtZero_eq_reconByte (y1 y2 : Byte) : lagrangeAtZero 0x01 0x02 0xF6 y1 y2 = reconByte y1 y2 :=
  lagrangeAtZero_eq_slope y1 y2 gfMul_inv3

theorem lagrangeAtZero_one_two (y1 y2 : Byte) :
    lagrangeAtZero 0x01 0x02 0xF6 y1 y2 = gfMul y1 0xF7 ^^^ gfMul y2 0xF6 := by
  have h2 : gfMul 0x02 0xF6 = 0xF7 := rfl
  have h1 : gfMul 0x01 0xF6 = 0xF6 := rfl
  rw [lagrangeAtZero, h2, h1]

/-- The closed form of R171: `X1` is the field's one. -/
theorem reconByte_eq (y1 y2 : Byte) : reconByte y1 y2 = y1 ^^^ gfMul (y1 ^^^ y2) 0xF6 :=
  congrArg (y1 ^^^ ·) (gfMul_one (reconSlope y1 y2))

/-- Reconstruction of a valid pair of share bytes (R175). -/
theorem reconByte_shares (a b : Byte) : reconByte (a ^^^ b) (a ^^^ gfMul b 0x02) = a :=
  calc reconByte (a ^^^ b) (a ^^^ gfMul b 0x02)
    _ = reconByte (a ^^^ gfMul b 0x01) (a ^^^ gfMul b 0x02) := congrArg (fun y => reconByte (a ^^^ y) _) (gfMul_one b).symm
    _ = a := by rw [← lagrangeAtZero_eq_reconByte, lagrangeAtZero_line a b gfMul_inv3]

/-- A byte added twice is gone. -/
theorem xor_xor_self (a b : Byte) : (a ^^^ b) ^^^ b = a := by
  rw [BitVec.xor_assoc, BitVec.xor_self, BitVec.xor_zero]

/-- The blinding byte is what the reconstruction takes away from the first share byte. -/
theorem slope_shares (a b : Byte) : gfMul ((a ^^^ b) ^^^ (a ^^^ gfMul b 0x02)) 0xF6 = b := by
  have hrecon : (a ^^^ b) ^^^ gfMul ((a ^^^ b) ^^^ (a ^^^ gfMul b 0x02)) 0xF6 = a := by
    rw [← reconByte_eq, reconByte_shares]
  exact (BitVec.xor_right_inj (a ^^^ b)).mp (hrecon.trans (xor_xor_self a b).symm)

/-- The pair that two share bytes come from is found by interpolation, and there is always one (R178). -/
theorem validPair_iff {y1 y2 a b : Byte} :
    y1 = a ^^^ b ∧ y2 = a ^^^ gfMul b 0x02 ↔ b = gfMul (y1 ^^^ y2) 0xF6 ∧ a = y1 ^^^ b := by
  constructor
  · rintro ⟨rfl, rfl⟩
    exact ⟨(slope_shares a b).symm, (xor_xor_self a b).symm⟩
  · rintro ⟨hb, rfl⟩
    refine ⟨(xor_xor_self y1 b).symm, residue_injective ?_⟩
    have hone : residue (0x01 : Byte) = 1 := residue_one
    have hinv := residue_inverse gfMul_inv3
    rw [hone] at hinv
    have hslope : residue b = (residue y1 + residue y2) * residue (0xF6 : Byte) := by simpa using congrArg residue hb
    rw [residue_xor, residue_xor, residue_gfMul, hslope]
    linear_combination -(residue y1 + residue y2) * hinv - residue_add_self y1

/-! ### `SS_RECON` (R172), an equation for each of its ends -/

section
variable {s : State}

theorem exec_ssRecon_lengthMismatch (hlen : s.saLen ≠ s.sbLen) :
    exec .ssRecon s = .next (s.raise .shareLengthMismatch 0) := if_pos hlen

variable (hlen : s.saLen = s.sbLen)
include hlen

theorem exec_ssRecon_unsupportedIndices (hidx : ¬(s.saIdx = 1 ∧ s.sbIdx = 2)) :
    exec .ssRecon s = .next (s.raise .unsupportedShareIndices 0) :=
  (if_neg (not_not.mpr hlen)).trans (if_pos hidx)

variable (ha : s.saIdx = 1) (hb : s.sbIdx = 2)
include ha hb

theorem exec_ssRecon_invalidLength (hrange : s.saLen.toNat = 0 ∨ 16 < s.saLen.toNat) :
    exec .ssRecon s = .next (s.raise .invalidShareLength 0) :=
  (if_neg (not_not.mpr hlen)).trans ((if_neg (not_not.mpr ⟨ha, hb⟩)).trans (if_pos hrange))

theorem exec_ssRecon_succeeds (hpos : 1 ≤ s.saLen.toNat) (hcap : s.saLen.toNat ≤ 16) :
    exec .ssRecon s = .next (s.withSecret (s.reconstructed s.saLen.toNat) s.saLen).succeed := by
  have hrange : ¬(s.saLen.toNat = 0 ∨ s.saLen.toNat > Config.shareCap) := by
    rw [Config.shareCap]
    omega
  exact (if_neg (not_not.mpr hlen)).trans ((if_neg (not_not.mpr ⟨ha, hb⟩)).trans (if_neg hrange))

end

/-- `SEC` after a reconstruction, in the closed form of R171. -/
theorem State.Of.reconstructed_eq {w p : Nat} (s : State.Of w p) (len : Nat) :
    s.reconstructed len = Vector.ofFn fun i : Fin 16 =>
      if i.val < len then s.sa[i] ^^^ gfMul (s.sa[i] ^^^ s.sb[i]) 0xF6 else s.sec[i] := by
  simp only [State.Of.reconstructed, reconByte_eq]

/-- From the shares of R176 in full length, the reconstruction is the secret. -/
theorem State.Of.reconstructed_shares {w p : Nat} {s : State.Of w p} {S B : Block}
    (ha : s.sa = Vector.ofFn fun i : Fin 16 => shareByteAt1 S[i] B[i])
    (hb : s.sb = Vector.ofFn fun i : Fin 16 => shareByteAt2 S[i] B[i]) : s.reconstructed 16 = S := by
  ext k hk : 1
  have hrecon : reconByte (shareByteAt1 S[k] B[k]) (shareByteAt2 S[k] B[k]) = S[k] := reconByte_shares S[k] B[k]
  simp [State.Of.reconstructed, ha, hb, hrecon]

/-- Whether `SS_RECON` fails, and with which error, depends on lengths and indices alone (R178). -/
theorem exec_ssRecon_err_of_shares {s t : State} (h : exec .ssRecon s = .next t) (a b : Block) :
    ∃ u, exec .ssRecon { s with sa := a, sb := b } = .next u ∧ u.err = t.err := by
  rcases execSsRecon_cases s with ⟨hlen, hs⟩ | ⟨hlen, hidx, hs⟩ | ⟨hlen, ha, hb, hrange, hs⟩ |
    ⟨hlen, ha, hb, hpos, hcap, hs⟩ <;> cases hs.symm.trans h
  · exact ⟨_, exec_ssRecon_lengthMismatch hlen, rfl⟩
  · exact ⟨_, exec_ssRecon_unsupportedIndices hlen hidx, rfl⟩
  · exact ⟨_, exec_ssRecon_invalidLength hlen ha hb hrange, rfl⟩
  · exact ⟨_, exec_ssRecon_succeeds hlen ha hb hpos hcap, rfl⟩

/-! ### The errors of each command (R174, R230) -/

/-- The errors that a command can raise. -/
def errorsOf : Instr → List ErrorCode
  | .gfInv => [.undefinedInverse]
  | .mnDecode => [.wordlistNotLoaded, .invalidMnemonicLength, .unknownWord, .checksumMismatch]
  | .mnEncode => [.wordlistNotLoaded, .invalidEntropyLength]
  | .ssRecon => [.shareLengthMismatch, .unsupportedShareIndices, .invalidShareLength]
  | _ => []

/-- `MN_DECODE` leaves `ERR` 0 or one of its own errors (R144). -/
theorem decodeMnemonic_err (hash : List Byte → List Byte) (s : State) :
    (decodeMnemonic hash s).err = 0 ∨ ∃ e ∈ errorsOf .mnDecode, (decodeMnemonic hash s).err = e.errByte := by
  rcases decodeMnemonic_cases hash s with ⟨-, h⟩ | ⟨-, -, h⟩ | ⟨-, -, slot, -, h⟩ | ⟨-, -, -, h⟩ <;> rw [h]
  · exact .inr ⟨.wordlistNotLoaded, by decide, rfl⟩
  · exact .inr ⟨.invalidMnemonicLength, by decide, rfl⟩
  · exact .inr ⟨.unknownWord, by decide, rfl⟩
  · rcases decodeKnownWords_cases hash s with ⟨-, -, h⟩ | ⟨-, h⟩ <;> rw [h]
    · exact .inr ⟨.checksumMismatch, by decide, rfl⟩
    · exact .inl rfl

/-- `MN_ENCODE` leaves `ERR` 0 or one of its own errors (R145). -/
theorem encodeMnemonic_err (hash : List Byte → List Byte) (s : State) :
    (encodeMnemonic hash s).err = 0 ∨ ∃ e ∈ errorsOf .mnEncode, (encodeMnemonic hash s).err = e.errByte := by
  rcases encodeMnemonic_cases hash s with ⟨-, h⟩ | ⟨-, -, h⟩ | ⟨-, -, h⟩ <;> rw [h]
  · exact .inr ⟨.wordlistNotLoaded, by decide, rfl⟩
  · exact .inr ⟨.invalidEntropyLength, by decide, rfl⟩
  · exact .inl rfl

/-- What a command can leave in `ERR`. -/
theorem exec_err {i : Instr} {s t : State} (h : exec i s = .next t) :
    t.err = 0 ∨ ∃ e ∈ errorsOf i, t.err = e.errByte := by
  cases i with
  | gfInv =>
    rcases execGfInv_cases s with ⟨-, hs⟩ | ⟨v, -, hs⟩ <;> cases hs.symm.trans h
    · exact .inr ⟨.undefinedInverse, by decide, rfl⟩
    · exact .inl rfl
  | mnDecode => cases h; exact decodeMnemonic_err unitHash s
  | mnEncode => cases h; exact encodeMnemonic_err unitHash s
  | ssRecon =>
    rcases execSsRecon_cases s with ⟨-, hs⟩ | ⟨-, -, hs⟩ | ⟨-, -, -, -, hs⟩ | ⟨-, -, -, -, -, hs⟩ <;>
      cases hs.symm.trans h
    · exact .inr ⟨.shareLengthMismatch, by decide, rfl⟩
    · exact .inr ⟨.unsupportedShareIndices, by decide, rfl⟩
    · exact .inr ⟨.invalidShareLength, by decide, rfl⟩
    · exact .inl rfl
  | _ => cases h; exact .inl rfl

/-- Code 7 belongs to one error, and that error to one command. -/
theorem eq_gfInv_of_errorsOf {i : Instr} {e : ErrorCode} (he : e ∈ errorsOf i) (h7 : e.errByte = 7) : i = .gfInv := by
  obtain rfl : e = .undefinedInverse := by
    cases e with
    | undefinedInverse => rfl
    | _ => cases h7
  cases i with
  | gfInv => rfl
  | _ => simp [errorsOf] at he

theorem eq_gfInv_of_exec_err {i : Instr} {s t : State} (h : exec i s = .next t) (h7 : t.err = 7) : i = .gfInv := by
  rcases exec_err h with h0 | ⟨e, he, herr⟩
  · cases h0.symm.trans h7
  · exact eq_gfInv_of_errorsOf he (herr.symm.trans h7)

end Sys2Proof.Machine

namespace Sys2Proof.Proofs
open Sys2Proof.Machine Sys2Proof.Claims

/-- Settles O32, by the equation of each end. -/
theorem ssReconFollowsItsSteps : Obligations.SsReconFollowsItsSteps := by
  refine ⟨decode_encode .ssRecon, fun s => ⟨fun hlen => exec_ssRecon_lengthMismatch hlen,
    fun hlen hidx => exec_ssRecon_unsupportedIndices hlen hidx,
    fun hlen ha hb hrange => exec_ssRecon_invalidLength hlen ha hb hrange, fun hlen ha hb hpos hcap => ?_⟩⟩
  rw [exec_ssRecon_succeeds hlen ha hb hpos hcap, State.Of.reconstructed_eq]
  rfl

/-- Settles O33: code 7 is among the errors of `GF_INV` alone, which raises it where `gf_inv` has no value. -/
theorem undefinedInverseOnlyFromGfInv : Obligations.UndefinedInverseOnlyFromGfInv := by
  intro i s t h
  constructor
  · intro h7
    obtain rfl := eq_gfInv_of_exec_err h h7
    refine ⟨rfl, by_contra fun hgfa => ?_⟩
    obtain ⟨v, hinv, -⟩ := exists_gfInv hgfa
    cases (exec_gfInv_some hinv).symm.trans h
    cases h7
  · rintro ⟨rfl, hgfa⟩
    cases (exec_gfInv_none (hgfa ▸ gfInv_zero)).symm.trans h
    rfl

/-- Settles O34: the unit's interpolation gives back the constant of the line, at each position. -/
theorem reconstructionRecoversTheSecret : Obligations.ReconstructionRecoversTheSecret := by
  refine ⟨reconByte_shares, fun s S B ha hb halen hblen hsa hsb => ?_⟩
  have hlen : s.saLen.toNat = 16 := by rw [halen]; rfl
  refine ⟨_, exec_ssRecon_succeeds (halen.trans hblen.symm) ha hb (by omega) (by omega), ?_, halen, rfl⟩
  exact hlen ▸ State.Of.reconstructed_shares hsa hsb

/-- Settles O35: interpolation inverts the shares, and the checks of `SS_RECON` look at no share byte. -/
theorem everyPairIsSomeValidPair : Obligations.EveryPairIsSomeValidPair := by
  refine ⟨fun y1 y2 => ⟨(y1 ^^^ gfMul (y1 ^^^ y2) 0xF6, gfMul (y1 ^^^ y2) 0xF6), validPair_iff.mpr ⟨rfl, rfl⟩, ?_⟩,
    fun y1 y2 => ⟨_, rfl, validPair_iff.mpr ⟨rfl, rfl⟩⟩, fun s t a b h => exec_ssRecon_err_of_shares h a b⟩
  intro p hp
  obtain ⟨hb, ha⟩ := validPair_iff.mp hp
  exact Prod.ext (hb ▸ ha) hb

/-- Settles O36. -/
theorem lagrangeAtZeroRecoversTheSecret : Obligations.LagrangeAtZeroRecoversTheSecret :=
  ⟨fun a b _ _ _ _ _ _ hd => lagrangeAtZero_line a b (gfMul_of_gfInv hd),
    fun y1 y2 => ⟨lagrangeAtZero_one_two y1 y2, lagrangeAtZero_eq_reconByte y1 y2⟩⟩

/-- Settles O31. -/
theorem reconByteFollowsItsSteps : Obligations.ReconByteFollowsItsSteps := fun y1 y2 =>
  ⟨⟨0xF6, gfInv_eq_some_iff.mpr rfl, rfl, rfl, rfl⟩, reconByte_eq y1 y2⟩

end Sys2Proof.Proofs
end

section
/-! SUPPORT. The move and system commands, and the recovery flow: each command of it on the mnemonics of valid shares, and a
host script as what its lines do one after another at the port. -/

namespace Sys2Proof.Machine
open Sys2Proof.Claims

/-! ### `NOP` and the moves (R190, R192 to R194) -/

theorem exec_nop (s : State) : exec .nop s = .next s.succeed := rfl

theorem exec_mvEntSa (s : State) : exec .mvEntSa s = .next (s.withShareA s.ent s.entLen).succeed := rfl

theorem exec_mvEntSb (s : State) : exec .mvEntSb s = .next (s.withShareB s.ent s.entLen).succeed := rfl

theorem exec_mvSecEnt (s : State) : exec .mvSecEnt s = .next (s.withEntropy s.sec s.secLen).succeed := rfl

/-! ### The commands of the recovery flow that have checks (R197) -/

/-- The first share of R176: its sixteen bytes at x = 1. -/
def shareAt1 (S B : Block) : Block := Vector.ofFn fun i : Fin 16 => shareByteAt1 S[i] B[i]

/-- The second share of R176: its sixteen bytes at x = 2. -/
def shareAt2 (S B : Block) : Block := Vector.ofFn fun i : Fin 16 => shareByteAt2 S[i] B[i]

/-- The state once the mnemonic of `e` has been loaded and decoded. -/
def State.Of.decoded (s : State) (e : Block) : State :=
  ((s.withMnemonic (s.mnemonicOf unitHash e) 12).withEntropy e 16).succeed

/-- `MN_DECODE` of the mnemonic of an entropy succeeds, in either mode: the checksum in the words is the computed one. -/
theorem exec_mnDecode_mnemonicOf {s : State} (hl : s.wlLock = true) (hu : s.wordlistUnique) (e : Block) :
    exec .mnDecode (s.withMnemonic (s.mnemonicOf unitHash e) 12) = .next (s.decoded e) := by
  have hindex : ∀ k : Fin 12, wlIndex s.wlToken (s.mnemonicOf unitHash e)[k] = some (unpack132 e (cks unitHash e))[k] :=
    fun k => by rw [State.Of.mnemonicOf_getElem, wlIndex_of_unique hu]
  have hdecode := decodeMnemonic_succeeds (hash := unitHash) (s := s.withMnemonic (s.mnemonicOf unitHash e) 12) hl rfl hindex
  rw [pack132_unpack132, entropyOf132_join132, checksumOf132_join132] at hdecode
  rw [exec_mnDecode, hdecode fun _ => rfl, State.Of.decoded]

/-- `SS_RECON` on the shares of R176 writes their secret (R175). -/
theorem exec_ssRecon_shares {s : State} {S B : Block} (ha : s.saIdx = 1) (hb : s.sbIdx = 2) (halen : s.saLen = 16)
    (hblen : s.sbLen = 16) (hsa : s.sa = shareAt1 S B) (hsb : s.sb = shareAt2 S B) :
    exec .ssRecon s = .next (s.withSecret S 16).succeed := by
  have hlen : s.saLen.toNat = 16 := by rw [halen]; rfl
  rw [exec_ssRecon_succeeds (halen.trans hblen.symm) ha hb (by omega) (by omega), hlen, halen,
    State.Of.reconstructed_shares hsa hsb]

/-- `MN_ENCODE` of sixteen bytes under a locked wordlist. -/
theorem exec_mnEncode_succeeds {s : State} (hl : s.wlLock = true) (hlen : s.entLen = 16) :
    exec .mnEncode s = .next (s.withMnemonic (s.mnemonicOf unitHash s.ent) 12).succeed := by
  rw [exec_mnEncode, encodeMnemonic_succeeds _ hl hlen]

/-! ### The states between the commands of the recovery flow (R197) -/

/-- The words of an entropy depend on the wordlist alone. -/
theorem State.Of.mnemonicOf_congr {s t : State} (h : t.wlToken = s.wlToken) (hash : List Byte → List Byte) (e : Block) :
    t.mnemonicOf hash e = s.mnemonicOf hash e := by
  rw [State.Of.mnemonicOf, State.Of.mnemonicOf, h]

/-- The state once share A has been decoded and moved, and the host has set its index. -/
def State.Of.shareALoaded (s : State) (e : Block) : State :=
  { ((s.decoded e).withShareA e 16).succeed with saIdx := 1 }

@[simp] theorem State.Of.shareALoaded_host (s : State) (e : Block) : (s.shareALoaded e).host = s.host := rfl

/-- The state once share B has been decoded and moved, and the host has set its index. -/
def State.Of.shareBLoaded (s : State) (e : Block) : State :=
  { ((s.decoded e).withShareB e 16).succeed with sbIdx := 2 }

@[simp] theorem State.Of.shareBLoaded_host (s : State) (e : Block) : (s.shareBLoaded e).host = s.host := rfl

/-- The state once the secret has been reconstructed and moved. -/
def State.Of.secretMoved (s : State) (S : Block) : State := ((s.withSecret S 16).succeed.withEntropy S 16).succeed

@[simp] theorem State.Of.secretMoved_host (s : State) (S : Block) : (s.secretMoved S).host = s.host := rfl

/-- The state once the entropy has been encoded. -/
def State.Of.encoded (s : State) : State := (s.withMnemonic (s.mnemonicOf unitHash s.ent) 12).succeed

@[simp] theorem State.Of.encoded_host (s : State) : s.encoded.host = s.host := rfl

/-! ### Host scripts at the port (R98) -/

/-- With the accesses of the script as the host's next events, whatever follows them, as many steps lead from `s` to `t`. -/
structure RunsScript (script : List ScriptLine) (s t : State) : Prop where
  steps : ∀ rest, runsTo (expandScript script).length (s.awaiting (expandScript script ++ rest)) (t.awaiting rest)

theorem runsScript_append {first second : List ScriptLine} {s t u : State} (h : RunsScript first s t)
    (g : RunsScript second t u) : RunsScript (first ++ second) s u := by
  have hexpand : expandScript (first ++ second) = expandScript first ++ expandScript second := List.flatMap_append
  refine ⟨fun rest => ?_⟩
  rw [hexpand, List.length_append, List.append_assoc]
  exact runsTo_append (h.steps _) (g.steps rest)

theorem runsScript_cons {line : ScriptLine} {script : List ScriptLine} {s t u : State} (h : RunsScript [line] s t)
    (g : RunsScript script t u) : RunsScript (line :: script) s u := runsScript_append h g

theorem runsScript_cmd {i : Instr} {s t : State} (h : ∀ rest, exec i (s.awaiting rest) = .next (t.awaiting rest)) :
    RunsScript [.cmd i] s t := ⟨fun rest => runsTo_command rest (h rest)⟩

theorem runsScript_rd (s : State) (a : HostAddr) : RunsScript [.rd a] s (s.deliverRead (s.hostRead a)) :=
  ⟨runsTo_read s a⟩

theorem runsScript_wr (s : State) {a : HostAddr} (ha : a ≠ 0) (v : Byte) : RunsScript [.wr a v] s (s.hostStore a v) :=
  ⟨runsTo_write s ha v⟩

theorem runsScript_loadMnemonic (s : State) (words : Vector Token 12) :
    RunsScript (loadMnemonic words) s (s.withMnemonic words 12) := by
  have hlength : (expandScript (loadMnemonic words)).length = 97 := by
    rw [expand_loadMnemonic, List.length_append, List.length_map]
    rfl
  exact ⟨hlength ▸ runsTo_loadMnemonic s words⟩

/-- The state once the host has read the words in `MN`. -/
def State.Of.mnemonicRead (s : State) : State :=
  { s with host := { s.host with reads := s.host.reads ++ s.mn.toList.flatMap fun token => token.toList } }

theorem runsScript_readMnemonic (s : State) : RunsScript readMnemonic s s.mnemonicRead := by
  refine ⟨fun rest => ?_⟩
  have hread := runsTo_reads s (mnPlaces.map mnAddr) rest
  rw [hostRead_mnemonic] at hread
  rw [expand_readMnemonic, List.length_map]
  exact hread

/-- From a state whose host is about to do the script, a run reaches what holds of the state that the script leaves. -/
theorem exists_runsTo_of_runsScript {script : List ScriptLine} {s t : State} {rest : List HostEvent} {P : State → Prop}
    (h : RunsScript script s t) (hp : s.host.pending = expandScript script ++ rest) (ht : P (t.awaiting rest)) :
    ∃ u, runsTo (expandScript script).length s u ∧ P u := by
  have hrun := h.steps rest
  rw [← State.Of.awaiting_of_pending hp] at hrun
  exact ⟨_, hrun, ht⟩

/-! ### The recovery flow at the port (R197) -/

section
variable {s : State} (hl : s.wlLock = true) (hu : s.wordlistUnique) (e : Block)
include hl

/-- Step 9 of R197. -/
theorem runsScript_encode (hlen : s.entLen = 16) : RunsScript [.cmd .mnEncode, .rd 0x0001] s (s.encoded.deliverRead 0) :=
  runsScript_cons (t := s.encoded)
    (runsScript_cmd fun rest => exec_mnEncode_succeeds (s := s.awaiting rest) hl hlen) (runsScript_rd _ _)

include hu

theorem runsScript_decode : RunsScript [.cmd .mnDecode] (s.withMnemonic (s.mnemonicOf unitHash e) 12) (s.decoded e) :=
  runsScript_cmd fun rest => exec_mnDecode_mnemonicOf (s := s.awaiting rest) hl hu e

/-- Steps 2 and 3 of R197. -/
theorem runsScript_shareA : RunsScript [.cmd .mnDecode, .rd 0x0001, .cmd .mvEntSa, .wr 0x0010 0x01]
    (s.withMnemonic (s.mnemonicOf unitHash e) 12) ((s.shareALoaded e).deliverRead 0) := by
  have hmove : RunsScript [.cmd .mvEntSa] ((s.decoded e).deliverRead 0)
      (((s.decoded e).deliverRead 0).withShareA e 16).succeed := runsScript_cmd fun _ => exec_mvEntSa _
  exact runsScript_cons (runsScript_decode hl hu e) <| runsScript_cons (runsScript_rd _ _) <|
    runsScript_cons hmove <| runsScript_wr _ (by decide) _

/-- Steps 5 and 6 of R197. -/
theorem runsScript_shareB : RunsScript [.cmd .mnDecode, .rd 0x0001, .cmd .mvEntSb, .wr 0x0012 0x02]
    (s.withMnemonic (s.mnemonicOf unitHash e) 12) ((s.shareBLoaded e).deliverRead 0) := by
  have hmove : RunsScript [.cmd .mvEntSb] ((s.decoded e).deliverRead 0)
      (((s.decoded e).deliverRead 0).withShareB e 16).succeed := runsScript_cmd fun _ => exec_mvEntSb _
  exact runsScript_cons (runsScript_decode hl hu e) <| runsScript_cons (runsScript_rd _ _) <|
    runsScript_cons hmove <| runsScript_wr _ (by decide) _

end

/-- Steps 7 and 8 of R197. -/
theorem runsScript_secret {s : State} {S B : Block} (ha : s.saIdx = 1) (hb : s.sbIdx = 2) (halen : s.saLen = 16)
    (hblen : s.sbLen = 16) (hsa : s.sa = shareAt1 S B) (hsb : s.sb = shareAt2 S B) :
    RunsScript [.cmd .ssRecon, .rd 0x0001, .cmd .mvSecEnt] s ((s.secretMoved S).deliverRead 0) :=
  runsScript_cons (t := (s.withSecret S 16).succeed)
    (runsScript_cmd fun rest => exec_ssRecon_shares (s := s.awaiting rest) ha hb halen hblen hsa hsb) <|
    runsScript_cons (runsScript_rd _ _) <| runsScript_cmd fun _ => exec_mvSecEnt _

/-- The state after the commands of the flow, each with its read of `ERR`. -/
def State.Of.recovered (s : State) (S B : Block) : State :=
  let afterA := (s.shareALoaded (shareAt1 S B)).deliverRead 0
  let afterB := (afterA.shareBLoaded (shareAt2 S B)).deliverRead 0
  ((afterB.secretMoved S).deliverRead 0).encoded.deliverRead 0

/-- The four reads of `ERR` answered 0. -/
theorem State.Of.recovered_reads (s : State) (S B : Block) :
    (s.recovered S B).host.reads = s.host.reads ++ [0x00, 0x00, 0x00, 0x00] := by
  simp [State.Of.recovered]

theorem State.Of.recovered_mn (s : State) (S B : Block) : (s.recovered S B).mn = s.mnemonicOf unitHash S :=
  State.Of.mnemonicOf_congr rfl unitHash S

/-- Steps 1 to 10 of R197. -/
theorem runsScript_recoveryFlow {s : State} (hl : s.wlLock = true) (hu : s.wordlistUnique) (S B : Block) :
    RunsScript (recoveryFlow (s.mnemonicOf unitHash (shareAt1 S B)) (s.mnemonicOf unitHash (shareAt2 S B))) s
      (s.recovered S B).mnemonicRead := by
  have hA := runsScript_shareA hl hu (shareAt1 S B)
  have hB := runsScript_shareB (s := (s.shareALoaded (shareAt1 S B)).deliverRead 0) hl hu (shareAt2 S B)
  have hwords : ((s.shareALoaded (shareAt1 S B)).deliverRead 0).mnemonicOf unitHash (shareAt2 S B) =
      s.mnemonicOf unitHash (shareAt2 S B) := State.Of.mnemonicOf_congr rfl unitHash _
  rw [hwords] at hB
  have hloadA := runsScript_append (runsScript_loadMnemonic s _) hA
  have hshares := runsScript_append (runsScript_append hloadA (runsScript_loadMnemonic _ _)) hB
  have hsecret := runsScript_append hshares
    (runsScript_append (runsScript_secret rfl rfl rfl rfl rfl rfl) (runsScript_encode hl rfl))
  exact runsScript_append hsecret (runsScript_readMnemonic _)

end Sys2Proof.Machine

namespace Sys2Proof.Proofs
open Sys2Proof.Machine Sys2Proof.Claims

/-- Settles O59: decoding gives the shares back, and these interpolate to the secret. -/
theorem recoveryFlowRestoresTheMnemonic : Obligations.RecoveryFlowRestoresTheMnemonic := by
  intro s S B hl hu a b
  have hdecodeA := exec_mnDecode_mnemonicOf hl hu a
  have hdecodeB := exec_mnDecode_mnemonicOf (s := s.shareALoaded a) hl hu b
  have hsecret := exec_ssRecon_shares (s := (s.shareALoaded a).shareBLoaded b) (S := S) (B := B) rfl rfl rfl rfl rfl rfl
  exact ⟨_, _, _, _, _, _, _, hdecodeA, rfl, exec_mvEntSa _, hdecodeB, rfl, exec_mvEntSb _, hsecret, rfl, rfl, rfl,
    exec_mvSecEnt _, exec_mnEncode_succeeds hl rfl, rfl, rfl, rfl, rfl⟩

/-- Settles O60: the script runs line by line, and what its reads answer stands in the state it leaves. -/
theorem recoveryScriptReadsTheMnemonic : Obligations.RecoveryScriptReadsTheMnemonic := by
  intro s S B rest hl hu a b script hp
  refine exists_runsTo_of_runsScript (runsScript_recoveryFlow hl hu S B) hp ⟨rfl, ?_, rfl, rfl, rfl⟩
  rw [← State.Of.recovered_mn s S B, ← State.Of.recovered_reads s S B]
  rfl

/-- Settles O37. -/
theorem nopOnlyDeliversSuccess : Obligations.NopOnlyDeliversSuccess := ⟨decode_encode .nop, exec_nop⟩

/-- Settles O38. -/
theorem mvEntSaCopiesTheEntropy : Obligations.MvEntSaCopiesTheEntropy := ⟨decode_encode .mvEntSa, exec_mvEntSa⟩

/-- Settles O39. -/
theorem mvEntSbCopiesTheEntropy : Obligations.MvEntSbCopiesTheEntropy := ⟨decode_encode .mvEntSb, exec_mvEntSb⟩

/-- Settles O40. -/
theorem mvSecEntCopiesTheSecret : Obligations.MvSecEntCopiesTheSecret := ⟨decode_encode .mvSecEnt, exec_mvSecEnt⟩

/-- Settles O41: both resets leave a state of the table of R39, and every other command keeps `CTRL` and the recorded
faults. -/
theorem sresetIsTheHardwareReset : Obligations.SresetIsTheHardwareReset := by
  obtain ⟨htable, -⟩ := resetLeavesTheTable
  refine ⟨decode_encode .sreset, fun s => ⟨_, rfl, (htable _ _).1⟩,
    fun s rest hp => ⟨_, step_reset hp rfl, (htable _ _).1⟩, fun i s t hi ht => ?_⟩
  obtain ⟨hstrict, hlock, -, -⟩ := exec_keeps_ctrl_and_wordlist hi ht
  exact ⟨hstrict, hlock, exec_faults_sticky hi ht⟩

end Sys2Proof.Proofs
end

section
/-! SUPPORT. The hash primitive: the padding and the block of an entropy, the schedule as a list that only grows at its end,
the rounds one after another, and the digest byte by byte. -/

namespace Sys2Proof.Machine
open Sys2Proof.Claims

/-! ### The padding (R214) -/

@[simp] theorem length_bytesOf64 (n : Nat) : (bytesOf64 n).length = 8 := by simp [bytesOf64]

theorem length_shaPad (m : List Byte) : (shaPad m).length = m.length + 1 + (119 - m.length % 64) % 64 + 8 := by
  simp only [shaPad, List.length_append, List.length_replicate, length_bytesOf64, List.length_singleton]

/-- The zeros bring the length to 56 modulo 64; the bit length then fills the block. -/
theorem zeroCount_mod (n : Nat) : (n + 1 + (119 - n % 64) % 64) % 64 = 56 := by omega

theorem length_shaPad_mod (m : List Byte) : (shaPad m).length % 64 = 0 := by
  have hzeros := zeroCount_mod m.length
  rw [length_shaPad]
  omega

theorem blockBytes_eq_ofFn (e : Block) : blockBytes e = List.ofFn fun i : Fin 16 => e[i] :=
  List.ext_getElem (by simp [blockBytes]) fun i _ _ => by
    simp only [blockBytes, Vector.getElem_toList, List.getElem_ofFn]
    rfl

/-- The sixteen words of the one block that the entropy makes. -/
def entropyWords (e : Block) : List Word32 :=
  [wordOfBytes e[0] e[1] e[2] e[3], wordOfBytes e[4] e[5] e[6] e[7], wordOfBytes e[8] e[9] e[10] e[11],
    wordOfBytes e[12] e[13] e[14] e[15], 0x80000000, 0, 0, 0, 0, 0, 0, 0, 0, 0, 0, 0x00000080]

@[simp] theorem length_blockBytes (e : Block) : (blockBytes e).length = 16 := e.length_toList

/-- The 39 zeros and the bit length of a 16-byte message (R214). -/
theorem shaPad_blockBytes (e : Block) :
    shaPad (blockBytes e) = blockBytes e ++ [0x80] ++ List.replicate 39 0x00 ++ bytesOf64 128 := by
  rw [shaPad, length_blockBytes]

theorem wordsOfBytes_shaPad_blockBytes (e : Block) : wordsOfBytes (shaPad (blockBytes e)) = entropyWords e := by
  rw [shaPad_blockBytes, blockBytes_eq_ofFn]
  rfl

/-! ### The schedule (R215) -/

theorem extendSchedule_add (m n : Nat) (latest : List Word32) :
    extendSchedule (m + n) latest = extendSchedule n (extendSchedule m latest) := by
  induction m generalizing latest with
  | zero => rw [Nat.zero_add]; rfl
  | succ m ih => rw [Nat.succ_add]; exact ih _

@[simp] theorem length_extendSchedule (n : Nat) (latest : List Word32) :
    (extendSchedule n latest).length = latest.length + n := by
  induction n generalizing latest with
  | zero => rfl
  | succ n ih => rw [extendSchedule, ih, List.length_cons]; omega

/-- The words there were stay behind the new ones. -/
theorem suffix_extendSchedule (n : Nat) (latest : List Word32) : latest <:+ extendSchedule n latest := by
  induction n generalizing latest with
  | zero => exact List.suffix_rfl
  | succ n ih => exact (List.suffix_cons _ _).trans (ih _)

section
variable {block : List Word32} (hblock : block.length = 16)
include hblock

theorem length_schedule : (schedule block).length = 64 := by simp [schedule, hblock]

/-- The schedule up to `W[15 + n]` is the block with `n` more words. -/
theorem take_schedule {n : Nat} (hn : n ≤ 48) :
    (schedule block).take (16 + n) = (extendSchedule n block.reverse).reverse := by
  obtain ⟨later, hlater⟩ := suffix_extendSchedule (48 - n) (extendSchedule n block.reverse)
  rw [← extendSchedule_add, Nat.add_sub_cancel' hn] at hlater
  rw [schedule, ← hlater, List.reverse_append, List.take_left' (by simp [hblock])]

theorem take_schedule_block : (schedule block).take 16 = block := by
  simpa [extendSchedule] using take_schedule hblock (Nat.zero_le 48)

/-- Each later word is the next one after the words before it. -/
theorem schedule_getElem?_next {t : Nat} (hlow : 16 ≤ t) (hhigh : t < 64) :
    (schedule block)[t]? = some (nextScheduleWord ((schedule block).take t).reverse) := by
  obtain ⟨n, rfl⟩ := Nat.exists_eq_add_of_le hlow
  have hnext : (schedule block).take (16 + n + 1) =
      (nextScheduleWord (extendSchedule n block.reverse) :: extendSchedule n block.reverse).reverse := by
    rw [Nat.add_assoc, take_schedule hblock (by omega), extendSchedule_add]
    rfl
  rw [take_schedule hblock (by omega), List.reverse_reverse, ← List.getElem?_take_of_lt (Nat.lt_succ_self (16 + n)), hnext]
  simp [hblock]

end

/-- The word that comes `i` places before the last of the first `t`. -/
theorem getD_reverse_take {W : List Word32} {t i : Nat} (hi : i < t) (ht : t ≤ W.length) :
    (W.take t).reverse.getD i 0 = W.getD (t - (i + 1)) 0 := by
  rw [List.getD_eq_getElem?_getD, List.getD_eq_getElem?_getD, List.getElem?_reverse (by simp; omega),
    List.getElem?_take_of_lt (by simp; omega)]
  congr 2
  simp
  omega

theorem nextScheduleWord_reverse_take {W : List Word32} {t : Nat} (hlow : 16 ≤ t) (ht : t ≤ W.length) :
    nextScheduleWord (W.take t).reverse =
      shaSmallS1 (W.getD (t - 2) 0) + W.getD (t - 7) 0 + shaSmallS0 (W.getD (t - 15) 0) + W.getD (t - 16) 0 := by
  rw [nextScheduleWord, getD_reverse_take (by omega) ht, getD_reverse_take (by omega) ht, getD_reverse_take (by omega) ht,
    getD_reverse_take (by omega) ht]

/-! ### The rounds (R212, R215) -/

theorem rotr_eq_rotateRight (x : Word32) {n : Nat} (hn : n < 32) : rotr x n = x.rotateRight n := by
  rw [rotr, BitVec.rotateRight_def, Nat.mod_eq_of_lt hn]

theorem shaSmallS0_eq (x : Word32) : shaSmallS0 x = x.rotateRight 7 ^^^ x.rotateRight 18 ^^^ (x >>> 3) := by
  simp [shaSmallS0, rotr_eq_rotateRight]

theorem shaSmallS1_eq (x : Word32) : shaSmallS1 x = x.rotateRight 17 ^^^ x.rotateRight 19 ^^^ (x >>> 10) := by
  simp [shaSmallS1, rotr_eq_rotateRight]

theorem shaRound_eq_roundOf (x : ShaWords) (k w : Word32) : shaRound x (k, w) = roundOf x k w := by
  simp [shaRound, roundOf, shaBigS0, shaBigS1, shaCh, shaMaj, rotr_eq_rotateRight]

/-- The values of `a` to `h` before round `t` of a block with the schedule `W`. -/
def wordsBefore (h : ShaWords) (W : List Word32) (t : Nat) : ShaWords := ((shaK.zip W).take t).foldl shaRound h

theorem wordsBefore_succ (h : ShaWords) {W : List Word32} (hW : W.length = 64) {t : Nat} (ht : t < 64) :
    wordsBefore h W (t + 1) = roundOf (wordsBefore h W t) (shaK.getD t 0) (W.getD t 0) := by
  have hK : t < shaK.length := ht
  have hzip : t < (shaK.zip W).length := by rw [List.length_zip, hW]; exact ht
  rw [wordsBefore, List.take_succ_eq_append_getElem hzip, List.foldl_append, List.getElem_zip, List.getD_eq_getElem _ _ hK,
    List.getD_eq_getElem _ _ (by omega)]
  exact shaRound_eq_roundOf _ _ _

theorem shaBlock_eq_add_wordsBefore (h : ShaWords) {block : List Word32} (hblock : block.length = 16) :
    shaBlock h block = h.add (wordsBefore h (schedule block) 64) := by
  rw [shaBlock, wordsBefore, List.take_of_length_le]
  rw [List.length_zip, length_schedule hblock]
  exact Nat.min_le_right _ _

/-! ### The digest and the checksum (R143, R215) -/

theorem bytesOfWord_getElem? (x : Word32) (k : Fin 4) :
    (bytesOfWord x)[k.val]? = some (BitVec.ofNat 8 (x.toNat >>> (8 * (3 - k.val)))) := by
  fin_cases k <;> rfl

theorem flatMap_bytesOfWord_getElem? (ws : List Word32) (j : Nat) (k : Fin 4) :
    (ws.flatMap bytesOfWord)[4 * j + k.val]? = ws[j]?.bind fun x => (bytesOfWord x)[k.val]? := by
  have hlen : ∀ x, (bytesOfWord x).length = 4 := fun _ => rfl
  induction ws generalizing j with
  | nil => simp
  | cons x ws ih =>
    rw [List.flatMap_cons]
    cases j with
    | zero => rw [List.getElem?_append_left (by rw [hlen]; omega), Nat.mul_zero, Nat.zero_add]; rfl
    | succ j =>
      rw [List.getElem?_append_right (by rw [hlen]; omega), hlen, show 4 * (j + 1) + k.val - 4 = 4 * j + k.val by omega, ih]
      rfl

theorem length_digest (h : ShaWords) : h.digest.length = 32 := rfl

theorem digest_getElem? (h : ShaWords) (j : Fin 8) (k : Fin 4) : h.digest[4 * j.val + k.val]? =
    some (BitVec.ofNat 8 ([h.a, h.b, h.c, h.d, h.e, h.f, h.g, h.h][j].toNat >>> (8 * (3 - k.val)))) := by
  rw [ShaWords.digest, flatMap_bytesOfWord_getElem?, List.getElem?_eq_getElem j.isLt, Option.bind_some, bytesOfWord_getElem?]
  rfl

/-- The hash of an entropy has one block (R214). -/
theorem sha256_toList (e : Block) : sha256 e.toList = (shaBlock shaInit (entropyWords e)).digest := by
  have hlen : (entropyWords e).length = 16 := rfl
  rw [sha256, show e.toList = blockBytes e from rfl, wordsOfBytes_shaPad_blockBytes, hlen]
  rfl

/-- The checksum is bits 31 to 28 of the final `H[0]`. -/
theorem cks_unitHash (e : Block) : (cks unitHash e).toNat = (shaBlock shaInit (entropyWords e)).a.toNat >>> 28 := by
  have hhead : ∀ h : ShaWords, h.digest.headD 0 = h.a.extractLsb' 24 8 := fun _ => rfl
  have hlt := (shaBlock shaInit (entropyWords e)).a.isLt
  rw [cks_toNat, unitHash, sha256_toList, hhead, BitVec.extractLsb'_toNat, Nat.mod_eq_of_lt, ← Nat.shiftRight_add]
  rw [Nat.shiftRight_eq_div_pow]
  omega

end Sys2Proof.Machine

namespace Sys2Proof.Proofs
open Sys2Proof.Machine Sys2Proof.Claims

/-- Settles O23. -/
theorem hashPaddingFillsBlocks : Obligations.HashPaddingFillsBlocks :=
  ⟨fun m => ⟨length_shaPad_mod m, _, Nat.mod_lt _ (by decide), zeroCount_mod m.length, rfl⟩, wordsOfBytes_shaPad_blockBytes⟩

/-- Settles O24: the values of `a` to `h` before each round are those of the model's fold over the first pairs of
`K[t]` and `W[t]`. -/
theorem hashFollowsItsScheduleAndRounds : Obligations.HashFollowsItsScheduleAndRounds := by
  refine ⟨fun block hblock => ?_, fun x => ⟨shaSmallS0_eq x, shaSmallS1_eq x⟩, fun h => ⟨length_digest h, digest_getElem? h⟩,
    fun e => ⟨sha256_toList e, cks_unitHash e⟩⟩
  have hlen := length_schedule hblock
  refine ⟨hlen, fun t ht => ?_, fun t hlow hhigh => ?_, fun h => ?_⟩
  · rw [← List.getElem?_take_of_lt ht, take_schedule_block hblock]
  · rw [schedule_getElem?_next hblock hlow hhigh, nextScheduleWord_reverse_take hlow (by omega)]
  · exact ⟨wordsBefore h (schedule block), rfl, fun t ht => wordsBefore_succ h hlen ht, shaBlock_eq_add_wordsBefore h hblock⟩

end Sys2Proof.Proofs
end

section
/-! SUPPORT. Error reporting: the code, detail and bit of `FAULTS` that a command leaves, and the host accesses that leave
none. -/

namespace Sys2Proof.Machine

/-! ### The codes of the errors (R230) -/

theorem ErrorCode.code_bounds (e : ErrorCode) : 1 ≤ e.code ∧ e.code ≤ 10 := by cases e <;> decide

/-! ### The steps of a read and of a store (R64) -/

/-- A step whose event is a read delivers the byte read and leaves the unit as it was. -/
theorem step_read {s : State} {a : HostAddr} {rest : List HostEvent} (hp : s.host.pending = .read a :: rest) :
    step s = .next ((s.takeEvent rest).deliverRead ((s.takeEvent rest).hostRead a)) := step_event hp

/-- A step whose event is a write elsewhere than at `CMD` stores the byte, or ignores it. -/
theorem step_store {s : State} {a : HostAddr} {v : Byte} {rest : List HostEvent} (ha : a ≠ 0)
    (hp : s.host.pending = .write a v :: rest) : step s = .next ((s.takeEvent rest).hostStore a v) := by
  rw [step_event hp, runEvent, runWrite_store ha]

end Sys2Proof.Machine

namespace Sys2Proof.Proofs
open Sys2Proof.Machine Sys2Proof.Claims

/-- Settles O44: a command other than `SRESET` leaves its success state, or the state before with one error raised
whose code is `n`. -/
theorem commandSucceedsOrRaises : Obligations.CommandSucceedsOrRaises := by
  intro i s t hi ht
  rcases exec_cases ht with rfl | ⟨e, d, rfl⟩
  · exact .inl ⟨successState_err s i, successState_einfo s i, successState_faults hi s⟩
  · obtain ⟨hlow, hhigh⟩ := e.code_bounds
    exact .inr ⟨e.code, hlow, hhigh, d, rfl⟩

/-- Settles O53: a read changes the host's side alone, and no store has `ERR`, `EINFO` or `FAULTS` as its location. -/
theorem hostAccessesRaiseNoError : Obligations.HostAccessesRaiseNoError := by
  rintro s e rest hp (⟨a, rfl⟩ | ⟨a, v, rfl, ha⟩)
  · exact ⟨_, step_read hp, rfl, rfl, rfl⟩
  · exact ⟨_, step_store ha hp, State.Of.writeLocation_err _ v _, State.Of.writeLocation_einfo _ v _,
      State.Of.writeLocation_faults _ v _⟩

end Sys2Proof.Proofs
end

section
/-! SUPPORT. Reset and hazards: what the port reads in a reset state, which commands cannot fail, and that nothing the host
does leaves the unit without a next state. -/

namespace Sys2Proof.Machine
open Sys2Proof.Claims

/-! ### What the port reads after a reset (R262) -/

theorem State.Of.hostRead_register (s : State) {a : HostAddr} (h : a.toNat < 0x20) :
    s.hostRead a = s.readLocation (registerMap.getD a.toNat .reserved) := by
  rw [State.Of.hostRead_eq, locate_eq, if_pos h]

theorem State.Of.hostRead_reserved (s : State) {a : HostAddr} (h : reservedAddress a.toNat) : s.hostRead a = 0x00 := by
  rw [State.Of.hostRead_eq, locate_reserved h, State.Of.readLocation]

@[simp] theorem faultsLow_zero : faultsLow 0#16 = 0 := by decide

@[simp] theorem faultsHigh_zero : faultsHigh 0#16 = 0 := by decide

@[simp] theorem ctrlByte_false : ctrlByte false false = 0 := by decide

/-- The registers among the first 32 addresses to which R39 gives a value. -/
def resetRegister (a : Nat) : Prop := a ≤ 0x05 ∨ (0x0C ≤ a ∧ a ≤ 0x0E) ∨ (0x10 ≤ a ∧ a ≤ 0x13)

theorem lt_of_resetRegister {a : Nat} (h : resetRegister a) : a < 0x20 := by
  unfold resetRegister at h
  omega

theorem readLocation_afterReset (n : Nat) (h : HostPort) {a : Nat} (ha : resetRegister a) :
    (State.afterReset n h).readLocation (registerMap.getD a .reserved) = 0x00 := by
  rcases ha with hhi | ⟨hlo, hhi⟩ | ⟨hlo, hhi⟩ <;> interval_cases a <;> simp [registerMap, State.Of.readLocation]

theorem hostRead_afterReset (n : Nat) (h : HostPort) {a : HostAddr} (ha : resetRegister a.toNat) :
    (State.afterReset n h).hostRead a = 0x00 := by
  rw [State.Of.hostRead_register _ (lt_of_resetRegister ha), readLocation_afterReset n h ha]

/-! ### Every step answers a next state (R266) -/

section
variable {w p : Nat}

/-- Every command has a next state: an error is a result too (R231). -/
theorem exists_next_execWith (hash : List Byte → List Byte) (i : Instr) (s : State.Of w p) :
    ∃ t, execWith hash i s = .next t := by
  cases i with
  | gfInv => rcases execGfInv_cases s with ⟨-, h⟩ | ⟨v, -, h⟩ <;> exact ⟨_, h⟩
  | ssRecon =>
    rcases execSsRecon_cases s with ⟨-, h⟩ | ⟨-, -, h⟩ | ⟨-, -, -, -, h⟩ | ⟨-, -, -, -, -, h⟩ <;> exact ⟨_, h⟩
  | _ => exact ⟨_, rfl⟩

section
variable {run : Commands w p} (hrun : ∀ i s, ∃ t, run i s = .next t)
include hrun

/-- The decoder is total, and a byte that it rejects is an error like any other (R93). -/
theorem exists_next_runCommand (c : Byte) (s : State.Of w p) : ∃ t, runCommand run c s = .next t := by
  unfold runCommand
  split
  · exact hrun _ s
  · exact ⟨_, rfl⟩

variable [NeZero w]

theorem exists_next_runWrite (a : HostAddr p) (v : Byte) (s : State.Of w p) : ∃ t, runWrite run a v s = .next t := by
  unfold runWrite
  split
  · exact exists_next_runCommand hrun v s
  · exact ⟨_, rfl⟩

theorem exists_next_runEvent (e : HostEvent.Of p) (s : State.Of w p) : ∃ t, runEvent run e s = .next t := by
  cases e with
  | read a => exact ⟨_, rfl⟩
  | write a v => exact exists_next_runWrite hrun a v s
  | hardReset => exact ⟨_, rfl⟩

theorem exists_next_runNext (s : State.Of w p) : ∃ t, runNext run s = .next t := by
  unfold runNext
  split
  · exact ⟨s, rfl⟩
  · exact exists_next_runEvent hrun _ _

end

theorem exists_next_stepWith [NeZero w] (hash : List Byte → List Byte) (s : State.Of w p) :
    ∃ t, stepWith hash s = .next t :=
  exists_next_runNext (exists_next_execWith hash) s

end

/-- SHA-256 is the hash of the unit's own step (R211). -/
theorem stepWith_sha256 (s : State) : stepWith sha256 s = step s := congrArg (runNext · s) execWith_unitHash

/-! ### The commands that cannot fail -/

theorem exists_next_exec (i : Instr) (s : State) : ∃ t, exec i s = .next t := by
  rw [← execWith_unitHash]
  exact exists_next_execWith unitHash i s

/-- A command without an error of its own succeeds in every state (R230). -/
theorem exec_succeeds_of_errorsOf_nil {i : Instr} (hi : errorsOf i = []) (s : State) :
    ∃ t, exec i s = .next t ∧ t.err = 0 := by
  obtain ⟨t, ht⟩ := exists_next_exec i s
  rcases exec_err ht with h0 | ⟨e, he, -⟩
  · exact ⟨t, ht, h0⟩
  · simp [hi] at he

/-! ### The commands that fail after a reset (R262) -/

section
variable (n : Nat) (h : HostPort)

theorem exec_mnDecode_afterReset : exec .mnDecode (State.afterReset n h) =
    .next ((State.afterReset n h).raise .wordlistNotLoaded 0) := by
  rw [exec_mnDecode, decodeMnemonic_unlocked unitHash (State.Of.afterReset_wlLock n h)]

theorem exec_mnEncode_afterReset : exec .mnEncode (State.afterReset n h) =
    .next ((State.afterReset n h).raise .wordlistNotLoaded 0) := by
  rw [exec_mnEncode, encodeMnemonic_unlocked unitHash (State.Of.afterReset_wlLock n h)]

/-- The two lengths are equal, both 0, so the indices, which are 0 too, are what is reported (R233). -/
theorem exec_ssRecon_afterReset : exec .ssRecon (State.afterReset n h) =
    .next ((State.afterReset n h).raise .unsupportedShareIndices 0) :=
  exec_ssRecon_unsupportedIndices rfl (by simp)

end

end Sys2Proof.Machine

namespace Sys2Proof.Proofs
open Sys2Proof.Machine Sys2Proof.Claims

/-- Settles O43: each register of R39 and each reserved address reads 0x00, and the commands listed last have no error of
their own. -/
theorem hostViewAfterReset : Obligations.HostViewAfterReset := by
  intro n h s
  have infallible : ∀ i ∈ [Instr.nop, .gfAdd, .gfSub, .gfMul, .mvEntSa, .mvEntSb, .mvSecEnt, .sreset],
      errorsOf i = [] := by decide
  refine ⟨fun a ha => ?_, exec_mnDecode_afterReset n h, exec_mnEncode_afterReset n h, exec_ssRecon_afterReset n h,
    fun i hi => exec_succeeds_of_errorsOf_nil (infallible i hi) s⟩
  rcases ha with hlow | hcounts | hshares | hreserved
  · exact hostRead_afterReset n h (.inl hlow)
  · exact hostRead_afterReset n h (.inr (.inl hcounts))
  · exact hostRead_afterReset n h (.inr (.inr hshares))
  · exact s.hostRead_reserved hreserved

/-- Settles O56: the statement for every hash and every size of a token, of which the unit's own step is one case. -/
theorem everyStepAnswersANextState : Obligations.EveryStepAnswersANextState := by
  refine ⟨fun s => ?_, fun w p _ hash s => exists_next_stepWith hash s, stepWith_sha256⟩
  rw [← stepWith_sha256]
  exact exists_next_stepWith sha256 s

end Sys2Proof.Proofs
end

section
/-! SUPPORT. The test wordlist: a hexadecimal digit is read back from its character, and an index from the characters of its
token. -/

namespace Sys2Proof.Machine

/-! ### Hexadecimal digits -/

theorem hexDigit_toNat {n : Nat} (hn : n < 16) :
    (hexDigit n).toNat = if n < 10 then 0x30 + n else 0x41 + (n - 10) := by
  rw [hexDigit, BitVec.toNat_ofNat, Nat.mod_eq_of_lt]
  split <;> omega

/-- The characters `A` to `F` come after `0` to `9`, so two digits never share a character. -/
theorem hexDigit_injOn {m n : Nat} (hm : m < 16) (hn : n < 16) (h : hexDigit m = hexDigit n) : m = n := by
  have hchar := congrArg BitVec.toNat h
  rw [hexDigit_toNat hm, hexDigit_toNat hn] at hchar
  split at hchar <;> split at hchar <;> omega

/-! ### The tokens of the test wordlist (`95_test_vectors.md` section 1) -/

/-- Characters 1 to 3 of an entry are the hexadecimal digits of its index, the highest first. -/
theorem tokT_digits (i : Fin 2048) :
    (tokT i)[1] = hexDigit (i.val / 256) ∧ (tokT i)[2] = hexDigit (i.val / 16 % 16) ∧
      (tokT i)[3] = hexDigit (i.val % 16) := ⟨rfl, rfl, rfl⟩

theorem tokT_injective : Function.Injective tokT := by
  intro i j h
  obtain ⟨hi₁, hi₂, hi₃⟩ := tokT_digits i
  obtain ⟨hj₁, hj₂, hj₃⟩ := tokT_digits j
  have high : i.val / 256 = j.val / 256 := hexDigit_injOn (by omega) (by omega) (by rw [← hi₁, ← hj₁, h])
  have middle : i.val / 16 % 16 = j.val / 16 % 16 := hexDigit_injOn (by omega) (by omega) (by rw [← hi₂, ← hj₂, h])
  have low : i.val % 16 = j.val % 16 := hexDigit_injOn (by omega) (by omega) (by rw [← hi₃, ← hj₃, h])
  exact Fin.ext (by omega)

end Sys2Proof.Machine

namespace Sys2Proof.Proofs
open Sys2Proof.Machine Sys2Proof.Claims

/-- Settles O30: the three hexadecimal digits in a token determine its index. -/
theorem testWordlistIsUnique : Obligations.TestWordlistIsUnique := fun _ _ h => tokT_injective h

end Sys2Proof.Proofs
end
